-- ==== Sys2Proof/Word.lean ====
section
/-! DEFINITION. The word types of the ESP core: one abbreviation per width the spec names (00_scope.md R6, 10_state.md). -/

namespace Sys2Proof

/-- A byte of `IN` or `SCAN` (R7). -/
abbrev Byte := BitVec 8

/-- A 16-bit field: a segment length, a dimension, a density, a quantization entry (R42, R19). -/
abbrev Half := BitVec 16

/-- `AW` = 32: the width of `IN_LEN` and `SCAN_LEN` (R6, R11, R25). -/
abbrev Length := BitVec 32

/-- `CURW` = 33: the width of the byte cursor `CUR` and of `ERR_ADDR` (R6, R12). -/
abbrev Cursor := BitVec 33

/-- `BOW` = 36: the width of the bit cursor `BITOFF` and of `ERR_POS` (R6, R13). -/
abbrev BitCursor := BitVec 36

/-- `CW` = 32: the width of a coefficient and of a DC predictor, two's complement (R6, R125). -/
abbrev Coef := BitVec 32

/-- The width of a block coordinate `BX`, `BY` (R26). -/
abbrev GridIndex := BitVec 13

end Sys2Proof
end

