-- ==== Sys2Proof/Syntax.lean ====
section
/-! DEFINITION. The instruction set: one constructor per row of opcode_table.json (30_encoding.md R61, R77), and the
Huffman code tree that gives the table-dependent rows their bit patterns (10_state.md R21, R22). -/

namespace Sys2Proof

/-- What a slot of a Huffman table holds (10_state.md R21, 41_huffman_table.md preamble): `null`, a leaf with its symbol
and no children, or an internal node with two child positions and no payload. -/
inductive Tree where
  | null
  | leaf (symbol : Byte)
  | node (left right : Tree)
  deriving DecidableEq, Repr

/-- The instructions, one constructor per row of opcode_table.json. `len` is the segment length field `L` that the
dispatcher reads and hands to the handler (43_segment_scanner.md R141); the rest of a segment's payload is a memory
operand, read from `IN` by the meaning at the moment the spec reads it. `size` is the symbol that the element's Huffman
code, its opcode, stands for (30_encoding.md R71, R72); the magnitude bits are read by the meaning. -/
inductive Instr where
  /-- `FF D8` at a position other than 0 (R142). -/
  | soi
  /-- `FF E0 L`: the JFIF header (R143). -/
  | app0 (len : Half)
  /-- `FF DB L`: a quantization table (R144). -/
  | dqt (len : Half)
  /-- `FF C0 L`: the frame header (R145). -/
  | sof0 (len : Half)
  /-- `FF C4 L`: a Huffman table (R146). -/
  | dht (len : Half)
  /-- `FF DA L`: the scan header and its entropy-coded region (R170 to R175). -/
  | sos (len : Half)
  /-- `FF D9`: end of image (R147). -/
  | eoi
  /-- `FF code L`, `code` none of the seven known codes: skipped with a warning (R148). -/
  | unsup (code : Byte) (len : Half)
  /-- A marker position whose first byte `b0` is not `FF` (R141, R75). -/
  | badPrefix (b0 b1 : Byte)
  /-- The stuffed pair `FF 00` inside an entropy-coded region (R70, R91). -/
  | stuff
  /-- The first element of a coded block; its code stands for `size` (R71, R121). -/
  | dcElem (size : Byte)
  /-- An element at an AC position; its code stands for a nonzero `size` (R71, R122). -/
  | acElem (size : Byte)
  /-- End of block: the AC code whose symbol is 0 (R71, R122). -/
  | eob
  deriving DecidableEq, Repr

/-- The encoding space a row of opcode_table.json belongs to (30_encoding.md R77). -/
inductive Space where
  /-- The bytes at `CUR`. -/
  | markerWord
  /-- The bytes of an entropy-coded region of `IN`. -/
  | scanBytes
  /-- The bits of `SCAN`. -/
  | scanBits
  deriving DecidableEq, Repr

/-- The encoding space of an instruction (R77, column `space` of opcode_table.json). -/
def Instr.space : Instr → Space
  | .soi => .markerWord
  | .app0 _ => .markerWord
  | .dqt _ => .markerWord
  | .sof0 _ => .markerWord
  | .dht _ => .markerWord
  | .sos _ => .markerWord
  | .eoi => .markerWord
  | .unsup _ _ => .markerWord
  | .badPrefix _ _ => .markerWord
  | .stuff => .scanBytes
  | .dcElem _ => .scanBits
  | .acElem _ => .scanBits
  | .eob => .scanBits

end Sys2Proof
end

