-- ==== Sys2Proof/WellFormed.lean ====
section
/-! DEFINITION. Which terms of `Instr` stand for an instruction of the hardware: the side conditions of opcode_table.json's
rows that its constructors do not already enforce. -/

namespace Sys2Proof

/-- The seven known second bytes of a marker (30_encoding.md R61). -/
def knownCodes : List Byte := [0xD8, 0xE0, 0xDB, 0xC0, 0xC4, 0xDA, 0xD9]

/-- An UNSUP marker has none of the seven known second bytes (R61, R148); a bad prefix is a first byte other than `FF`
(R75, R141); an AC element's symbol is not 0, for 0 is EOB (R71). Every other term is an instruction. -/
def Instr.wf : Instr → Bool
  | .soi => true
  | .app0 _ => true
  | .dqt _ => true
  | .sof0 _ => true
  | .dht _ => true
  | .sos _ => true
  | .eoi => true
  | .unsup code _ => !(knownCodes.contains code)
  | .badPrefix b0 _ => b0 != 0xFF
  | .stuff => true
  | .dcElem _ => true
  | .acElem size => size != 0
  | .eob => true

end Sys2Proof
end

