-- ==== Sys2Proof/Decode.lean ====
section
/-! DEFINITION. Decoding and encoding in the three encoding spaces of 30_encoding.md R77: the marker word at `CUR`, the
bytes of an entropy-coded region, and the bits of `SCAN`, whose patterns come from a Huffman tree. -/

namespace Sys2Proof

/-- Why a byte sequence holds no whole instruction word: the first byte that is missing, by its place. -/
inductive DecodeError where
  /-- Offset +0, the prefix, is missing. -/
  | noPrefix
  /-- Offset +1, the marker code, is missing. -/
  | noCode
  /-- Offset +2, the high byte of the length field, is missing. -/
  | noLengthHigh
  /-- Offset +3, the low byte of the length field, is missing. -/
  | noLengthLow
  deriving DecidableEq, Repr

/-- The offset of the missing byte from the first byte. -/
def DecodeError.offset : DecodeError → Nat
  | .noPrefix => 0
  | .noCode => 1
  | .noLengthHigh => 2
  | .noLengthLow => 3

/-- Big-endian assembly of a 16-bit field: the byte at the lower address is the more significant (R7, R42, R74). -/
def be16 (hi lo : Byte) : Half := hi ++ lo

/-- The more significant byte of a 16-bit field. -/
def highByte (h : Half) : Byte := h.extractLsb' 8 8

/-- The less significant byte of a 16-bit field. -/
def lowByte (h : Half) : Byte := h.extractLsb' 0 8

/-- The segment with a length field that the second marker byte `code` names (R61, R141). -/
def segmentOf (code : Byte) (len : Half) : Instr :=
  if code = 0xE0 then .app0 len
  else if code = 0xDB then .dqt len
  else if code = 0xC0 then .sof0 len
  else if code = 0xC4 then .dht len
  else if code = 0xDA then .sos len
  else .unsup code len

/-- The instruction at a marker position, and the bytes after its fixed words: the prefix and the code are both there
before the prefix is tested, the length field is there before a segment is dispatched (R141, R185 (a), (b)). -/
def decode : List Byte → Except DecodeError (Instr × List Byte)
  | [] => .error .noPrefix
  | [_] => .error .noCode
  | b0 :: b1 :: rest =>
    if b0 ≠ 0xFF then .ok (.badPrefix b0 b1, rest)
    else if b1 = 0xD8 then .ok (.soi, rest)
    else if b1 = 0xD9 then .ok (.eoi, rest)
    else match rest with
      | [] => .error .noLengthHigh
      | [_] => .error .noLengthLow
      | hi :: lo :: rest' => .ok (segmentOf b1 (be16 hi lo), rest')

/-- What stands at a position of an entropy-coded region (R70). -/
inductive RegionItem where
  /-- A byte other than `FF`: it stands for itself. -/
  | data (b : Byte)
  /-- An instruction of the region: the stuffed pair. -/
  | instr (i : Instr)
  /-- An `FF` followed by a byte other than `00`: the region ends before it. -/
  | stop
  deriving DecidableEq, Repr

/-- The item at a position of an entropy-coded region, and the bytes after it (R70, R91). -/
def decodeRegion : List Byte → Except DecodeError (RegionItem × List Byte)
  | [] => .error .noPrefix
  | b :: rest =>
    if b ≠ 0xFF then .ok (.data b, rest)
    else match rest with
      | [] => .error .noCode
      | b2 :: rest' => if b2 = 0x00 then .ok (.instr .stuff, rest') else .ok (.stop, b :: rest)

/-- Which position of a coded block an element stands at (R71): the first is the DC position, the others are AC. -/
inductive ElemPos where
  | dc
  | ac
  deriving DecidableEq, Repr

/-- Why a bit sequence holds no code of a tree (R72, R103). -/
inductive CodeError where
  /-- The bits lead to a null child: they are no prefix of any code. -/
  | notACode
  /-- The bits end at an internal node. -/
  | outOfBits
  deriving DecidableEq, Repr

/-- The symbol whose code the bits begin with, and the bits after it: left on 0 (`false`), right on 1 (`true`), first
bit first (R72). -/
def walkTree : Tree → List Bool → Except CodeError (Byte × List Bool)
  | .null, _ => .error .notACode
  | .leaf symbol, bits => .ok (symbol, bits)
  | .node _ _, [] => .error .outOfBits
  | .node l r, b :: bits => if b then walkTree r bits else walkTree l bits

/-- The element that the symbol of a code stands for, by its position: an AC symbol 0 is EOB (R71). -/
def elementOf : ElemPos → Byte → Instr
  | .dc, size => .dcElem size
  | .ac, size => if size = 0 then .eob else .acElem size

/-- The element the bits begin with, under a table's tree and at a position of the block (R71, R77). -/
def decodeBits (t : Tree) (pos : ElemPos) (bits : List Bool) : Except CodeError (Instr × List Bool) :=
  match walkTree t bits with
  | .error e => .error e
  | .ok (symbol, rest) => .ok (elementOf pos symbol, rest)

/-- The code of a symbol in a tree: the path to its leftmost leaf, if it has one (R72). -/
def codeOf : Tree → Byte → Option (List Bool)
  | .null, _ => none
  | .leaf symbol, wanted => if symbol = wanted then some [] else none
  | .node l r, wanted =>
    match codeOf l wanted with
    | some path => some (false :: path)
    | none => (codeOf r wanted).map (true :: ·)

/-- The bytes of an instruction word: marker and length field in the marker space (R61 to R63, R69), the stuffed pair
in the region (R70). The elements of the bit stream have no bytes of their own (R77). -/
def encode : Instr → List Byte
  | .soi => [0xFF, 0xD8]
  | .app0 len => [0xFF, 0xE0, highByte len, lowByte len]
  | .dqt len => [0xFF, 0xDB, highByte len, lowByte len]
  | .sof0 len => [0xFF, 0xC0, highByte len, lowByte len]
  | .dht len => [0xFF, 0xC4, highByte len, lowByte len]
  | .sos len => [0xFF, 0xDA, highByte len, lowByte len]
  | .eoi => [0xFF, 0xD9]
  | .unsup code len => [0xFF, code, highByte len, lowByte len]
  | .badPrefix b0 b1 => [b0, b1]
  | .stuff => [0xFF, 0x00]
  | .dcElem _ => []
  | .acElem _ => []
  | .eob => []

/-- The code bits of an element of the bit stream under a table's tree, and the position it stands at; none where the
table has no code for its symbol, and none for an instruction of another space (R71, R72). -/
def encodeBits (t : Tree) : Instr → Option (ElemPos × List Bool)
  | .dcElem size => (codeOf t size).map (ElemPos.dc, ·)
  | .acElem size => (codeOf t size).map (ElemPos.ac, ·)
  | .eob => (codeOf t 0).map (ElemPos.ac, ·)
  | .soi => none
  | .app0 _ => none
  | .dqt _ => none
  | .sof0 _ => none
  | .dht _ => none
  | .sos _ => none
  | .eoi => none
  | .unsup _ _ => none
  | .badPrefix _ _ => none
  | .stuff => none

/-- `n` 16-bit words of `w`, the least significant first, each laid out big-endian as `IN` holds it (R43, R61). -/
def wordBytes : Nat → Nat → List Byte
  | 0, _ => []
  | n + 1, w => BitVec.ofNat 8 (w / 256) :: BitVec.ofNat 8 w :: wordBytes n (w / 65536)

/-- How many zero bytes stand after the table's bits: the payload bytes of the longest segment of fixed size, a 16-bit
DQT with its marker (R65). With zero bytes every list a segment gives a count for is empty. -/
def longestWord : Nat := 133

/-- The bytes of an instruction whose first `nbits` bits are `w`, numbered as opcode_table.json numbers them, and whose
further bits are 0. -/
def tableBytes (nbits w : Nat) : List Byte :=
  wordBytes ((nbits + 15) / 16) w ++ List.replicate longestWord 0x00

/-- The instruction the decoder reads at a marker position from an instruction whose bits are `w`. -/
def decodeTableWord (nbits w : Nat) : Option Instr :=
  match decode (tableBytes nbits w) with
  | .ok (i, _) => some i
  | .error _ => none

end Sys2Proof
end

