-- ==== Sys2Proof/Config.lean ====
section
/-! DEFINITION. What is fixed for one ESP core: its capacities (00_scope.md R6), its two named parameters
(93_implementation_defined.md U15, U16), and the free values of memory that was never written. -/

namespace Sys2Proof.Config

/-- `MAX_COMP`: the capacity of the component, selector and predictor tables (R6, R18). -/
abbrev maxComp : Nat := 255

/-- `BLOCK`: coefficients per block, entries per quantization table (R6). -/
abbrev blockSize : Nat := 64

/-- `MAX_SIZE`: the largest magnitude-bit count the coefficient decoder accepts (R6, D5). -/
abbrev maxSize : Nat := 16

/-- `MAX_CODE_LEN`: the largest Huffman code length (R6). -/
abbrev maxCodeLen : Nat := 16

/-- The largest value of `IN_LEN`: the capacity of `IN` (R6 `AW`, R221). -/
abbrev inCapacity : Nat := 2 ^ 32 - 1

/-- The values of the parameter `PRED_MODE` (R6, R124, U15). -/
inductive PredMode where
  /-- The predictor becomes the decoded difference: the source's literal rule. -/
  | diff
  /-- The predictor becomes the DC coefficient: the JPEG standard's rule, named only to state the deviation. -/
  | abs
  deriving DecidableEq, Repr

/-- The values of the parameter `SOF_DIM_ORDER` (R6, R66, U16). -/
inductive DimOrder where
  | heightFirst
  | widthFirst
  deriving DecidableEq, Repr

/-- Free value (log entry 1): the byte an address of `IN` holds when the host never loaded it (R11, R29, U2). -/
opaque unloadedIn : Nat → Byte

/-- Free value (log entry 2): the byte an index of `SCAN` holds when DESTUFF never wrote it (R25, R29, U3). -/
opaque unwrittenScan : Nat → Byte

end Sys2Proof.Config
end

