-- ==== Sys2Proof/Machine/Tab.lean ====
section
/-! DEFINITION. The two containers of the state: a table of a fixed number of entries, and a byte memory as a sorted list
of the bytes that were written. -/

namespace Sys2Proof.Machine

/-- A table of exactly `n` entries: a fixed register file (10_state.md R18, R19, R23, R24, R26). -/
structure Tab (α : Type) (n : Nat) where
  cells : List α
  length_eq : cells.length = n
  deriving DecidableEq, Repr

/-- The table whose entries are all `v`. -/
def tabFill (n : Nat) {α : Type} (v : α) : Tab α n := ⟨List.replicate n v, List.length_replicate⟩

/-- Entry `i`, if the table has one. -/
def tabGet {α : Type} {n : Nat} (t : Tab α n) (i : Nat) : Option α := t.cells[i]?

/-- The table with `v` at entry `i`; an index the table does not have changes nothing. -/
def tabSet {α : Type} {n : Nat} (t : Tab α n) (i : Nat) (v : α) : Tab α n :=
  ⟨t.cells.set i v, by rw [List.length_set]; exact t.length_eq⟩

/-- The table with `v` at every entry from `i` on. -/
def tabFillFrom {α : Type} {n : Nat} (t : Tab α n) (i : Nat) (v : α) : Tab α n :=
  ⟨t.cells.take i ++ List.replicate (n - i) v, by
    rw [List.length_append, List.length_take, List.length_replicate, t.length_eq]; omega⟩

/-- A byte memory: the bytes that were written, each with its address, addresses strictly rising (the
form is the model's: log entry 12).
An address with no entry reads as no value, so no entry can equal what an unlisted address reads as. -/
abbrev Memory := List Host.Cell

/-- The canonical form: addresses strictly rising. -/
abbrev memWf (m : Memory) : Prop := m.Pairwise fun a b => a.1 < b.1

/-- The byte written at an address; none where nothing was written. -/
def memRead : Memory → Nat → Option Byte
  | [], _ => none
  | (k, v) :: rest, a => if k = a then some v else if a < k then none else memRead rest a

/-- The memory with `v` written at `a`, in canonical form. -/
def memWrite : Memory → Nat → Byte → Memory
  | [], a, v => [(a, v)]
  | (k, w) :: rest, a, v =>
    if k = a then (a, v) :: rest
    else if a < k then (a, v) :: (k, w) :: rest
    else (k, w) :: memWrite rest a v

/-- The memory with the bytes written at rising addresses from `a` on. -/
def memLoad (m : Memory) (a : Nat) : List Byte → Memory
  | [] => m
  | b :: bs => memLoad (memWrite m a b) (a + 1) bs

end Sys2Proof.Machine
end

