-- ==== Sys2Proof/Machine/State.lean ====
section
/-! DEFINITION. The whole state of one ESP core as plain data (10_state.md R10), the state after power-on reset (R29,
R220), and the reasons a step can stop. -/

namespace Sys2Proof.Machine

/-- The run state field `STATE` (R14). -/
inductive RunState where
  /-- After power-on reset, nothing started. -/
  | idle
  /-- The core is executing segment instructions. -/
  | run
  /-- EOI was executed, the core has halted. -/
  | done
  /-- A fatal error was raised, the core has halted. -/
  | error
  deriving DecidableEq, Repr

/-- The error registers (R16). -/
structure ErrorRegs where
  /-- `ERR_KIND`. -/
  kind : BitVec 3
  /-- `ERR_REASON`. -/
  reason : BitVec 8
  /-- `ERR_ADDR`. -/
  addr : Cursor
  /-- `ERR_POS`. -/
  pos : BitCursor
  deriving DecidableEq, Repr

/-- An entry of the component table `COMP` (R18). -/
structure Component where
  /-- `QTID`. -/
  qtid : BitVec 8
  /-- `SFV`. -/
  sfv : BitVec 4
  /-- `SFH`. -/
  sfh : BitVec 4
  deriving DecidableEq, Repr

/-- An entry of the scan selector table `SEL` (R23). -/
structure Selectors where
  /-- `DCSEL`. -/
  dc : BitVec 1
  /-- `ACSEL`. -/
  ac : BitVec 1
  deriving DecidableEq, Repr

/-- The class of a Huffman table: 0 = DC, 1 = AC (R21). -/
inductive TabClass where
  | dc
  | ac
  deriving DecidableEq, Repr

/-- A Huffman table slot: the bit `VALID` and the tree `TREE` (R21). -/
structure Slot where
  valid : Bool
  tree : Tree
  deriving DecidableEq, Repr

/-- The four slots `HT[class][sel]` (R21). -/
structure HuffTables where
  dc0 : Slot
  dc1 : Slot
  ac0 : Slot
  ac1 : Slot
  deriving DecidableEq, Repr

/-- The Decode Context (R17 to R24). -/
structure DecodeContext where
  /-- `BPS` (R17). -/
  bps : BitVec 8
  /-- `WIDTH` (R17). -/
  width : Half
  /-- `HEIGHT` (R17). -/
  height : Half
  /-- `NCOMP` (R17). -/
  ncomp : BitVec 8
  /-- `COMP` (R18). -/
  comp : Tab Component Config.maxComp
  /-- `LQT` (R19). -/
  lqt : Tab Half Config.blockSize
  /-- `CQT` (R19). -/
  cqt : Tab Half Config.blockSize
  /-- `DENS_UNITS` (R20). -/
  densUnits : BitVec 8
  /-- `XDENS` (R20). -/
  xdens : Half
  /-- `YDENS` (R20). -/
  ydens : Half
  /-- `JFIF_VER` (R20). -/
  jfifVer : Half
  /-- `HT` (R21). -/
  ht : HuffTables
  /-- `SEL` (R23). -/
  sel : Tab Selectors Config.maxComp
  /-- `PRED` (R24). -/
  pred : Tab Coef Config.maxComp
  deriving DecidableEq, Repr

/-- The working registers (R26), and the two cursors of the DESTUFF loop, which R91 writes `p` and `n` and gives no
width: the model keeps them as state so that the stuffed pair is an instruction of its own (log entry 3). -/
structure WorkRegs where
  /-- `ACC`, the READ_BITS accumulator. -/
  acc : BitVec 16
  /-- `SIZE`, the last decoded symbol. -/
  size : BitVec 8
  /-- `K`, the serialized position of the AC loop. -/
  k : BitVec 6
  /-- `BX`, the block column. -/
  bx : GridIndex
  /-- `BY`, the block row. -/
  row : GridIndex
  /-- `CI`, the component index. -/
  ci : BitVec 8
  /-- `p` of DESTUFF: the address in `IN` of the next byte of the region. -/
  regionPos : Nat
  /-- `n` of DESTUFF: the index in `SCAN` of the next byte to store. -/
  regionLen : Nat
  deriving DecidableEq, Repr

/-- A record of the output channel `OUT` (R27). -/
inductive OutRecord where
  /-- `Block(c, bx, by, coef[0..63])`. -/
  | block (c : BitVec 8) (bx row : GridIndex) (coef : Tab Coef Config.blockSize)
  /-- `Warn(kind, addr, a, b)`. -/
  | warn (kind : BitVec 3) (addr : Cursor) (a : BitVec 8) (b : Half)
  deriving DecidableEq, Repr

/-- The state of the machine (R10). -/
structure State where
  /-- `IN` (R11): the bytes the host loaded. -/
  inBuf : Memory
  /-- `IN_LEN` (R11). -/
  inLen : Length
  /-- `CUR`, the program counter (R12). -/
  cur : Cursor
  /-- `BITOFF` (R13). -/
  bitOff : BitCursor
  /-- `STATE` (R14). -/
  run : RunState
  /-- The START command the host wrote to the control register and the core has not taken yet (R140, D2; log entry 4). -/
  startReq : Bool
  /-- `W_UNSUP` (R15). -/
  wUnsup : Bool
  /-- `W_NCOMP` (R15). -/
  wNcomp : Bool
  /-- `ERR_KIND`, `ERR_REASON`, `ERR_ADDR`, `ERR_POS` (R16). -/
  err : ErrorRegs
  /-- The Decode Context (R17 to R24). -/
  ctx : DecodeContext
  /-- `SCAN` (R25): the bytes DESTUFF wrote. -/
  scan : Memory
  /-- `SCAN_LEN` (R25). -/
  scanLen : Length
  /-- `BLK`, the coefficient block in natural order (R26). -/
  blk : Tab Coef Config.blockSize
  /-- The working registers (R26). -/
  work : WorkRegs
  /-- `OUT`, oldest record first (R27). -/
  out : List OutRecord
  deriving DecidableEq, Repr

/-- The error registers at reset and after START: all 0 (R16). -/
def ErrorRegs.clear : ErrorRegs := ⟨0, 0, 0, 0⟩

/-- A slot whose key the mapping does not contain: `VALID` = 0, its nodes freed (R21, R105, U4). -/
def Slot.absent : Slot := ⟨false, .null⟩

/-- All four slots released (R105). -/
def HuffTables.released : HuffTables := ⟨.absent, .absent, .absent, .absent⟩

/-- The context "reset to empty/default": 0 for every number, empty for the components, no table (R28, D40). -/
def DecodeContext.empty : DecodeContext where
  bps := 0
  width := 0
  height := 0
  ncomp := 0
  comp := tabFill _ ⟨0, 0, 0⟩
  lqt := tabFill _ 0
  cqt := tabFill _ 0
  densUnits := 0
  xdens := 0
  ydens := 0
  jfifVer := 0
  ht := .released
  sel := tabFill _ ⟨0, 0⟩
  pred := tabFill _ 0

/-- The working registers at reset: all 0 (R26, R29; the DESTUFF cursors by log entry 3). -/
def WorkRegs.clear : WorkRegs := ⟨0, 0, 0, 0, 0, 0, 0, 0⟩

/-- The machine right after power-on reset (R29, R220): nothing loaded, nothing started, everything 0 or absent. -/
def State.reset : State where
  inBuf := []
  inLen := 0
  cur := 0
  bitOff := 0
  run := .idle
  startReq := false
  wUnsup := false
  wNcomp := false
  err := .clear
  ctx := .empty
  scan := []
  scanLen := 0
  blk := tabFill _ 0
  work := .clear
  out := []

/-- Why a step stops outside the machine's own fault entry. (A fatal error of the spec is no stop: fault entry R183 is a
next state whose `STATE` is `ERROR`.) -/
inductive Fault where
  /-- Raised by an element of the bit stream (DC_ELEM) when `CI` is 255: the selector and predictor tables have entries
  0 to 254 only (R23, R24). Safe: the step stops where the spec names no entry, and SOS never sets `CI` so. -/
  | noComponent
  deriving DecidableEq, Repr

/-- Why an instruction has no meaning. -/
inductive Refusal where
  /-- Raised by `exec` for an instruction this model gives no meaning; safe: nothing can be proved of what it does. No
  arm of `exec` raises it: every row of opcode_table.json has its meaning. -/
  | notModelled (mnemonic : String)
  deriving DecidableEq, Repr

end Sys2Proof.Machine
end

