-- ==== Sys2Proof/Machine/Ops.lean ====
section
/-! DEFINITION. The named operations over the state: programs of reads and writes that stop at the first `raise`, fault
entry (60_exceptions.md R183), the bound-checked reads of `IN` (20_memory.md R41, R42), the register writes, ContextReset
(10_state.md R28), HT_RELEASE (41_huffman_table.md R105), and the counted loop. -/

namespace Sys2Proof.Machine

/-- The error kinds (60_exceptions.md R180). -/
inductive Kind where
  | none
  | ioFailure
  | truncatedStream
  | malformedTable
  | invalidStart
  | unsupportedMarker
  | unexpectedComponentCount
  | unspecified
  deriving DecidableEq, Repr

/-- The reasons of fatal errors, one per raise site of the spec (60_exceptions.md R181). -/
inductive Reason where
  | startNotSoi
  | inRead
  | scanEnd
  | scanBits
  | dhtKeyRange
  | dhtCountOverrun
  | insertFail
  | scanSelRange
  | lookupNoTable
  | lookupNull
  | markerPrefix
  | dqtPrecision
  | scanCompCount
  | sizeRange
  deriving DecidableEq, Repr

/-- The numeric code of a kind (R180). -/
def kindCode : Kind → BitVec 3
  | .none => 0
  | .ioFailure => 1
  | .truncatedStream => 2
  | .malformedTable => 3
  | .invalidStart => 4
  | .unsupportedMarker => 5
  | .unexpectedComponentCount => 6
  | .unspecified => 7

/-- The numeric code of a reason (R181). -/
def reasonCode : Reason → BitVec 8
  | .startNotSoi => 0x01
  | .inRead => 0x02
  | .scanEnd => 0x03
  | .scanBits => 0x04
  | .dhtKeyRange => 0x05
  | .dhtCountOverrun => 0x06
  | .insertFail => 0x07
  | .scanSelRange => 0x08
  | .lookupNoTable => 0x09
  | .lookupNull => 0x0A
  | .markerPrefix => 0x0B
  | .dqtPrecision => 0x0C
  | .scanCompCount => 0x0D
  | .sizeRange => 0x0E

/-- The kind a reason belongs to (R181). -/
def reasonKind : Reason → Kind
  | .startNotSoi => .invalidStart
  | .inRead => .truncatedStream
  | .scanEnd => .truncatedStream
  | .scanBits => .truncatedStream
  | .dhtKeyRange => .malformedTable
  | .dhtCountOverrun => .malformedTable
  | .insertFail => .malformedTable
  | .scanSelRange => .malformedTable
  | .lookupNoTable => .malformedTable
  | .lookupNull => .malformedTable
  | .markerPrefix => .unspecified
  | .dqtPrecision => .unspecified
  | .scanCompCount => .unspecified
  | .sizeRange => .unspecified

/-- The 2-bit encoding of `STATE` (R14). -/
def runCode : RunState → BitVec 2
  | .idle => 0
  | .run => 1
  | .done => 2
  | .error => 3

/-- Why a program of operations ended before its last operation. -/
inductive Stop where
  /-- A fatal error was raised and fault entry was performed. -/
  | raised
  /-- The model's own fault. -/
  | fault (f : Fault)
  deriving DecidableEq, Repr

/-- A program of operations: it runs on a state and ends with a result and a state, or stops with a state. The state
writes made before a stop stay made (60_exceptions.md R183, R187). -/
abbrev Prog (α : Type) := EStateM Stop State α

/-- A program as a whole step: a raised fatal error is a next state, the one fault entry left. -/
def outcomeOf (p : Prog Unit) (s : State) : Host.Outcome State Fault Refusal :=
  match p.run s with
  | .ok _ t => .next t
  | .error .raised t => .next t
  | .error (.fault f) _ => .fault f

/-- The state a program of operations leaves, whether it ran to its end or stopped. -/
def stateAfter {α : Type} (p : Prog α) (s : State) : State :=
  match p.run s with
  | .ok _ t => t
  | .error _ t => t

/-! ### Register writes -/

/-- `pc <- a` (R8, R12). -/
def setCur (a : Nat) (s : State) : State := { s with cur := BitVec.ofNat 33 a }

/-- `BITOFF <- p` (R13). -/
def setBitOff (p : Nat) (s : State) : State := { s with bitOff := BitVec.ofNat 36 p }

/-- `STATE <- r` (R14). -/
def setRun (r : RunState) (s : State) : State := { s with run := r }

/-- A write to the Decode Context. -/
def setCtx (f : DecodeContext → DecodeContext) (s : State) : State := { s with ctx := f s.ctx }

/-- A write to the working registers. -/
def setWork (f : WorkRegs → WorkRegs) (s : State) : State := { s with work := f s.work }

/-- `BLK[n] <- v` (R26). -/
def setBlk (n : Nat) (v : Coef) (s : State) : State := { s with blk := tabSet s.blk n v }

/-- `emit r`: append a record to `OUT` (R8, R27). -/
def pushOut (r : OutRecord) (s : State) : State := { s with out := s.out ++ [r] }

/-- HT_RELEASE: all four slots invalid, their nodes freed (41_huffman_table.md R105). -/
def releaseTables (s : State) : State := setCtx (fun x => { x with ht := .released }) s

/-- ContextReset (R28): the whole Decode Context to empty/default, nothing else. -/
def contextReset (s : State) : State := { s with ctx := .empty }

/-! ### Fault entry -/

/-- Fault entry, the one exception of this machine (60_exceptions.md R183): what is saved, what is released, the halt.
`CUR` and everything else stay as they are at the raise. -/
def faultEntry (r : Reason) (pos : Nat) (s : State) : State :=
  setRun .error
    (releaseTables
      { s with err := ⟨kindCode (reasonKind r), reasonCode r, s.cur, BitVec.ofNat 36 pos⟩ })

/-- `raise K(reason, pos)`: fault entry at once, and nothing after it executes (R8, R183). -/
def raise {α : Type} (r : Reason) (pos : Nat) : Prog α := do
  modify (faultEntry r pos)
  throw .raised

/-- The model's own stop, at an access to a table entry the spec says does not exist. -/
def stopWith {α : Type} (f : Fault) : Prog α := throw (.fault f)

/-! ### Reads of `IN` -/

/-- The byte `IN[a]`: the one the host loaded, or the free value of a byte it did not load (R11, U2, log entry 1). -/
def inAt (s : State) (a : Nat) : Byte := (memRead s.inBuf a).getD (Config.unloadedIn a)

/-- `InByte(a)` with the reason its calling rule names (R41). -/
def inByte (r : Reason) (a : Nat) : Prog Byte := do
  let s ← get
  if a < s.inLen.toNat then pure (inAt s a) else raise r a

/-- `InU16(a)` (R42): the byte at the lower address is read first and is the more significant. -/
def inU16 (r : Reason) (a : Nat) : Prog Half := do
  let hi ← inByte r a
  let lo ← inByte r (a + 1)
  pure (be16 hi lo)

/-- The bytes of `IN` from `a` on, at most `n` of them and none at or beyond `IN_LEN`: what a fetch can see. -/
def inWindow (s : State) : Nat → Nat → List Byte
  | 0, _ => []
  | n + 1, a => if a < s.inLen.toNat then inAt s a :: inWindow s n (a + 1) else []

/-! ### Program parts -/

/-- `c`: the value of `CUR`. -/
def getCur : Prog Nat := do
  let s ← get
  pure s.cur.toNat

/-- The advance rule (43_segment_scanner.md R149): `pc <- c + 2 + L`. -/
def advance (c : Nat) (len : Half) : Prog Unit := modify (setCur (c + 2 + len.toNat))

/-- `for i in start .. start + n - 1: f i`. -/
def forRange : Nat → Nat → (Nat → Prog Unit) → Prog Unit
  | 0, _, _ => pure ()
  | n + 1, start, f => do
    f start
    forRange n (start + 1) f

end Sys2Proof.Machine
end

