-- ==== Sys2Proof/Machine/Operands.lean ====
section
/-! DEFINITION. The operand forms: nibble pairs and sign decoding (30_encoding.md R73, R74; 42_coefficient_decoder.md
R120), the zig-zag table (00_scope.md R9), the field offsets of the segments (30_encoding.md R64 to R68), the two
parameters, and the selection of a Huffman slot. -/

namespace Sys2Proof.Machine

/-! ### The two named parameters -/

/-- `PRED_MODE`: `DIFF` is normative (R6, R124, 90_conflicts.md C4). -/
def predMode : Config.PredMode := .diff

/-- `SOF_DIM_ORDER`: `HEIGHT_FIRST` (R6, R66, 90_conflicts.md C6). -/
def sofDimOrder : Config.DimOrder := .heightFirst

/-! ### Fields -/

/-- `b[7:4]` (R7, R74). -/
def hiNibble (b : Byte) : BitVec 4 := b.extractLsb' 4 4

/-- `b[3:0]` (R7, R74). -/
def loNibble (b : Byte) : BitVec 4 := b.extractLsb' 0 4

/-- EXTEND (R120): `v` if its most significant of `size` bits is 1, else `v - (2^size - 1)`. -/
def extend (v size : Nat) : Int :=
  if 2 ^ (size - 1) ≤ v then (v : Int) else (v : Int) - (2 ^ size - 1)

/-- The Zig-Zag Index Table `ZZ`: serialized position to natural index (R9). -/
def zzTable : List Nat :=
  [ 0,  1,  8, 16,  9,  2,  3, 10,
   17, 24, 32, 25, 18, 11,  4,  5,
   12, 19, 26, 33, 40, 48, 41, 34,
   27, 20, 13,  6,  7, 14, 21, 28,
   35, 42, 49, 56, 57, 50, 43, 36,
   29, 22, 15, 23, 30, 37, 44, 51,
   58, 59, 52, 45, 38, 31, 39, 46,
   53, 60, 61, 54, 47, 55, 62, 63]

/-- The inverse permutation `ZZINV`: natural index to serialized position (R9). The core never uses it. -/
def zzInvTable : List Nat :=
  [ 0,  1,  5,  6, 14, 15, 27, 28,
    2,  4,  7, 13, 16, 26, 29, 42,
    3,  8, 12, 17, 25, 30, 41, 43,
    9, 11, 18, 24, 31, 40, 44, 53,
   10, 19, 23, 32, 39, 45, 52, 54,
   20, 22, 33, 38, 46, 51, 55, 60,
   21, 34, 37, 47, 50, 56, 59, 61,
   35, 36, 48, 49, 57, 58, 62, 63]

/-- `ZZ[k]` (R9, R126). -/
def zz (k : Nat) : Nat := zzTable.getD k 0

/-- `ZZINV[n]` (R9). -/
def zzInv (n : Nat) : Nat := zzInvTable.getD n 0

/-! ### Segment layouts: offsets from the marker's `FF` byte -/

/-- The offset of the first payload byte of a segment: the header byte of DQT and DHT, `P` of SOF0, `Ns` of SOS (R62,
R65 to R68). -/
def offHeader : Nat := 4

/-- APP0: version major, minor, density units, X density, Y density (R64). -/
def offVersionMajor : Nat := 9
def offVersionMinor : Nat := 10
def offDensityUnits : Nat := 11
def offXDensity : Nat := 12
def offYDensity : Nat := 14

/-- DQT: entry `k` of 1 byte, and of 2 bytes (R65). -/
def offQuant8 (k : Nat) : Nat := 5 + k
def offQuant16 (k : Nat) : Nat := 5 + 2 * k

/-- SOF0: the first and the second dimension field, the component count, the three bytes of triple `i` (R66). -/
def offDim1 : Nat := 5
def offDim2 : Nat := 7
def offCompCount : Nat := 9
def offCompId (i : Nat) : Nat := 10 + 3 * i
def offCompHV (i : Nat) : Nat := 11 + 3 * i
def offCompTq (i : Nat) : Nat := 12 + 3 * i

/-- DHT: the count of codes of length `len`, and the first symbol (R67). -/
def offCount (len : Nat) : Nat := 4 + len
def offSymbols : Nat := 21

/-- SOS: the component selector and the table selectors of scan entry `i` (R68). -/
def offScanComp (i : Nat) : Nat := 5 + 2 * i
def offScanSel (i : Nat) : Nat := 6 + 2 * i

/-! ### Huffman slots -/

/-- `HT[class][sel]` (R21). -/
def slotOf (ht : HuffTables) (cls : TabClass) (sel : BitVec 1) : Slot :=
  match cls with
  | .dc => if sel = 0 then ht.dc0 else ht.dc1
  | .ac => if sel = 0 then ht.ac0 else ht.ac1

/-- `HT[class][sel] <- slot`. -/
def withSlot (ht : HuffTables) (cls : TabClass) (sel : BitVec 1) (slot : Slot) : HuffTables :=
  match cls with
  | .dc => if sel = 0 then { ht with dc0 := slot } else { ht with dc1 := slot }
  | .ac => if sel = 0 then { ht with ac0 := slot } else { ht with ac1 := slot }

/-- A write to one slot of the state. -/
def setSlot (cls : TabClass) (sel : BitVec 1) (slot : Slot) (s : State) : State :=
  setCtx (fun x => { x with ht := withSlot x.ht cls sel slot }) s

/-- The class a DHT header nibble names: 0 = DC, 1 = AC (R67, R74). -/
def classOf (tc : BitVec 4) : TabClass := if tc = 0 then .dc else .ac

/-- The selector a nibble in {0, 1} names (R67, R68). -/
def selOf (th : BitVec 4) : BitVec 1 := th.extractLsb' 0 1

/-- The component the block iteration is at, `CI`, as an index of the tables of `MAX_COMP` entries (R18, R23, R24). -/
def component : Prog Nat := do
  let s ← get
  if s.work.ci.toNat < Config.maxComp then pure s.work.ci.toNat else stopWith .noComponent

/-- The predictor after a block (R124): the difference under `DIFF`, the DC coefficient under `ABS`. -/
def nextPred (mode : Config.PredMode) (diff dc : Coef) : Coef :=
  match mode with
  | .diff => diff
  | .abs => dc

end Sys2Proof.Machine
end

