-- ==== Sys2Proof/Machine/Flags.lean ====
section
/-! DEFINITION. The flags of the machine, which are its two sticky warning flags (10_state.md R15), and the warnings that
set them (60_exceptions.md R186). -/

namespace Sys2Proof.Machine

/-- The warning UnsupportedMarker: `W_UNSUP <- 1` and the record `Warn(5, c, m1, L)` (R148, R186). -/
def warnUnsup (code : Byte) (len : Half) (s : State) : State :=
  pushOut (.warn (kindCode .unsupportedMarker) s.cur code len) { s with wUnsup := true }

/-- Whether SOF0 warns of a component count: it is neither 1 nor 3 (R145). -/
def oddCompCount (nf : Byte) : Bool := nf != 1 && nf != 3

/-- The warning UnexpectedComponentCount: `W_NCOMP <- 1` and the record `Warn(6, c, Nf, 0)` (R145, R186). -/
def warnNcomp (nf : Byte) (s : State) : State :=
  pushOut (.warn (kindCode .unexpectedComponentCount) s.cur nf 0) { s with wNcomp := true }

end Sys2Proof.Machine
end

