-- ==== Sys2Proof/Machine/Bitstream.lean ====
section
/-! DEFINITION. The Bitstream Reader and the byte-stuffing stripper (40_bitstream_reader.md): READ_BITS, DESTUFF, and
the meaning of the stuffed pair STUFF. -/

namespace Sys2Proof.Machine

/-- The byte `SCAN[i]`: the one DESTUFF wrote, or the free value of an index it never wrote (R25, U3, log entry 2). -/
def scanAt (s : State) (i : Nat) : Byte := (memRead s.scan i).getD (Config.unwrittenScan i)

/-- Bit position `p` of `SCAN`: bit `7 - (p mod 8)` of `SCAN[p div 8]` (R7, R43). -/
def scanBit (s : State) (p : Nat) : Bool := (scanAt s (p / 8)).getLsbD (7 - p % 8)

/-- `ACC` after `n` more bits from position `p` on: `ACC <- 2*ACC + bit`, `n` times (R90). -/
def accumulate (s : State) : Nat → Nat → BitVec 16 → BitVec 16
  | 0, _, acc => acc
  | n + 1, p, acc => accumulate s n (p + 1) (2 * acc + (BitVec.ofBool (scanBit s p)).setWidth 16)

/-- READ_BITS (R90): the bound check is made for the whole field, then the field is assembled in `ACC`, most significant
bit first; `BITOFF` and `SCAN` are unchanged. -/
def readBits (count : Nat) : Prog Nat := do
  let s ← get
  if s.bitOff.toNat + count > 8 * s.scanLen.toNat then raise .scanBits s.bitOff.toNat
  else do
    let acc := accumulate s count s.bitOff.toNat 0
    modify (setWork fun w => { w with acc := acc })
    pure acc.toNat

/-- `BITOFF <- BITOFF + n` (R93). -/
def advanceBits (n : Nat) : Prog Unit := modify fun s => setBitOff (s.bitOff.toNat + n) s

/-- `ReadBits(n)`: READ_BITS, then the cursor advance (R93). -/
def takeBits (n : Nat) : Prog Nat := do
  let v ← readBits n
  advanceBits n
  pure v

/-- `SCAN[n] <- b; n <- n + 1; p <- p + step`: a step of the DESTUFF loop (R91). -/
def storeScan (b : Byte) (step : Nat) (s : State) : State :=
  setWork (fun w => { w with regionLen := w.regionLen + 1, regionPos := w.regionPos + step })
    { s with scan := memWrite s.scan s.work.regionLen b }

/-- The effect of the stuffed pair: the data byte `FF` is stored, the `00` is dropped (R70, R91). -/
def stuffBody : Prog Unit := modify (storeScan 0xFF 2)

/-- STUFF, the stuffed pair at the region cursor (R91). -/
def execStuff (s : State) : Host.Outcome State Fault Refusal := outcomeOf stuffBody s

/-- The DESTUFF loop (R91). Its first argument bounds the bytes left before `IN_LEN`: the cursor advances by at least 1
each time round, so at 0 the read at the cursor is out of bounds and raises as `InByte` does. -/
def destuffLoop : Nat → Prog Unit
  | 0 => do
    let s ← get
    raise .scanEnd s.work.regionPos
  | fuel + 1 => do
    let s ← get
    match decodeRegion (inWindow s 2 s.work.regionPos) with
    | .error e => raise .scanEnd (s.work.regionPos + e.offset)
    | .ok (.data b, _) =>
      modify (storeScan b 1)
      destuffLoop fuel
    | .ok (.instr _, _) =>
      stuffBody
      destuffLoop fuel
    | .ok (.stop, _) => pure ()

/-- DESTUFF (R91): `SCAN` and `SCAN_LEN` from the region at `e0`; the result is `E1`, the address of the `FF` byte that
ends the region. `SCAN_LEN` is written only when the end is found. -/
def destuff (e0 : Nat) : Prog Nat := do
  modify (setWork fun w => { w with regionPos := e0, regionLen := 0 })
  let s ← get
  destuffLoop (s.inLen.toNat - e0)
  modify fun s => { s with scanLen := BitVec.ofNat 32 s.work.regionLen }
  let s ← get
  pure s.work.regionPos

end Sys2Proof.Machine
end

