-- ==== Sys2Proof/Machine/Huffman.lean ====
section
/-! DEFINITION. The Canonical Huffman Table (41_huffman_table.md): HT_CLEAR, HT_INSERT, HT_BUILD, HT_LOOKUP.
HT_RELEASE is `releaseTables` of Ops. -/

namespace Sys2Proof.Machine

/-- The tree HT_CLEAR leaves: the root, an internal node at depth 0 with two null children (R100). -/
def clearedTree : Tree := .node .null .null

/-- TRY of HT_INSERT (R101), its depth counted down: `rem` is `code_length - depth`. `none` is the result false, and a
failed branch changes nothing. -/
def tryInsert (symbol : Byte) : Nat → Tree → Option Tree
  | 0, .null => some (.leaf symbol)
  | rem + 1, .null =>
    match tryInsert symbol rem .null with
    | some l => some (.node l .null)
    | none => (tryInsert symbol rem .null).map (.node .null ·)
  | _, .leaf _ => none
  | 0, .node _ _ => none
  | rem + 1, .node l r =>
    match tryInsert symbol rem l with
    | some l' => some (.node l' r)
    | none => (tryInsert symbol rem r).map (.node l ·)

/-- HT_CLEAR (R100): the tree becomes the bare root; `VALID` is not changed. -/
def htClear (cls : TabClass) (sel : BitVec 1) (s : State) : State :=
  setSlot cls sel ⟨(slotOf s.ctx.ht cls sel).valid, clearedTree⟩ s

/-- `HT[class][sel].VALID <- v`. -/
def htSetValid (cls : TabClass) (sel : BitVec 1) (v : Bool) (s : State) : State :=
  setSlot cls sel ⟨v, (slotOf s.ctx.ht cls sel).tree⟩ s

/-- HT_INSERT (R101): the state's tree changes only when the result is true. -/
def htInsert (cls : TabClass) (sel : BitVec 1) (len : Nat) (symbol : Byte) : Prog Bool := do
  let s ← get
  let slot := slotOf s.ctx.ht cls sel
  match tryInsert symbol len slot.tree with
  | some t =>
    modify (setSlot cls sel ⟨slot.valid, t⟩)
    pure true
  | none => pure false

/-- The inner loop of HT_BUILD: `n` symbols of length `len`, the first at `p`; the result is the address after the last
(R102). Each symbol is read before its insertion is tried (R185 (d)). -/
def insertSymbols (cls : TabClass) (sel : BitVec 1) (len : Nat) : Nat → Nat → Prog Nat
  | 0, p => pure p
  | n + 1, p => do
    let symbol ← inByte .inRead p
    let placed ← htInsert cls sel len symbol
    if placed then insertSymbols cls sel len n (p + 1) else raise .insertFail p

/-- The outer loop of HT_BUILD: the counts from length `len` on, ascending (R102, R223). -/
def insertLengths (cls : TabClass) (sel : BitVec 1) : Nat → List Nat → Nat → Prog Unit
  | _, [], _ => pure ()
  | len, n :: counts, p => do
    let p' ← insertSymbols cls sel len n p
    insertLengths cls sel (len + 1) counts p'

/-- HT_BUILD (R102). -/
def htBuild (cls : TabClass) (sel : BitVec 1) (counts : List Nat) (p0 : Nat) : Prog Unit := do
  modify (htSetValid cls sel false)
  modify (htClear cls sel)
  insertLengths cls sel 1 counts p0
  modify (htSetValid cls sel true)

/-- The loop of HT_LOOKUP from a node on (R103): a bit is read and counted before the child is followed. -/
def lookupFrom : Tree → Prog Byte
  | .null => do
    let s ← get
    raise .lookupNull s.bitOff.toNat
  | .leaf symbol => pure symbol
  | .node l r => do
    let b ← takeBits 1
    if b = 0 then lookupFrom l else lookupFrom r

/-- HT_LOOKUP (R103): `VALID` is tested before any bit is read (R185 (f)). -/
def htLookup (cls : TabClass) (sel : BitVec 1) : Prog Byte := do
  let s ← get
  let slot := slotOf s.ctx.ht cls sel
  if slot.valid then lookupFrom slot.tree else raise .lookupNoTable s.bitOff.toNat

end Sys2Proof.Machine
end

