-- ==== Sys2Proof/Machine/Headers.lean ====
section
/-! DEFINITION. The meanings of the header segments (43_segment_scanner.md R143 to R146): APP0, DQT, SOF0, DHT. Every
payload byte is read, and bound-checked, at the moment the spec reads it, so a fault leaves the writes before it. -/

namespace Sys2Proof.Machine

/-- The effect of APP0 (R143). -/
def app0Body (len : Half) : Prog Unit := do
  let c ← getCur
  modify contextReset
  let major ← inByte .inRead (c + offVersionMajor)
  let minor ← inByte .inRead (c + offVersionMinor)
  modify (setCtx fun x => { x with jfifVer := be16 major minor })
  let units ← inByte .inRead (c + offDensityUnits)
  modify (setCtx fun x => { x with densUnits := units })
  let xd ← inU16 .inRead (c + offXDensity)
  modify (setCtx fun x => { x with xdens := xd })
  let yd ← inU16 .inRead (c + offYDensity)
  modify (setCtx fun x => { x with ydens := yd })
  advance c len

/-- APP0 (R143). -/
def execApp0 (len : Half) (s : State) : Host.Outcome State Fault Refusal := outcomeOf (app0Body len) s

/-- Entry `k` of a quantization table in the segment at `c`, by its precision nibble (R65, R144). -/
def quantEntry (pq : BitVec 4) (c k : Nat) : Prog Half :=
  if pq = 0 then do
    let q ← inByte .inRead (c + offQuant8 k)
    pure (q.setWidth 16)
  else inU16 .inRead (c + offQuant16 k)

/-- `LQT[n] <- q` if the table selector is 0, else `CQT[n] <- q` (R144). -/
def setQuant (tq : BitVec 4) (n : Nat) (q : Half) (s : State) : State :=
  if tq = 0 then setCtx (fun x => { x with lqt := tabSet x.lqt n q }) s
  else setCtx (fun x => { x with cqt := tabSet x.cqt n q }) s

/-- The effect of DQT (R144): entry `k` goes to natural index `ZZ[k]` (R126). -/
def dqtBody (len : Half) : Prog Unit := do
  let c ← getCur
  let b ← inByte .inRead (c + offHeader)
  if 1 < hiNibble b then raise .dqtPrecision (c + offHeader)
  else do
    forRange 64 0 fun k => do
      let q ← quantEntry (hiNibble b) c k
      modify (setQuant (loNibble b) (zz k) q)
    advance c len

/-- DQT (R144). -/
def execDqt (len : Half) (s : State) : Host.Outcome State Fault Refusal := outcomeOf (dqtBody len) s

/-- `HEIGHT <- h` or `WIDTH <- w`: the write of the first (`first` true) or second dimension field, by `SOF_DIM_ORDER`
(R66, R145). -/
def setDim (order : Config.DimOrder) (first : Bool) (v : Half) (s : State) : State :=
  match order, first with
  | .heightFirst, true => setCtx (fun x => { x with height := v }) s
  | .heightFirst, false => setCtx (fun x => { x with width := v }) s
  | .widthFirst, true => setCtx (fun x => { x with width := v }) s
  | .widthFirst, false => setCtx (fun x => { x with height := v }) s

/-- The component triple `i` of a SOF0 at `c`, stored at `COMP[i]`; its identifier is read and dropped (R145). -/
def storeComponent (c i : Nat) : Prog Unit := do
  let _id ← inByte .inRead (c + offCompId i)
  let hv ← inByte .inRead (c + offCompHV i)
  let tq ← inByte .inRead (c + offCompTq i)
  modify (setCtx fun x => { x with comp := tabSet x.comp i ⟨tq, loNibble hv, hiNibble hv⟩ })

/-- `for i in nf .. MAX_COMP-1: COMP[i] <- (0, 0, 0)` (R145). -/
def clearComponentsFrom (nf : Nat) : Prog Unit :=
  modify (setCtx fun x => { x with comp := tabFillFrom x.comp nf ⟨0, 0, 0⟩ })

/-- The warning of a component count that is neither 1 nor 3 (R145). -/
def warnOddCount (nf : Byte) : Prog Unit := if oddCompCount nf then modify (warnNcomp nf) else pure ()

/-- The effect of SOF0 (R145). -/
def sof0Body (len : Half) : Prog Unit := do
  let c ← getCur
  let p ← inByte .inRead (c + offHeader)
  modify (setCtx fun x => { x with bps := p })
  let d1 ← inU16 .inRead (c + offDim1)
  modify (setDim sofDimOrder true d1)
  let d2 ← inU16 .inRead (c + offDim2)
  modify (setDim sofDimOrder false d2)
  let nf ← inByte .inRead (c + offCompCount)
  warnOddCount nf
  forRange nf.toNat 0 (storeComponent c)
  clearComponentsFrom nf.toNat
  modify (setCtx fun x => { x with ncomp := nf })
  advance c len

/-- SOF0 (R145). -/
def execSof0 (len : Half) (s : State) : Host.Outcome State Fault Refusal := outcomeOf (sof0Body len) s

/-- The counts `N[len]` of `n` lengths from `len` on, from the DHT at `c` (R67, R146). -/
def readCounts (c : Nat) : Nat → Nat → Prog (List Nat)
  | 0, _ => pure []
  | n + 1, len => do
    let k ← inByte .inRead (c + offCount len)
    let ks ← readCounts c n (len + 1)
    pure (k.toNat :: ks)

/-- The effect of DHT (R146): the key is tested, the counts are read, the overrun is tested, then the table is built
(R185 (d)). -/
def dhtBody (len : Half) : Prog Unit := do
  let c ← getCur
  let h ← inByte .inRead (c + offHeader)
  if 1 < hiNibble h ∨ 1 < loNibble h then raise .dhtKeyRange (c + offHeader)
  else do
    let counts ← readCounts c 16 1
    if 19 + counts.sum > len.toNat then raise .dhtCountOverrun (c + 2)
    else do
      htBuild (classOf (hiNibble h)) (selOf (loNibble h)) counts (c + offSymbols)
      advance c len

/-- DHT (R146). -/
def execDht (len : Half) (s : State) : Host.Outcome State Fault Refusal := outcomeOf (dhtBody len) s

end Sys2Proof.Machine
end

