-- ==== Sys2Proof/Machine/Control.lean ====
section
/-! DEFINITION. What happens around the segment instructions: the host command START (43_segment_scanner.md R140), FETCH
(R141), what a step does in each run state (R151, R184, R191), and the moves of the host (10_state.md R31;
70_reset_and_hazards.md R221). -/

namespace Sys2Proof.Machine

/-- What START clears before it looks at the stream (R140, D45). -/
def startClear (s : State) : State :=
  contextReset
    { s with err := .clear, wUnsup := false, wNcomp := false, out := [], scanLen := 0, bitOff := 0 }

/-- Whether the first marker pair is SOI (R140): two bytes are there and they are `FF D8`. -/
def startsWithSoi (s : State) : Bool :=
  decide (2 ≤ s.inLen.toNat) && inAt s 0 == 0xFF && inAt s 1 == 0xD8

/-- START (R140): a fresh decode, whose first SOI is executed here. -/
def startBody : Prog Unit := do
  modify startClear
  modify (setCur 0)
  modify (setRun .run)
  let s ← get
  if startsWithSoi s then modify (setCur 2) else raise .startNotSoi 0

/-- The core takes the START command off the control register (R140): ignored while `STATE` is `RUN`. -/
def takeStart (s : State) : State :=
  if s.run = .run then { s with startReq := false } else stateAfter startBody { s with startReq := false }

/-- FETCH (R141): the instruction at `CUR`; a missing byte of the marker pair or of the length field raises
TruncatedStream/InRead at its address. -/
def fetch : Prog Instr := do
  let s ← get
  match decode (inWindow s 4 s.cur.toNat) with
  | .ok (i, _) => pure i
  | .error e => raise .inRead (s.cur.toNat + e.offset)

/-- What a step does before any instruction executes. -/
inductive Act where
  /-- No instruction executes: the step ends in this state. -/
  | settle (t : State)
  /-- This instruction was fetched. -/
  | execute (i : Instr)
  deriving DecidableEq, Repr

/-- A step (R141, R151): a START command is taken first; a core in `RUN` fetches; a halted core does nothing (R184,
R191, R220). -/
def nextAct (s : State) : Act :=
  if s.startReq then .settle (takeStart s)
  else
    match s.run with
    | .run =>
      match fetch.run s with
      | .ok i _ => .execute i
      | .error _ t => .settle t
    | .idle => .settle s
    | .done => .settle s
    | .error => .settle s

/-- The moves from outside the core: the host writes a byte of `IN`, writes `IN_LEN`, issues START (R31, R221); and the
power-on reset (R220). -/
inductive HostMove where
  | writeIn (a : Nat) (b : Byte)
  | writeLen (n : Length)
  | start
  | powerOn
  deriving DecidableEq, Repr

/-- Whether the host is excluded: from the issue of START to the halt (R48, R221). `STATE` is `RUN`, or a START was
issued that the next step takes (log entry 4). -/
def hostExcluded (s : State) : Bool := s.startReq || s.run == .run

/-- What a poll of `STATE` shows the host (R188, R221): `RUN` from the issue of START on (log entry 4). -/
def polledState (s : State) : RunState := if s.startReq then .run else s.run

/-- What the host can read: everything in a halted core, nothing between the issue of START and the halt (R31, R48). -/
def hostReads (s : State) : Option State := if hostExcluded s then none else some s

/-- What a move of the host does; none where the model gives the host no move: a write to `IN` or `IN_LEN` between the
issue of START and the halt (R31, R48, R221, U1), and a write beyond the capacity of `IN` (R221, U24). A START issued
then is ignored (R140). The power-on reset is taken in every run state (R184, R220; log entry 17). That START is
issued by a move and taken by the next step is the model's choice (log entry 4). -/
def hostMove (m : HostMove) (s : State) : Option State :=
  match m with
  | .writeIn a b =>
    if hostExcluded s ∨ Config.inCapacity ≤ a then none else some { s with inBuf := memWrite s.inBuf a b }
  | .writeLen n => if hostExcluded s then none else some { s with inLen := n }
  | .start => if hostExcluded s then some s else some { s with startReq := true }
  | .powerOn => some State.reset

/-- The bytes placed at the address the next FETCH reads, and the state made ready for that FETCH: `STATE` is `RUN`, no
START is pending, and `IN_LEN` covers the bytes. `CUR` stays where it is if the bytes fit below the capacity of `IN`
there, else it is 0. -/
def placeForFetch (s : State) (bytes : List Byte) : State :=
  let c := if s.cur.toNat + bytes.length ≤ Config.inCapacity then s.cur.toNat else 0
  { s with
    inBuf := memLoad s.inBuf c bytes
    inLen := BitVec.ofNat 32 (max s.inLen.toNat (c + bytes.length))
    cur := BitVec.ofNat 33 c
    run := .run
    startReq := false }

end Sys2Proof.Machine
end

