-- ==== Sys2Proof/Machine/Markers.lean ====
section
/-! DEFINITION. The meanings of the markers without a parsed payload (43_segment_scanner.md): SOI, EOI, UNSUP, and
BADPREFIX, the illegal marker position. -/

namespace Sys2Proof.Machine

/-- The effect of SOI at a position other than 0 (R142): `pc <- c + 2`, nothing else. -/
def soiBody : Prog Unit := do
  let c ← getCur
  modify (setCur (c + 2))

/-- SOI (R142). -/
def execSoi (s : State) : Host.Outcome State Fault Refusal := outcomeOf soiBody s

/-- The effect of EOI (R147). -/
def eoiBody : Prog Unit := do
  let c ← getCur
  modify releaseTables
  modify (setCur (c + 2))
  modify (setRun .done)

/-- EOI (R147). -/
def execEoi (s : State) : Host.Outcome State Fault Refusal := outcomeOf eoiBody s

/-- The effect of UNSUP (R148, R149). -/
def unsupBody (code : Byte) (len : Half) : Prog Unit := do
  let c ← getCur
  modify (warnUnsup code len)
  advance c len

/-- UNSUP (R148). -/
def execUnsup (code : Byte) (len : Half) (s : State) : Host.Outcome State Fault Refusal :=
  outcomeOf (unsupBody code len) s

/-- The effect of a marker position whose byte is not `FF`: the fatal error MarkerPrefix at `c` (R141). -/
def badPrefixBody : Prog Unit := do
  let c ← getCur
  raise .markerPrefix c

/-- BADPREFIX (R141). -/
def execBadPrefix (_b0 _b1 : Byte) (s : State) : Host.Outcome State Fault Refusal := outcomeOf badPrefixBody s

end Sys2Proof.Machine
end

