-- ==== Sys2Proof/Machine/Coefficient.lean ====
section
/-! DEFINITION. The DC/AC Value Decoder (42_coefficient_decoder.md): the meanings of DC_ELEM, AC_ELEM and EOB, and
DECODE_DC, DECODE_AC, DECODE_BLOCK over them. The code of an element is its opcode: HT_LOOKUP fetches and decodes it,
which leaves `BITOFF` after the code, and the meaning does the rest. -/

namespace Sys2Proof.Machine

/-- The value of an element whose symbol is `size` (R121, R122): 0 without magnitude bits; a fatal SizeRange above
`MAX_SIZE`, before any magnitude bit is read (R185 (g)); else EXTEND of the next `size` bits. -/
def elementValue (size : Byte) : Prog Coef :=
  if size = 0 then pure 0
  else if size.toNat > Config.maxSize then do
    let s ← get
    raise .sizeRange s.bitOff.toNat
  else do
    let v ← takeBits size.toNat
    pure (BitVec.ofInt 32 (extend v size.toNat))

/-- The effect of a DC element of component `CI` (R121, R124): the coefficient is the predictor plus the difference, the
predictor becomes the difference. -/
def dcBody (size : Byte) : Prog Unit := do
  modify (setWork fun w => { w with size := size })
  let c ← component
  let diff ← elementValue size
  modify fun s =>
    let dc := (tabGet s.ctx.pred c).getD 0 + diff
    setCtx (fun x => { x with pred := tabSet x.pred c (nextPred predMode diff dc) }) (setBlk (zz 0) dc s)

/-- The effect of an AC element at position `K` (R122, R126): its value is stored at the natural index `ZZ[K]`. -/
def acBody (size : Byte) : Prog Unit := do
  modify (setWork fun w => { w with size := size })
  let v ← elementValue size
  modify fun s => setBlk (zz s.work.k.toNat) v s

/-- The effect of EOB (R122): the symbol 0 is in `SIZE`, positions `K..63` keep the 0 they were cleared to. -/
def eobBody : Prog Unit := modify (setWork fun w => { w with size := 0 })

/-- DC_ELEM (R121). -/
def execDcElem (size : Byte) (s : State) : Host.Outcome State Fault Refusal := outcomeOf (dcBody size) s

/-- AC_ELEM (R122). -/
def execAcElem (size : Byte) (s : State) : Host.Outcome State Fault Refusal := outcomeOf (acBody size) s

/-- EOB (R122). -/
def execEob (s : State) : Host.Outcome State Fault Refusal := outcomeOf eobBody s

/-- `SEL[c].DCSEL` or `SEL[c].ACSEL` of component `CI` (R23). -/
def selectorOf (cls : TabClass) : Prog (BitVec 1) := do
  let c ← component
  let s ← get
  let sel := (tabGet s.ctx.sel c).getD ⟨0, 0⟩
  pure (match cls with | .dc => sel.dc | .ac => sel.ac)

/-- The fetch of an element: HT_LOOKUP in the table component `CI` selects (R103, R121, R122). -/
def fetchElement (cls : TabClass) : Prog Byte := do
  let sel ← selectorOf cls
  htLookup cls sel

/-- DECODE_DC (R121). -/
def decodeDc : Prog Unit := do
  let size ← fetchElement .dc
  dcBody size

/-- The loop of DECODE_AC over `n` serialized positions from `k` on (R122): symbol 0 ends it. -/
def decodeAcFrom : Nat → Nat → Prog Unit
  | 0, _ => pure ()
  | n + 1, k => do
    modify (setWork fun w => { w with k := BitVec.ofNat 6 k })
    let size ← fetchElement .ac
    if size = 0 then eobBody
    else do
      acBody size
      decodeAcFrom n (k + 1)

/-- DECODE_AC (R122): positions 1 to 63. -/
def decodeAc : Prog Unit := decodeAcFrom 63 1

/-- DECODE_BLOCK of component `CI` (R123). -/
def decodeBlock : Prog Unit := do
  modify fun s => { s with blk := tabFill _ 0 }
  decodeDc
  decodeAc

end Sys2Proof.Machine
end

