-- ==== Sys2Proof/Machine/Scan.lean ====
section
/-! DEFINITION. The meaning of SOS (44_scan_sos.md): scan header, region, block iteration, emission, cursor update. -/

namespace Sys2Proof.Machine

/-- Scan entry `i` of the SOS at `c` (R170): its component selector is read and ignored, its table selectors are tested
and stored. -/
def scanEntry (c i : Nat) : Prog Unit := do
  let _cs ← inByte .inRead (c + offScanComp i)
  let t ← inByte .inRead (c + offScanSel i)
  if 1 < hiNibble t ∨ 1 < loNibble t then raise .scanSelRange (c + offScanSel i)
  else modify (setCtx fun x => { x with sel := tabSet x.sel i ⟨selOf (hiNibble t), selOf (loNibble t)⟩ })

/-- SOS_HEADER (R170). -/
def sosHeader (c : Nat) : Prog Unit := do
  let ns ← inByte .inRead (c + offHeader)
  let s ← get
  if ns ≠ s.ctx.ncomp then raise .scanCompCount (c + offHeader)
  else forRange ns.toNat 0 (scanEntry c)

/-- `PRED[i] <- 0` (R171). -/
def seedPred (i : Nat) : Prog Unit := modify (setCtx fun x => { x with pred := tabSet x.pred i 0 })

/-- SOS_REGION (R171): the region at `c + 2 + L`; the result is `E1`. -/
def sosRegion (c : Nat) (len : Half) : Prog Nat := do
  let e1 ← destuff (c + 2 + len.toNat)
  modify (setBitOff 0)
  let s ← get
  forRange s.ctx.ncomp.toNat 0 seedPred
  pure e1

/-- `emit Block(CI, BX, BY, BLK[0..63])` (R174). -/
def emitBlock (s : State) : State := pushOut (.block s.work.ci s.work.bx s.work.row s.blk) s

/-- One component of one grid position (R172): DECODE_BLOCK, then the emission. -/
def blockOf (ci : Nat) : Prog Unit := do
  modify (setWork fun w => { w with ci := BitVec.ofNat 8 ci })
  decodeBlock
  modify emitBlock

/-- The components of grid column `bx` of the current row (R172). -/
def blockColumn (ncomp bx : Nat) : Prog Unit := do
  modify (setWork fun w => { w with bx := BitVec.ofNat 13 bx })
  forRange ncomp 0 blockOf

/-- The columns of grid row `y` (R172). -/
def blockRow (ncomp bw y : Nat) : Prog Unit := do
  modify (setWork fun w => { w with row := BitVec.ofNat 13 y })
  forRange bw 0 (blockColumn ncomp)

/-- SOS_BLOCKS (R172): block rows, then block columns, then components. -/
def sosBlocks : Prog Unit := do
  let s ← get
  forRange (s.ctx.height.toNat / 8) 0 (blockRow s.ctx.ncomp.toNat (s.ctx.width.toNat / 8))

/-- The effect of SOS (R175): header, region, blocks, then `pc <- E1` (R173). -/
def sosBody (len : Half) : Prog Unit := do
  let c ← getCur
  sosHeader c
  let e1 ← sosRegion c len
  sosBlocks
  modify (setCur e1)

/-- SOS (R170 to R175). -/
def execSos (len : Half) (s : State) : Host.Outcome State Fault Refusal := outcomeOf (sosBody len) s

end Sys2Proof.Machine
end

