-- ==== Sys2Proof/Machine/Dispatch.lean ====
section
/-! DEFINITION. The dispatch (43_segment_scanner.md R141; 30_encoding.md R77): one meaning per row of
opcode_table.json. -/

namespace Sys2Proof.Machine

def exec (i : Instr) (s : State) : Host.Outcome State Fault Refusal :=
  match i with
  | .soi => Sys2Proof.Machine.execSoi s
  | .app0 len => Sys2Proof.Machine.execApp0 len s
  | .dqt len => Sys2Proof.Machine.execDqt len s
  | .sof0 len => Sys2Proof.Machine.execSof0 len s
  | .dht len => Sys2Proof.Machine.execDht len s
  | .sos len => Sys2Proof.Machine.execSos len s
  | .eoi => Sys2Proof.Machine.execEoi s
  | .unsup code len => Sys2Proof.Machine.execUnsup code len s
  | .badPrefix b0 b1 => Sys2Proof.Machine.execBadPrefix b0 b1 s
  | .stuff => Sys2Proof.Machine.execStuff s
  | .dcElem size => Sys2Proof.Machine.execDcElem size s
  | .acElem size => Sys2Proof.Machine.execAcElem size s
  | .eob => Sys2Proof.Machine.execEob s

end Sys2Proof.Machine
end

