-- ==== Sys2Proof/Machine/Step.lean ====
section
/-! DEFINITION. One step of the core (43_segment_scanner.md R151): one FETCH with the segment instruction it
dispatches, or a START taken, or nothing in a halted core. -/

namespace Sys2Proof.Machine

/-- One step. -/
def step (s : State) : Host.Outcome State Fault Refusal :=
  match nextAct s with
  | .settle t => .next t
  | .execute i => exec i s

/-- The state in which the next step fetches and runs the instruction whose bits are `w`. -/
def State.withFetchWord (s : State) (nbits w : Nat) : State := placeForFetch s (tableBytes nbits w)

end Sys2Proof.Machine
end

