-- ==== Sys2Proof/Safety.lean ====
section
/-! DEFINITION. The terms claims are stated in: what holds of every state a run can reach (10_state.md R12, R13, R22,
R25; 42_coefficient_decoder.md R125; 60_exceptions.md R180, R183), and clear reference readings of the micro-operations,
over lists of bits and bytes, that the machine's operations are held to. -/

namespace Sys2Proof.Machine

/-! ### Invariants -/

/-- Both byte memories are in the canonical form that the model gives them (log entry 12). -/
def MemForm (s : State) : Prop := memWf s.inBuf ∧ memWf s.scan

/-- A subtree at a place with `room` levels left above depth 16 has the shape of R22: leaves no deeper than 16, every
internal node with a child, and none with a right child only. -/
def innerShaped : Nat → Tree → Prop
  | _, .null => True
  | _, .leaf _ => True
  | 0, .node _ _ => False
  | room + 1, .node l r => l ≠ .null ∧ innerShaped room l ∧ innerShaped room r

/-- The tree of a built table (R22): the root is an internal node at depth 0, bare only when the table is empty, and
every leaf is at depth 1 to 16. -/
def TreeShaped : Tree → Prop
  | .null => False
  | .leaf _ => False
  | .node l r => (r ≠ .null → l ≠ .null) ∧ innerShaped 15 l ∧ innerShaped 15 r

/-- Every valid slot holds a tree of that shape. -/
def TablesShaped (s : State) : Prop :=
  ∀ cls sel, (slotOf s.ctx.ht cls sel).valid = true → TreeShaped (slotOf s.ctx.ht cls sel).tree

/-- The byte cursor stays below `2^32 + 65536` (R12). -/
def CursorBound (s : State) : Prop := s.cur.toNat < 2 ^ 32 + 65536

/-- The scan buffer is no longer than `IN`, and the bit cursor stays inside it (R13, R25). -/
def ScanBound (s : State) : Prop := s.scanLen.toNat ≤ s.inLen.toNat ∧ s.bitOff.toNat ≤ 8 * s.scanLen.toNat

/-- Every predictor is a decoded difference: its magnitude is at most 65535 (R125). -/
def PredBound (s : State) : Prop :=
  ∀ c v, tabGet s.ctx.pred c = some v → -65535 ≤ v.toInt ∧ v.toInt ≤ 65535

/-- `ERR_KIND` is None or a fatal kind the core raises, `ERR_REASON` a reason of R181, both are 0 exactly outside
`ERROR`, and there `ERR_ADDR` and `ERR_POS` are 0 as well (R16, R180, R181, R183, U22). -/
def ErrLegal (s : State) : Prop :=
  (s.err.kind = 0 ∨ s.err.kind = 2 ∨ s.err.kind = 3 ∨ s.err.kind = 4 ∨ s.err.kind = 7) ∧
  s.err.reason.toNat ≤ 0x0E ∧ (s.run = .error ↔ s.err.kind ≠ 0) ∧ (s.err.kind = 0 ↔ s.err.reason = 0) ∧
  (s.err.kind = 0 → s.err.addr = 0 ∧ s.err.pos = 0)

/-- A core that is not running holds no valid Huffman table (R105, R183, R222). -/
def HaltReleased (s : State) : Prop := s.run ≠ .run → ∀ cls sel, (slotOf s.ctx.ht cls sel).valid = false

/-- The error state that `raise K(reason, pos)` leaves, with the numbers of R180 and R181 written out (R183); the
four released slots are absent (log entry 11). -/
def errorState (kind : BitVec 3) (reason : BitVec 8) (pos : Nat) (s : State) : State :=
  { s with
    err := ⟨kind, reason, s.cur, BitVec.ofNat 36 pos⟩
    ctx := { s.ctx with ht := ⟨⟨false, .null⟩, ⟨false, .null⟩, ⟨false, .null⟩, ⟨false, .null⟩⟩ }
    run := .error }

/-! ### Reference readings of the bit stream -/

/-- The number the bits spell, most significant bit first (R7, R43). -/
def bitsValue (bits : List Bool) : Nat := bits.foldl (fun v b => 2 * v + b.toNat) 0

/-- The bits of a byte, most significant first (R7). -/
def byteBits (b : Byte) : List Bool :=
  [b.getLsbD 7, b.getLsbD 6, b.getLsbD 5, b.getLsbD 4, b.getLsbD 3, b.getLsbD 2, b.getLsbD 1, b.getLsbD 0]

/-- The bytes of `SCAN` below `SCAN_LEN` (R25). -/
def scanBytes (s : State) : List Byte := (List.range s.scanLen.toNat).map (scanAt s)

/-- The bits of the scan buffer that are still to be read: from `BITOFF` to the end of `SCAN` (R71, R90). -/
def bitsLeft (s : State) : List Bool := ((scanBytes s).flatMap byteBits).drop s.bitOff.toNat

/-- The bytes of `IN` from `a` to the end of the buffer. -/
def inBytesFrom (s : State) (a : Nat) : List Byte := (List.range (s.inLen.toNat - a)).map fun i => inAt s (a + i)

/-- The entropy-coded region at the head of a byte list (R70): the data bytes it stands for and how many bytes it
takes; none if no `FF` followed by a byte other than `00` ends it. -/
def refRegion : List Byte → Option (List Byte × Nat)
  | [] => none
  | [_] => none
  | b :: b2 :: rest =>
    if b = 0xFF then
      if b2 = 0x00 then (refRegion rest).map fun p => (0xFF :: p.1, p.2 + 2) else some ([], 0)
    else (refRegion (b2 :: rest)).map fun p => (b :: p.1, p.2 + 1)

/-- The valid tree of a slot; none where the key has no table (R103). -/
def treeOf (ht : HuffTables) (cls : TabClass) (sel : BitVec 1) : Option Tree :=
  if (slotOf ht cls sel).valid then some (slotOf ht cls sel).tree else none

/-- Why bits cannot be read as a block: the kind and the reason (R180, R181), and how many bits lie between the faulting
position and the end of `SCAN`. -/
structure BitFault where
  kind : BitVec 3
  reason : BitVec 8
  left : Nat
  deriving DecidableEq, Repr

/-- How many bits a walk down a tree reads before it ends (R103). -/
def codeBitsRead : Tree → List Bool → Nat
  | .null, _ => 0
  | .leaf _, _ => 0
  | .node _ _, [] => 0
  | .node l r, b :: bits => codeBitsRead (if b then r else l) bits + 1

/-- The symbol whose code a bit list begins with, and the bits after it; LookupNoTable without a table, LookupNull after
the bit that led to a null child, ScanBits where the bits end (R103, R185 (f)). -/
def refCode : Option Tree → List Bool → Except BitFault (Byte × List Bool)
  | none, bits => .error ⟨3, 0x09, bits.length⟩
  | some t, bits =>
    match walkTree t bits with
    | .ok r => .ok r
    | .error .notACode => .error ⟨3, 0x0A, bits.length - codeBitsRead t bits⟩
    | .error .outOfBits => .error ⟨2, 0x04, 0⟩

/-- The value of an element of `size` bits at the head of a bit list (R73, R121, R122), and the bits after it; SizeRange
where the size is above 16, ScanBits where a bit is missing, both before any bit is read (R185 (g)). -/
def refValue (size : Byte) (bits : List Bool) : Except BitFault (Coef × List Bool) :=
  if size = 0 then .ok (0, bits)
  else if size.toNat > 16 then .error ⟨7, 0x0E, bits.length⟩
  else if bits.length < size.toNat then .error ⟨2, 0x04, bits.length⟩
  else
    let v := bitsValue (bits.take size.toNat)
    .ok (BitVec.ofInt 32 (if 2 ^ (size.toNat - 1) ≤ v then v else v - (2 ^ size.toNat - 1)), bits.drop size.toNat)

/-- What the reading of a block leaves, whether it ends or faults: the coefficients in natural order, the predictor, and
the bits after the block or the fault (R123, R187). -/
structure BlockRead where
  blk : Tab Coef Config.blockSize
  pred : Coef
  bits : Except BitFault (List Bool)
  deriving DecidableEq, Repr

/-- The AC elements of a block from serialized position `64 - n` on (R71, R122), over a block read so far. -/
def refAc (t : Option Tree) (pred : Coef) : Nat → Tab Coef Config.blockSize → List Bool → BlockRead
  | 0, blk, bits => ⟨blk, pred, .ok bits⟩
  | n + 1, blk, bits =>
    match refCode t bits with
    | .error f => ⟨blk, pred, .error f⟩
    | .ok (size, bits) =>
      if size = 0 then ⟨blk, pred, .ok bits⟩
      else
        match refValue size bits with
        | .error f => ⟨blk, pred, .error f⟩
        | .ok (v, bits) => refAc t pred n (tabSet blk (zz (63 - n)) v) bits

/-- One coded block, from a cleared block and the predictor of its component (R71, R123, R124). -/
def refBlock (dcTree acTree : Option Tree) (pred : Coef) (bits : List Bool) : BlockRead :=
  match refCode dcTree bits with
  | .error f => ⟨tabFill _ 0, pred, .error f⟩
  | .ok (size, bits) =>
    match refValue size bits with
    | .error f => ⟨tabFill _ 0, pred, .error f⟩
    | .ok (diff, bits) => refAc acTree diff 63 (tabSet (tabFill _ 0) 0 (pred + diff)) bits

/-- The block positions of a scan in their order: block row, then block column, then component (R51, R172). -/
def gridOrder (ncomp bw bh : Nat) : List (Nat × Nat × Nat) :=
  (List.range bh).flatMap fun y =>
    (List.range bw).flatMap fun x => (List.range ncomp).map fun c => (c, x, y)

/-- The selector table with the first `n` scan entries of the SOS at `c` stored (R170): of each entry's second byte the
upper nibble is the DC selector and the lower nibble the AC selector. -/
def scanSelectors (s : State) (c : Nat) : Nat → Tab Selectors Config.maxComp
  | 0 => s.ctx.sel
  | n + 1 =>
    let b := inAt s (c + 6 + 2 * n)
    tabSet (scanSelectors s c n) n ⟨if hiNibble b = 0 then 0 else 1, if loNibble b = 0 then 0 else 1⟩

/-- What the reading of a scan leaves, whether it ends or faults: the records of the blocks that were completed, the
predictors, and the bits after the last block or the fault (R172, R174, R187). -/
structure ScanRead where
  recs : List OutRecord
  pred : Tab Coef Config.maxComp
  bits : Except BitFault (List Bool)
  deriving DecidableEq, Repr

/-- The blocks of a scan (R71, R172, R174): one record per position, each component with its own tables and its own
predictor, all from the one bit list; the first block that faults ends the reading and has no record. -/
def refScan (ht : HuffTables) (sel : Tab Selectors Config.maxComp) :
    List (Nat × Nat × Nat) → Tab Coef Config.maxComp → List Bool → ScanRead
  | [], pred, bits => ⟨[], pred, .ok bits⟩
  | (c, x, y) :: order, pred, bits =>
    let k := (tabGet sel c).getD ⟨0, 0⟩
    let b := refBlock (treeOf ht .dc k.dc) (treeOf ht .ac k.ac) ((tabGet pred c).getD 0) bits
    let pred := tabSet pred c b.pred
    match b.bits with
    | .error f => ⟨[], pred, .error f⟩
    | .ok bits =>
      let r := refScan ht sel order pred bits
      ⟨.block (BitVec.ofNat 8 c) (BitVec.ofNat 13 x) (BitVec.ofNat 13 y) b.blk :: r.recs, r.pred, r.bits⟩

/-! ### Reference readings of a Huffman table -/

/-- HT_INSERT for each (length, symbol) in turn (R101, R102): the tree, or the index of the first that cannot be
placed. -/
def insertAll : Tree → List (Nat × Byte) → Except Nat Tree
  | t, [] => .ok t
  | t, (len, symbol) :: rest =>
    match tryInsert symbol len t with
    | none => .error 0
    | some t' =>
      match insertAll t' rest with
      | .ok u => .ok u
      | .error n => .error (n + 1)

/-- The code lengths of a table in insertion order: ascending, `counts[len - 1]` times `len` (R102). -/
def codeLengths (counts : List Nat) : List Nat :=
  (counts.zipIdx 1).flatMap fun p => List.replicate p.1 p.2

/-- The (length, symbol) pairs of the DHT at `c` with these counts (R67, R102). -/
def dhtPairs (s : State) (c : Nat) (counts : List Nat) : List (Nat × Byte) :=
  (codeLengths counts).zipIdx.map fun p => (p.1, inAt s (c + 21 + p.2))

/-- The counts `N[1..16]` of the DHT at `c` (R67). -/
def dhtCounts (s : State) (c : Nat) : List Nat := (List.range 16).map fun i => (inAt s (c + 5 + i)).toNat

/-- `len` bits of `code`, most significant first. -/
def codeBits : Nat → Nat → List Bool
  | 0, _ => []
  | len + 1, code => (code / 2 ^ len % 2 == 1) :: codeBits len code

/-- The canonical code of each length of a list of ascending lengths (R72): each code is the last one plus 1, shifted
left by the increase in length; the first is 0. -/
def canonicalCodes : Nat → Nat → List Nat → List (Nat × Nat)
  | _, _, [] => []
  | len0, next, len :: lens =>
    let code := next * 2 ^ (len - len0)
    (len, code) :: canonicalCodes len (code + 1) lens

end Sys2Proof.Machine
end

