-- ==== Sys2Proof/Certificates/Slice0/Obligations.lean ====
section
/-! DEFINITION. The statements for the provers, each read from the rules of the spec it names. -/

open Sys2Proof Sys2Proof.Machine

/-! ## Reset, launch, step -/

/-- 10_state.md R29, 70_reset_and_hazards.md R220: the power-on reset values, and a core that executes nothing until
START. (The DESTUFF cursors are the model's own fields, log entry 3, and are not named here.) -/
def Obligations.ResetLeavesTheTableOfReset : Prop :=
  State.reset.inLen = 0 ∧ State.reset.cur = 0 ∧ State.reset.bitOff = 0 ∧ State.reset.run = .idle ∧
  State.reset.wUnsup = false ∧ State.reset.wNcomp = false ∧
  State.reset.err = ⟨0, 0, 0, 0⟩ ∧
  State.reset.ctx.bps = 0 ∧ State.reset.ctx.width = 0 ∧ State.reset.ctx.height = 0 ∧ State.reset.ctx.ncomp = 0 ∧
  (∀ i, i < 255 → tabGet State.reset.ctx.comp i = some ⟨0, 0, 0⟩) ∧
  (∀ k, k < 64 → tabGet State.reset.ctx.lqt k = some 0 ∧ tabGet State.reset.ctx.cqt k = some 0) ∧
  State.reset.ctx.densUnits = 0 ∧ State.reset.ctx.xdens = 0 ∧ State.reset.ctx.ydens = 0 ∧
  State.reset.ctx.jfifVer = 0 ∧
  (∀ cls sel, (slotOf State.reset.ctx.ht cls sel).valid = false) ∧
  (∀ i, i < 255 → tabGet State.reset.ctx.sel i = some ⟨0, 0⟩ ∧ tabGet State.reset.ctx.pred i = some 0) ∧
  State.reset.scanLen = 0 ∧ (∀ n, n < 64 → tabGet State.reset.blk n = some 0) ∧
  State.reset.work.acc = 0 ∧ State.reset.work.size = 0 ∧ State.reset.work.k = 0 ∧ State.reset.work.bx = 0 ∧
  State.reset.work.row = 0 ∧ State.reset.work.ci = 0 ∧ State.reset.out = [] ∧
  step State.reset = .next State.reset

/-- Every invariant of Safety holds right after reset (10_state.md R29): those of R12, R13, R22, R25, R125, R180 to R183,
R222, and MemForm, which rests on no rule: the form of the byte memories is the model's choice (log entry 12). -/
def Obligations.ResetMeetsTheInvariants : Prop :=
  MemForm State.reset ∧ TablesShaped State.reset ∧ CursorBound State.reset ∧ ScanBound State.reset ∧
  PredBound State.reset ∧ ErrLegal State.reset ∧ HaltReleased State.reset

/-- 43_segment_scanner.md R141, R151: where the bytes at `CUR` decode to an instruction, a step of the running core is
`exec` of it at that state. -/
def Obligations.StepRunsTheDecodedInstruction : Prop :=
  ∀ (s : State) (i : Instr) (rest : List Byte),
    s.run = .run → s.startReq = false → decode (inWindow s 4 s.cur.toNat) = .ok (i, rest) → step s = exec i s

/-- 43_segment_scanner.md R140: what a START on a stream that begins with SOI leaves. -/
def Obligations.StartOnSoiBeginsARun : Prop :=
  ∀ s : State, s.startReq = true → s.run ≠ .run → 2 ≤ s.inLen.toNat → inAt s 0 = 0xFF → inAt s 1 = 0xD8 →
    step s = .next
      { s with
        startReq := false, err := ⟨0, 0, 0, 0⟩, wUnsup := false, wNcomp := false, out := [], scanLen := 0,
        bitOff := 0, ctx := DecodeContext.empty, cur := 2, run := .run }

/-- 43_segment_scanner.md R140, 60_exceptions.md R181: a stream that is too short or does not begin with SOI ends in
InvalidStart/StartNotSOI with every register as START cleared it. -/
def Obligations.StartWithoutSoiIsInvalidStart : Prop :=
  ∀ s : State, s.startReq = true → s.run ≠ .run →
    (s.inLen.toNat < 2 ∨ inAt s 0 ≠ 0xFF ∨ inAt s 1 ≠ 0xD8) →
    step s = .next
      { s with
        startReq := false, err := ⟨4, 0x01, 0, 0⟩, wUnsup := false, wNcomp := false, out := [], scanLen := 0,
        bitOff := 0, ctx := DecodeContext.empty, cur := 0, run := .error }

/-- 60_exceptions.md R184, R191, 43_segment_scanner.md R140: the steps that execute nothing. A halted core without a
START stays as it is; a START while the core runs is dropped. -/
def Obligations.StepsThatExecuteNothing : Prop :=
  ∀ s : State,
    (s.run ≠ .run → s.startReq = false → step s = .next s) ∧
    (s.run = .run → s.startReq = true → step s = .next { s with startReq := false })

/-- 43_segment_scanner.md R141, 60_exceptions.md R185 (a), (b): a marker pair or a length field cut off by the end of
`IN` raises TruncatedStream/InRead at the first missing byte, before anything of the segment executes. -/
def Obligations.TruncatedFetchFaults : Prop :=
  ∀ s : State, s.run = .run → s.startReq = false →
    let c := s.cur.toNat
    (s.inLen.toNat ≤ c → step s = .next (errorState 2 0x02 c s)) ∧
    (s.inLen.toNat = c + 1 → step s = .next (errorState 2 0x02 (c + 1) s)) ∧
    (inAt s c = 0xFF → inAt s (c + 1) ≠ 0xD8 → inAt s (c + 1) ≠ 0xD9 →
      (s.inLen.toNat = c + 2 → step s = .next (errorState 2 0x02 (c + 2) s)) ∧
      (s.inLen.toNat = c + 3 → step s = .next (errorState 2 0x02 (c + 3) s)))

/-- 10_state.md R31, 20_memory.md R48, 70_reset_and_hazards.md R221, 43_segment_scanner.md R140: from the issue of START to
the halt the host has no write to `IN` or `IN_LEN` and no read, a poll shows `RUN`, and another START is ignored; in a
halted core the host reads everything, a write below the capacity changes that byte, or `IN_LEN`, and nothing else, and
START is issued. (That the issue of START is a pending bit is log entry 4.) -/
def Obligations.HostIsExcludedWhileRunning : Prop :=
  ∀ (s : State) (a : Nat) (b : Byte) (n : Length),
    (s.run = .run ∨ s.startReq = true →
      hostMove (.writeIn a b) s = none ∧ hostMove (.writeLen n) s = none ∧ hostMove .start s = some s ∧
      hostReads s = none ∧ polledState s = .run) ∧
    (s.run ≠ .run → s.startReq = false →
      hostMove (.writeLen n) s = some { s with inLen := n } ∧
      hostMove .start s = some { s with startReq := true } ∧
      hostReads s = some s ∧ polledState s = s.run) ∧
    (s.run ≠ .run → s.startReq = false → a < 2 ^ 32 - 1 → memWf s.inBuf →
      ∃ t, hostMove (.writeIn a b) s = some t ∧ t = { s with inBuf := t.inBuf } ∧ inAt t a = b ∧
        ∀ x, x ≠ a → inAt t x = inAt s x)

/-! ## Encoding -/

/-- 30_encoding.md R61, R63, R70, R75: words of the marker table, of the region, and of a code table written out from
the spec. -/
def Obligations.WordsOfTheSpecDecode : Prop :=
  decode [0xFF, 0xD8, 0x12] = .ok (.soi, [0x12]) ∧
  decode [0xFF, 0xE0, 0x00, 0x10] = .ok (.app0 16, []) ∧
  decode [0xFF, 0xDB, 0x00, 0x43] = .ok (.dqt 67, []) ∧
  decode [0xFF, 0xC0, 0x00, 0x0B] = .ok (.sof0 11, []) ∧
  decode [0xFF, 0xC4, 0x01, 0x16] = .ok (.dht 278, []) ∧
  decode [0xFF, 0xDA, 0x00, 0x08] = .ok (.sos 8, []) ∧
  decode [0xFF, 0xD9] = .ok (.eoi, []) ∧
  decode [0xFF, 0xFE, 0x00, 0x05] = .ok (.unsup 0xFE 5, []) ∧
  decode [0xFF, 0x00, 0x00, 0x02] = .ok (.unsup 0x00 2, []) ∧
  decode [0x00, 0xD9] = .ok (.badPrefix 0x00 0xD9, []) ∧
  decodeRegion [0xFF, 0x00, 0x12] = .ok (.instr .stuff, [0x12]) ∧
  decodeRegion [0xFF, 0xD9] = .ok (.stop, [0xFF, 0xD9]) ∧
  decodeBits (.node (.leaf 0) (.node (.leaf 2) (.node (.leaf 3) .null))) .dc [true, true, false, true]
    = .ok (.dcElem 3, [true]) ∧
  decodeBits (.node (.leaf 1) (.node (.leaf 0) .null)) .ac [true, false, true] = .ok (.eob, [true]) ∧
  decodeBits (.node (.leaf 1) (.node (.leaf 0) .null)) .ac [false, true] = .ok (.acElem 1, [true])

/-- 30_encoding.md R61 to R63, R69: decoding an encoded instruction of the marker space gives it back, with every
operand at every value, and leaves the bytes after it. -/
def Obligations.MarkerDecodeOfEncodeIsTheInstruction : Prop :=
  ∀ (i : Instr) (rest : List Byte),
    i.wf = true → i.space = .markerWord → decode (encode i ++ rest) = .ok (i, rest)

/-- 30_encoding.md R61: what the decoder of the marker space reads is well-formed, of that space, and stands in the
bytes exactly as the encoder writes it: each byte sequence has one meaning. -/
def Obligations.MarkerDecodeIsUnambiguous : Prop :=
  ∀ (bytes rest : List Byte) (i : Instr),
    decode bytes = .ok (i, rest) → i.wf = true ∧ i.space = .markerWord ∧ encode i ++ rest = bytes

/-- 30_encoding.md R71, R72: under any code tree, decoding the code of an element gives the element back and leaves the
bits after it; and the stuffed pair is read back in the region (R70). -/
def Obligations.ScanDecodeOfEncodeIsTheElement : Prop :=
  (∀ (t : Tree) (i : Instr) (pos : ElemPos) (code rest : List Bool),
    i.wf = true → encodeBits t i = some (pos, code) → decodeBits t pos (code ++ rest) = .ok (i, rest)) ∧
  ∀ rest : List Byte, decodeRegion (encode .stuff ++ rest) = .ok (.instr .stuff, rest)

/-! ## Fault entry and the shared operations -/

/-- 60_exceptions.md R183: fault entry saves kind, reason, `CUR` and the position, releases the four slots, halts in
`ERROR`, and keeps everything else; R180, R181: the numbers of each reason. (`errorState` writes a released slot as
absent: log entry 11.) -/
def Obligations.FaultEntrySavesReleasesHalts : Prop :=
  ∀ (s : State) (pos : Nat),
    faultEntry .startNotSoi pos s = errorState 4 0x01 pos s ∧
    faultEntry .inRead pos s = errorState 2 0x02 pos s ∧
    faultEntry .scanEnd pos s = errorState 2 0x03 pos s ∧
    faultEntry .scanBits pos s = errorState 2 0x04 pos s ∧
    faultEntry .dhtKeyRange pos s = errorState 3 0x05 pos s ∧
    faultEntry .dhtCountOverrun pos s = errorState 3 0x06 pos s ∧
    faultEntry .insertFail pos s = errorState 3 0x07 pos s ∧
    faultEntry .scanSelRange pos s = errorState 3 0x08 pos s ∧
    faultEntry .lookupNoTable pos s = errorState 3 0x09 pos s ∧
    faultEntry .lookupNull pos s = errorState 3 0x0A pos s ∧
    faultEntry .markerPrefix pos s = errorState 7 0x0B pos s ∧
    faultEntry .dqtPrecision pos s = errorState 7 0x0C pos s ∧
    faultEntry .scanCompCount pos s = errorState 7 0x0D pos s ∧
    faultEntry .sizeRange pos s = errorState 7 0x0E pos s

/-- 10_state.md R28: ContextReset writes 0, empty or absent to the whole context and touches nothing else. -/
def Obligations.ContextResetClearsOnlyTheContext : Prop :=
  ∀ s : State,
    contextReset s = { s with ctx := (contextReset s).ctx } ∧
    (contextReset s).ctx.bps = 0 ∧ (contextReset s).ctx.width = 0 ∧ (contextReset s).ctx.height = 0 ∧
    (contextReset s).ctx.ncomp = 0 ∧
    (∀ i, i < 255 → tabGet (contextReset s).ctx.comp i = some ⟨0, 0, 0⟩) ∧
    (∀ k, k < 64 → tabGet (contextReset s).ctx.lqt k = some 0 ∧ tabGet (contextReset s).ctx.cqt k = some 0) ∧
    (contextReset s).ctx.densUnits = 0 ∧ (contextReset s).ctx.xdens = 0 ∧ (contextReset s).ctx.ydens = 0 ∧
    (contextReset s).ctx.jfifVer = 0 ∧
    (∀ cls sel, (slotOf (contextReset s).ctx.ht cls sel).valid = false) ∧
    ∀ i, i < 255 → tabGet (contextReset s).ctx.sel i = some ⟨0, 0⟩ ∧ tabGet (contextReset s).ctx.pred i = some 0

/-- 20_memory.md R41, R42: InByte and InU16 answer the bytes of `IN`, big-endian, change nothing, and raise at the
first byte at or beyond `IN_LEN`; the window a fetch decodes holds the bytes below `IN_LEN` and no other. -/
def Obligations.ReadsOfInAreBoundChecked : Prop :=
  ∀ (s : State) (r : Reason) (a : Nat),
    (a < s.inLen.toNat → (inByte r a).run s = .ok (inAt s a) s) ∧
    (s.inLen.toNat ≤ a → (inByte r a).run s = .error .raised (faultEntry r a s)) ∧
    (a + 1 < s.inLen.toNat →
      (inU16 r a).run s = .ok (BitVec.ofNat 16 (256 * (inAt s a).toNat + (inAt s (a + 1)).toNat)) s) ∧
    (s.inLen.toNat ≤ a → (inU16 r a).run s = .error .raised (faultEntry r a s)) ∧
    (s.inLen.toNat = a + 1 → (inU16 r a).run s = .error .raised (faultEntry r (a + 1) s)) ∧
    ∀ n, inWindow s n a = (List.range (min n (s.inLen.toNat - a))).map fun i => inAt s (a + i)

/-- 40_bitstream_reader.md R90: READ_BITS of 1 to 16 bits inside `SCAN` gives the number they spell, most significant
first, writes `ACC` alone; a field not wholly inside raises TruncatedStream/ScanBits at `BITOFF`. -/
def Obligations.ReadBitsAssemblesMsbFirst : Prop :=
  ∀ (s : State) (count : Nat), 1 ≤ count → count ≤ 16 →
    (s.bitOff.toNat + count ≤ 8 * s.scanLen.toNat →
      let v := bitsValue ((bitsLeft s).take count)
      (readBits count).run s = .ok v { s with work := { s.work with acc := BitVec.ofNat 16 v } }) ∧
    (8 * s.scanLen.toNat < s.bitOff.toNat + count →
      (readBits count).run s = .error .raised (errorState 2 0x04 s.bitOff.toNat s))

/-- 40_bitstream_reader.md R91, 30_encoding.md R70: DESTUFF of a terminated region leaves its data bytes in `SCAN` and
their number in `SCAN_LEN`, answers the address of the terminating `FF`, and changes nothing else but its cursors; the
bytes of `SCAN` beyond them are the old ones. -/
def Obligations.DestuffLeavesTheDataBytes : Prop :=
  ∀ (s : State) (e0 : Nat) (data : List Byte) (n : Nat),
    memWf s.scan → refRegion (inBytesFrom s e0) = some (data, n) →
    ∃ t, (destuff e0).run s = .ok (e0 + n) t ∧ scanBytes t = data ∧
      (∀ i, data.length ≤ i → scanAt t i = scanAt s i) ∧
      t = { s with
            scan := t.scan
            scanLen := BitVec.ofNat 32 data.length
            work := { s.work with regionPos := e0 + n, regionLen := data.length } }

/-- 41_huffman_table.md R103: HT_LOOKUP in a valid slot walks its tree over the bits left: a leaf answers its symbol
with `BITOFF` after the code, a null child raises LookupNull with the bit that led to it counted, and bits that end at
an internal node raise ScanBits at their end; an invalid slot raises LookupNoTable before any bit is read. -/
def Obligations.LookupWalksTheTree : Prop :=
  ∀ (s : State) (cls : TabClass) (sel : BitVec 1),
    let slot := slotOf s.ctx.ht cls sel
    let at' := fun (n : Nat) (acc : BitVec 16) =>
      { s with bitOff := BitVec.ofNat 36 (s.bitOff.toNat + n), work := { s.work with acc := acc } }
    (slot.valid = false → (htLookup cls sel).run s = .error .raised (errorState 3 0x09 s.bitOff.toNat s)) ∧
    (slot.valid = true →
      (∀ symbol rest, walkTree slot.tree (bitsLeft s) = .ok (symbol, rest) →
        ∃ acc, (htLookup cls sel).run s = .ok symbol (at' ((bitsLeft s).length - rest.length) acc)) ∧
      (walkTree slot.tree (bitsLeft s) = .error .notACode → slot.tree ≠ .null →
        ∃ n acc, 1 ≤ n ∧ walkTree slot.tree ((bitsLeft s).take n) = .error .notACode ∧
          walkTree slot.tree ((bitsLeft s).take (n - 1)) = .error .outOfBits ∧
          (htLookup cls sel).run s = .error .raised (errorState 3 0x0A (s.bitOff.toNat + n) (at' n acc))) ∧
      (walkTree slot.tree (bitsLeft s) = .error .outOfBits →
        ∃ acc, (htLookup cls sel).run s =
          .error .raised (errorState 2 0x04 (s.bitOff.toNat + (bitsLeft s).length)
            (at' (bitsLeft s).length acc))))

/-- 41_huffman_table.md R104, 30_encoding.md R72: where every insertion of a table succeeds, the canonical code of the
`i`-th listed symbol leads to that symbol. -/
def Obligations.BuiltCodesAreCanonical : Prop :=
  ∀ (pairs : List (Nat × Byte)) (t : Tree),
    (pairs.map (·.1)).Pairwise (· ≤ ·) → (∀ p ∈ pairs, 1 ≤ p.1) → insertAll clearedTree pairs = .ok t →
    ∀ (i len code : Nat) (symbol : Byte) (rest : List Bool),
      (canonicalCodes 1 0 (pairs.map (·.1)))[i]? = some (len, code) → pairs[i]? = some (len, symbol) →
      walkTree t (codeBits len code ++ rest) = .ok (symbol, rest)

/-- 41_huffman_table.md R102: with lengths ascending, an insertion fails exactly when the symbols before it fill the
code space of its length. -/
def Obligations.InsertFailsExactlyWhenOversubscribed : Prop :=
  ∀ (pairs : List (Nat × Byte)) (t : Tree) (len : Nat) (symbol : Byte),
    (pairs.map (·.1)).Pairwise (· ≤ ·) → (∀ p ∈ pairs, 1 ≤ p.1 ∧ p.1 ≤ len) → 1 ≤ len →
    insertAll clearedTree pairs = .ok t →
    (tryInsert symbol len t = none ↔ (pairs.map fun p => 2 ^ (len - p.1)).sum = 2 ^ len)

/-- 42_coefficient_decoder.md R120, 30_encoding.md R73: EXTEND on `size` bits, for every size from 1 to 16: its two
clauses, its range, and that it keeps the order of the raw values (so that it is one to one). -/
def Obligations.ExtendFollowsTheSignRule : Prop :=
  ∀ size v : Nat, 1 ≤ size → size ≤ 16 → v < 2 ^ size →
    (2 ^ (size - 1) ≤ v → extend v size = v) ∧
    (v < 2 ^ (size - 1) → extend v size = (v : Int) - (2 ^ size - 1)) ∧
    extend v size ≠ 0 ∧ -(2 ^ size : Int) < extend v size ∧ extend v size < 2 ^ size ∧
    (BitVec.ofInt 32 (extend v size)).toInt = extend v size ∧
    ∀ w : Nat, w < v → extend w size < extend v size

/-- 00_scope.md R9: `ZZ` is a permutation of 0..63 with `ZZINV` its inverse, fixes 0 and 63, and is no involution. -/
def Obligations.ZigZagIsAPermutation : Prop :=
  (∀ k, k < 64 → zz k < 64 ∧ zzInv (zz k) = k ∧ zzInv k < 64 ∧ zz (zzInv k) = k) ∧
  zz 0 = 0 ∧ zz 63 = 63 ∧ zz (zz 2) = 17 ∧
  ∀ k, k < 64 → (zz (zz k) = k ↔ k = 0 ∨ k = 1 ∨ k = 22 ∨ k = 41 ∨ k = 62 ∨ k = 63)

/-! ## Markers -/

/-- 43_segment_scanner.md R142: SOI at a later position advances `pc` by 2 and changes nothing else. -/
def Obligations.SoiOnlyAdvances : Prop :=
  ∀ s : State, exec .soi s = .next { s with cur := BitVec.ofNat 33 (s.cur.toNat + 2) }

/-- 43_segment_scanner.md R147: EOI leaves no valid table, advances by 2 and halts; the rest of the context and all
else are kept. -/
def Obligations.EoiReleasesAndHalts : Prop :=
  ∀ s : State, ∃ ht : HuffTables,
    (∀ cls sel, (slotOf ht cls sel).valid = false) ∧
    exec .eoi s = .next
      { s with
        ctx := { s.ctx with ht := ht }
        cur := BitVec.ofNat 33 (s.cur.toNat + 2)
        run := .done }

/-- 43_segment_scanner.md R148, 60_exceptions.md R186: UNSUP sets its flag, emits one record and skips by its length. -/
def Obligations.UnsupWarnsAndSkips : Prop :=
  ∀ (s : State) (code : Byte) (len : Half),
    exec (.unsup code len) s = .next
      { s with
        wUnsup := true
        out := s.out ++ [.warn 5 s.cur code len]
        cur := BitVec.ofNat 33 (s.cur.toNat + 2 + len.toNat) }

/-- 43_segment_scanner.md R141, 60_exceptions.md R181: a marker position whose byte is not `FF` takes the fatal error
Unspecified/MarkerPrefix at `c`. -/
def Obligations.BadPrefixTakesMarkerPrefix : Prop :=
  ∀ (s : State) (b0 b1 : Byte), exec (.badPrefix b0 b1) s = .next (errorState 7 0x0B s.cur.toNat s)

/-! ## Header segments -/

/-- 43_segment_scanner.md R143: APP0 whose fields lie inside `IN` resets the context and stores the JFIF fields; nothing
else changes but `CUR`. -/
def Obligations.App0ResetsAndStoresJfif : Prop :=
  ∀ (s : State) (len : Half),
    let c := s.cur.toNat
    c + 15 < s.inLen.toNat →
    exec (.app0 len) s = .next
      { s with
        ctx := { DecodeContext.empty with
          jfifVer := BitVec.ofNat 16 (256 * (inAt s (c + 9)).toNat + (inAt s (c + 10)).toNat)
          densUnits := inAt s (c + 11)
          xdens := BitVec.ofNat 16 (256 * (inAt s (c + 12)).toNat + (inAt s (c + 13)).toNat)
          ydens := BitVec.ofNat 16 (256 * (inAt s (c + 14)).toNat + (inAt s (c + 15)).toNat) }
        cur := BitVec.ofNat 33 (c + 2 + len.toNat) }

/-- 43_segment_scanner.md R143, 60_exceptions.md R187: APP0 cut off by the end of `IN` raises InRead at the first field
byte that is missing, after ContextReset and after the fields before it. -/
def Obligations.TruncatedApp0KeepsItsPartialWrites : Prop :=
  ∀ (s : State) (len : Half),
    let c := s.cur.toNat
    let n := s.inLen.toNat
    n ≤ c + 15 →
    exec (.app0 len) s = .next (errorState 2 0x02 (max n (c + 9))
      { s with
        ctx := { DecodeContext.empty with
          jfifVer := if c + 10 < n then
            BitVec.ofNat 16 (256 * (inAt s (c + 9)).toNat + (inAt s (c + 10)).toNat) else 0
          densUnits := if c + 11 < n then inAt s (c + 11) else 0
          xdens := if c + 13 < n then
            BitVec.ofNat 16 (256 * (inAt s (c + 12)).toNat + (inAt s (c + 13)).toNat) else 0 } })

/-- 43_segment_scanner.md R144, 42_coefficient_decoder.md R126: DQT whose entries lie inside `IN` stores entry `k` at
natural index `ZZ[k]` of the table its selector names, 8-bit entries zero-extended, 16-bit entries big-endian; nothing
else changes but `CUR`. -/
def Obligations.DqtStoresDeZigZagged : Prop :=
  ∀ (s : State) (len : Half),
    let c := s.cur.toNat
    let pq := hiNibble (inAt s (c + 4))
    let tq := loNibble (inAt s (c + 4))
    (pq = 0 ∧ c + 5 + 64 ≤ s.inLen.toNat) ∨ (pq = 1 ∧ c + 5 + 128 ≤ s.inLen.toNat) →
    ∃ table : Tab Half 64,
      (∀ k, k < 64 → tabGet table (zz k) = some
        (if pq = 0 then BitVec.ofNat 16 (inAt s (c + 5 + k)).toNat
         else BitVec.ofNat 16 (256 * (inAt s (c + 5 + 2 * k)).toNat + (inAt s (c + 6 + 2 * k)).toNat))) ∧
      exec (.dqt len) s = .next
        { s with
          ctx := if tq = 0 then { s.ctx with lqt := table } else { s.ctx with cqt := table }
          cur := BitVec.ofNat 33 (c + 2 + len.toNat) }

/-- 43_segment_scanner.md R144: a precision nibble above 1 is the fatal error Unspecified/DqtPrecision, before any entry
is read. -/
def Obligations.DqtPrecisionAboveOneFaults : Prop :=
  ∀ (s : State) (len : Half),
    let c := s.cur.toNat
    c + 4 < s.inLen.toNat → 1 < hiNibble (inAt s (c + 4)) →
    exec (.dqt len) s = .next (errorState 7 0x0C (c + 4) s)

/-- 43_segment_scanner.md R144, 60_exceptions.md R187: a DQT cut off by the end of `IN` raises InRead at the first missing
byte: the header byte, with nothing stored, or a byte of an entry of either size and for either table, with the entries
that lie wholly inside `IN` stored and every other entry unchanged. -/
def Obligations.TruncatedDqtKeepsItsPartialWrites : Prop :=
  ∀ (s : State) (len : Half),
    let c := s.cur.toNat
    let n := s.inLen.toNat
    let pq := hiNibble (inAt s (c + 4))
    let tq := loNibble (inAt s (c + 4))
    let width := if pq = 0 then 1 else 2
    let old := if tq = 0 then s.ctx.lqt else s.ctx.cqt
    (n ≤ c + 4 → exec (.dqt len) s = .next (errorState 2 0x02 (c + 4) s)) ∧
    (pq ≤ 1 → c + 4 < n → n < c + 5 + 64 * width →
      ∃ table : Tab Half 64,
        (∀ k, k < 64 → tabGet table (zz k) =
          if c + 5 + width * (k + 1) ≤ n then
            some (if pq = 0 then BitVec.ofNat 16 (inAt s (c + 5 + k)).toNat
              else BitVec.ofNat 16 (256 * (inAt s (c + 5 + 2 * k)).toNat + (inAt s (c + 6 + 2 * k)).toNat))
          else tabGet old (zz k)) ∧
        exec (.dqt len) s = .next (errorState 2 0x02 n
          { s with ctx := if tq = 0 then { s.ctx with lqt := table } else { s.ctx with cqt := table } }))

/-- 43_segment_scanner.md R145: SOF0 whose component triples lie inside `IN` stores the frame fields and the whole
component table, for every count; a count other than 1 and 3 also sets `W_NCOMP` and emits one record; nothing else
changes but `CUR`. 60_exceptions.md R187: SOF0 cut off by the end of `IN` raises InRead at the first missing byte, with
the frame fields before it stored; cut off in a triple, also with the warning and the triples before it, and `NCOMP` as
it was. -/
def Obligations.Sof0StoresTheFrame : Prop :=
  ∀ (s : State) (len : Half),
    let c := s.cur.toNat
    let n := s.inLen.toNat
    let height := BitVec.ofNat 16 (256 * (inAt s (c + 5)).toNat + (inAt s (c + 6)).toNat)
    let width := BitVec.ofNat 16 (256 * (inAt s (c + 7)).toNat + (inAt s (c + 8)).toNat)
    let nf := inAt s (c + 9)
    let triple := fun i : Nat => (⟨inAt s (c + 12 + 3 * i), loNibble (inAt s (c + 11 + 3 * i)),
      hiNibble (inAt s (c + 11 + 3 * i))⟩ : Component)
    let warned := fun t : State =>
      { t with
        wNcomp := s.wNcomp || (decide (nf ≠ 1) && decide (nf ≠ 3))
        out := if nf ≠ 1 ∧ nf ≠ 3 then s.out ++ [.warn 6 s.cur nf 0] else s.out }
    (c + 10 + 3 * nf.toNat ≤ n →
      ∃ table : Tab Component 255,
        (∀ i, i < nf.toNat → tabGet table i = some (triple i)) ∧
        (∀ i, nf.toNat ≤ i → i < 255 → tabGet table i = some ⟨0, 0, 0⟩) ∧
        exec (.sof0 len) s = .next (warned
          { s with
            ctx := { s.ctx with bps := inAt s (c + 4), height := height, width := width, ncomp := nf, comp := table }
            cur := BitVec.ofNat 33 (c + 2 + len.toNat) })) ∧
    (n ≤ c + 9 →
      exec (.sof0 len) s = .next (errorState 2 0x02 (max n (c + 4))
        { s with
          ctx := { s.ctx with
            bps := if c + 4 < n then inAt s (c + 4) else s.ctx.bps
            height := if c + 6 < n then height else s.ctx.height
            width := if c + 8 < n then width else s.ctx.width } })) ∧
    (c + 9 < n → n < c + 10 + 3 * nf.toNat →
      ∃ table : Tab Component 255,
        (∀ i, tabGet table i = if c + 13 + 3 * i ≤ n then some (triple i) else tabGet s.ctx.comp i) ∧
        exec (.sof0 len) s = .next (errorState 2 0x02 n (warned
          { s with
            ctx := { s.ctx with bps := inAt s (c + 4), height := height, width := width, comp := table } })))

/-- 43_segment_scanner.md R146, 41_huffman_table.md R102: DHT with a key in range, counts that the segment holds,
symbols inside `IN` and a code space they fit builds the table its header names; nothing else changes but `CUR`. -/
def Obligations.DhtBuildsTheTable : Prop :=
  ∀ (s : State) (len : Half) (t : Tree),
    let c := s.cur.toNat
    let h := inAt s (c + 4)
    let counts := dhtCounts s c
    hiNibble h ≤ 1 → loNibble h ≤ 1 → 19 + counts.sum ≤ len.toNat → c + 21 + counts.sum ≤ s.inLen.toNat →
    insertAll clearedTree (dhtPairs s c counts) = .ok t →
    exec (.dht len) s = .next
      { s with
        ctx := { s.ctx with
          ht := withSlot s.ctx.ht (if hiNibble h = 0 then .dc else .ac) (if loNibble h = 0 then 0 else 1) ⟨true, t⟩ }
        cur := BitVec.ofNat 33 (c + 2 + len.toNat) }

/-- 43_segment_scanner.md R146, 41_huffman_table.md R102, 60_exceptions.md R185 (d): the ways DHT faults, in their order:
the key byte outside `IN`, a key out of range, a count byte outside `IN`, counts beyond the declared segment, and then
the first symbol that cannot be placed or lies outside `IN`. -/
def Obligations.DhtFaultsInTheOrderOfItsChecks : Prop :=
  ∀ (s : State) (len : Half),
    let c := s.cur.toNat
    let h := inAt s (c + 4)
    let counts := dhtCounts s c
    let pairs := dhtPairs s c counts
    (s.inLen.toNat ≤ c + 4 → exec (.dht len) s = .next (errorState 2 0x02 (c + 4) s)) ∧
    (hiNibble h ≤ 1 → loNibble h ≤ 1 → c + 4 < s.inLen.toNat → s.inLen.toNat ≤ c + 20 →
      exec (.dht len) s = .next (errorState 2 0x02 s.inLen.toNat s)) ∧
    (c + 4 < s.inLen.toNat → 1 < hiNibble h ∨ 1 < loNibble h →
      exec (.dht len) s = .next (errorState 3 0x05 (c + 4) s)) ∧
    (hiNibble h ≤ 1 → loNibble h ≤ 1 → c + 20 < s.inLen.toNat →
      (len.toNat < 19 + counts.sum → exec (.dht len) s = .next (errorState 3 0x06 (c + 2) s)) ∧
      (19 + counts.sum ≤ len.toNat →
        (∀ n, insertAll clearedTree pairs = .error n → c + 21 + n < s.inLen.toNat →
          exec (.dht len) s = .next (errorState 3 0x07 (c + 21 + n) s)) ∧
        (∀ t, s.inLen.toNat < c + 21 + counts.sum →
          insertAll clearedTree (pairs.take (s.inLen.toNat - (c + 21))) = .ok t →
          exec (.dht len) s = .next (errorState 2 0x02 s.inLen.toNat s))))

/-! ## The scan -/

/-- 44_scan_sos.md R170 to R175: SOS with a good header and a terminated region stores the selectors, fills `SCAN`, and
does what the reference reading of its bits gives. Where that decodes one block per position, the blocks are emitted in
order, the predictors are threaded, and `pc` ends at the terminating `FF`. Where a block faults (60_exceptions.md R183,
R187), the blocks before it are emitted, it is not, the predictors are those of the fault, the tables are released, and
`CUR` stays. Either way the flags, the rest of the context and the bytes of `SCAN` beyond the data are unchanged. -/
def Obligations.SosDecodesTheScan : Prop :=
  ∀ (s : State) (len : Half) (pred0 : Tab Coef 255) (data : List Byte) (n : Nat),
    let c := s.cur.toNat
    let ns := s.ctx.ncomp.toNat
    let sel := scanSelectors s c ns
    memWf s.scan →
    c + 4 + 2 * ns < s.inLen.toNat → inAt s (c + 4) = s.ctx.ncomp →
    (∀ i, i < ns → hiNibble (inAt s (c + 6 + 2 * i)) ≤ 1 ∧ loNibble (inAt s (c + 6 + 2 * i)) ≤ 1) →
    (∀ i, i < ns → tabGet pred0 i = some 0) → (∀ i, ns ≤ i → tabGet pred0 i = tabGet s.ctx.pred i) →
    refRegion (inBytesFrom s (c + 2 + len.toNat)) = some (data, n) →
    let r := refScan s.ctx.ht sel (gridOrder ns (s.ctx.width.toNat / 8) (s.ctx.height.toNat / 8)) pred0
      (data.flatMap byteBits)
    ∃ t, exec (.sos len) s = .next t ∧ scanBytes t = data ∧
      (∀ i, data.length ≤ i → scanAt t i = scanAt s i) ∧
      let scanned := fun bitOff : Nat =>
        { s with
          bitOff := BitVec.ofNat 36 bitOff
          ctx := { s.ctx with sel := sel, pred := r.pred }
          scan := t.scan
          scanLen := BitVec.ofNat 32 data.length
          blk := t.blk
          work := t.work
          out := s.out ++ r.recs }
      match r.bits with
      | .ok rest =>
        t = { scanned (8 * data.length - rest.length) with cur := BitVec.ofNat 33 (c + 2 + len.toNat + n) }
      | .error f =>
        t = errorState f.kind f.reason (8 * data.length - f.left) (scanned (8 * data.length - f.left))

/-- 44_scan_sos.md R170, R171, 60_exceptions.md R185 (e), R187: the ways SOS faults before any block: the count byte outside
`IN`, a component count that is not the frame's, a byte of a scan entry outside `IN` or a selector above 1, each after
the selectors before it were stored, a region without an end. -/
def Obligations.SosFaultsBeforeAnyBlock : Prop :=
  ∀ (s : State) (len : Half),
    let c := s.cur.toNat
    let ns := s.ctx.ncomp.toNat
    let good := fun i : Nat => hiNibble (inAt s (c + 6 + 2 * i)) ≤ 1 ∧ loNibble (inAt s (c + 6 + 2 * i)) ≤ 1
    (s.inLen.toNat ≤ c + 4 → exec (.sos len) s = .next (errorState 2 0x02 (c + 4) s)) ∧
    (c + 4 < s.inLen.toNat → inAt s (c + 4) ≠ s.ctx.ncomp →
      exec (.sos len) s = .next (errorState 7 0x0D (c + 4) s)) ∧
    (inAt s (c + 4) = s.ctx.ncomp →
      (∀ i, i < ns → c + 4 + 2 * i < s.inLen.toNat → s.inLen.toNat ≤ c + 6 + 2 * i → (∀ j, j < i → good j) →
        exec (.sos len) s = .next (errorState 2 0x02 s.inLen.toNat
          { s with ctx := { s.ctx with sel := scanSelectors s c i } })) ∧
      (∀ i, i < ns → c + 6 + 2 * i < s.inLen.toNat → (∀ j, j < i → good j) → ¬ good i →
        exec (.sos len) s = .next (errorState 3 0x08 (c + 6 + 2 * i)
          { s with ctx := { s.ctx with sel := scanSelectors s c i } })) ∧
      (c + 4 + 2 * ns < s.inLen.toNat → (∀ j, j < ns → good j) →
        refRegion (inBytesFrom s (c + 2 + len.toNat)) = none →
        ∃ t, exec (.sos len) s = .next t ∧
          t = errorState 2 0x03 (max s.inLen.toNat (c + 2 + len.toNat))
            { s with
              ctx := { s.ctx with sel := scanSelectors s c ns }
              scan := t.scan
              work := t.work }))

/-- 70_reset_and_hazards.md R226, 44_scan_sos.md R172: a frame narrower or lower than 8 decodes no block whatever the
tables and the bits are; the region is still located, copied and skipped. -/
def Obligations.EmptyGridOnlySkipsTheRegion : Prop :=
  ∀ (s : State) (len : Half) (data : List Byte) (n : Nat),
    let c := s.cur.toNat
    let ns := s.ctx.ncomp.toNat
    memWf s.scan → s.ctx.width.toNat < 8 ∨ s.ctx.height.toNat < 8 →
    c + 4 + 2 * ns < s.inLen.toNat → inAt s (c + 4) = s.ctx.ncomp →
    (∀ i, i < ns → hiNibble (inAt s (c + 6 + 2 * i)) ≤ 1 ∧ loNibble (inAt s (c + 6 + 2 * i)) ≤ 1) →
    refRegion (inBytesFrom s (c + 2 + len.toNat)) = some (data, n) →
    ∃ t, exec (.sos len) s = .next t ∧ t.run = s.run ∧ t.out = s.out ∧ t.bitOff = 0 ∧ scanBytes t = data ∧
      t.cur = BitVec.ofNat 33 (c + 2 + len.toNat + n) ∧ t.ctx.ht = s.ctx.ht ∧ t.blk = s.blk ∧ t.err = s.err

/-- 40_bitstream_reader.md R91, 30_encoding.md R70: STUFF stores the data byte `FF` at the next index of `SCAN`, moves
the region cursor past both bytes, and leaves every other byte of `SCAN` and everything else as it was. -/
def Obligations.StuffStoresOneDataByte : Prop :=
  ∀ s : State, memWf s.scan →
    ∃ t, exec .stuff s = .next t ∧ scanAt t s.work.regionLen = 0xFF ∧
      (∀ i, i ≠ s.work.regionLen → scanAt t i = scanAt s i) ∧
      t = { s with
            scan := t.scan
            work := { s.work with regionLen := s.work.regionLen + 1, regionPos := s.work.regionPos + 2 } }

/-- 42_coefficient_decoder.md R121, R124: a DC element whose magnitude bits are there (none for symbol 0) stores the
predictor plus the difference at natural index 0, makes the difference the predictor of its component, and moves
`BITOFF` past the magnitude bits; nothing else changes but `SIZE` and `ACC`. -/
def Obligations.DcElementAddsTheDifference : Prop :=
  ∀ (s : State) (size : Byte) (p diff : Coef) (rest : List Bool),
    let c := s.work.ci.toNat
    tabGet s.ctx.pred c = some p → refValue size (bitsLeft s) = .ok (diff, rest) →
    exec (.dcElem size) s = .next
      { s with
        blk := tabSet s.blk 0 (p + diff)
        ctx := { s.ctx with pred := tabSet s.ctx.pred c diff }
        bitOff := BitVec.ofNat 36 (s.bitOff.toNat + size.toNat)
        work := { s.work with
          size := size
          acc := if size = 0 then s.work.acc
            else BitVec.ofNat 16 (bitsValue ((bitsLeft s).take size.toNat)) } }

/-- 42_coefficient_decoder.md R122, R126: an AC element whose magnitude bits are there stores its value at natural index
`ZZ[K]` and moves `BITOFF` past them; nothing else changes but `SIZE` and `ACC`. -/
def Obligations.AcElementStoresAtZigZag : Prop :=
  ∀ (s : State) (size : Byte) (v : Coef) (rest : List Bool),
    refValue size (bitsLeft s) = .ok (v, rest) →
    exec (.acElem size) s = .next
      { s with
        blk := tabSet s.blk (zz s.work.k.toNat) v
        bitOff := BitVec.ofNat 36 (s.bitOff.toNat + size.toNat)
        work := { s.work with
          size := size
          acc := if size = 0 then s.work.acc
            else BitVec.ofNat 16 (bitsValue ((bitsLeft s).take size.toNat)) } }

/-- 42_coefficient_decoder.md R121, R122, 60_exceptions.md R185 (g): a symbol above 16 raises SizeRange at `BITOFF`
before any magnitude bit is read, and a magnitude that the scan buffer does not hold raises ScanBits at `BITOFF`; only
`SIZE` was written. -/
def Obligations.ElementFaultsKeepTheBlock : Prop :=
  ∀ (s : State) (size : Byte),
    let t := { s with work := { s.work with size := size } }
    (16 < size.toNat →
      exec (.acElem size) s = .next (errorState 7 0x0E s.bitOff.toNat t) ∧
      (s.work.ci.toNat < 255 → exec (.dcElem size) s = .next (errorState 7 0x0E s.bitOff.toNat t))) ∧
    (1 ≤ size.toNat → size.toNat ≤ 16 → 8 * s.scanLen.toNat < s.bitOff.toNat + size.toNat →
      exec (.acElem size) s = .next (errorState 2 0x04 s.bitOff.toNat t) ∧
      (s.work.ci.toNat < 255 → exec (.dcElem size) s = .next (errorState 2 0x04 s.bitOff.toNat t)))

/-- The model's own stop (10_state.md R23, R24: the tables have entries 0 to 254): a DC element of component 255. -/
def Obligations.DcElementOfNoComponentStops : Prop :=
  ∀ (s : State) (size : Byte), s.work.ci = 255 → exec (.dcElem size) s = .fault .noComponent

/-- 42_coefficient_decoder.md R122: EOB writes its symbol 0 to `SIZE` and leaves every coefficient as it was. -/
def Obligations.EobLeavesTheBlock : Prop :=
  ∀ s : State, exec .eob s = .next { s with work := { s.work with size := 0 } }

/-- 42_coefficient_decoder.md R123, 30_encoding.md R71, 60_exceptions.md R183, R187: DECODE_BLOCK does what the reference
reading of the bits left gives, for the component `CI` and the tables it selects: the block, the predictor, the bits
consumed, and nothing else but working registers; where the reading faults, that fault, with the coefficients and the
predictor written before it. -/
def Obligations.DecodeBlockReadsOneCodedBlock : Prop :=
  ∀ (s : State) (k : Selectors) (p : Coef),
    let c := s.work.ci.toNat
    let n := (bitsLeft s).length
    tabGet s.ctx.sel c = some k → tabGet s.ctx.pred c = some p →
    let b := refBlock (treeOf s.ctx.ht .dc k.dc) (treeOf s.ctx.ht .ac k.ac) p (bitsLeft s)
    ∃ w : WorkRegs, w.ci = s.work.ci ∧ w.bx = s.work.bx ∧ w.row = s.work.row ∧
      let decoded := fun read : Nat =>
        { s with
          blk := b.blk
          ctx := { s.ctx with pred := tabSet s.ctx.pred c b.pred }
          bitOff := BitVec.ofNat 36 (s.bitOff.toNat + read)
          work := w }
      match b.bits with
      | .ok rest =>
        decodeBlock.run s = .ok () (decoded (n - rest.length)) ∧ bitsLeft (decoded (n - rest.length)) = rest
      | .error f =>
        decodeBlock.run s =
          .error .raised (errorState f.kind f.reason (s.bitOff.toNat + (n - f.left)) (decoded (n - f.left)))

/-- 42_coefficient_decoder.md R124: two DC elements of one component in a row: the second coefficient is the sum of the
last two differences, whatever the predictor was before, and the predictor is the last difference. -/
def Obligations.PredictorHoldsTheLastDifference : Prop :=
  ∀ (s : State) (size1 size2 : Byte) (d1 d2 : Coef) (rest1 rest2 : List Bool),
    s.work.ci.toNat < 255 →
    refValue size1 (bitsLeft s) = .ok (d1, rest1) → refValue size2 rest1 = .ok (d2, rest2) →
    ∃ t u, exec (.dcElem size1) s = .next t ∧ exec (.dcElem size2) t = .next u ∧
      tabGet u.blk 0 = some (d1 + d2) ∧ tabGet u.ctx.pred s.work.ci.toNat = some d2

/-! ## Invariants that every step keeps -/

/-- The model's own form (log entry 12, a DESIGN CHOICE): both byte memories stay lists of strictly rising addresses. -/
def Obligations.StepKeepsMemoryForm : Prop :=
  ∀ s t : State, MemForm s → step s = .next t → MemForm t

/-- 10_state.md R22: every valid slot keeps a tree of the shape R22 gives. -/
def Obligations.StepKeepsTreesShaped : Prop :=
  ∀ s t : State, TablesShaped s → step s = .next t → TablesShaped t

/-- 10_state.md R12: the byte cursor stays below `2^32 + 65536`, so that no advance wraps. -/
def Obligations.StepKeepsCursorBound : Prop :=
  ∀ s t : State, CursorBound s → step s = .next t → CursorBound t

/-- 10_state.md R13, R25: the scan buffer stays no longer than `IN`, and `BITOFF` inside it. -/
def Obligations.StepKeepsScanBound : Prop :=
  ∀ s t : State, ScanBound s → step s = .next t → ScanBound t

/-- 42_coefficient_decoder.md R125: every predictor stays a decoded difference, so that no DC addition overflows. -/
def Obligations.StepKeepsPredictorsSmall : Prop :=
  ∀ s t : State, PredBound s → step s = .next t → PredBound t

/-- 60_exceptions.md R180 to R183, 93_implementation_defined.md U22: the error registers stay legal, `ERR_KIND` and
`ERR_REASON` are 0 exactly outside `ERROR`, and there `ERR_ADDR` and `ERR_POS` (10_state.md R16) are 0 as well. -/
def Obligations.StepKeepsErrorRegistersLegal : Prop :=
  ∀ s t : State, ErrLegal s → step s = .next t → ErrLegal t

/-- 41_huffman_table.md R105, 60_exceptions.md R183, 70_reset_and_hazards.md R222: a core that halts has released all
four tables. -/
def Obligations.StepKeepsHaltedTablesReleased : Prop :=
  ∀ s t : State, HaltReleased s → step s = .next t → HaltReleased t

/-! ## The whole machine -/

/-- 70_reset_and_hazards.md R229: no behaviour of the core is left open: every step, in every state, ends in a next
state. -/
def Obligations.EveryStepHasANextState : Prop := ∀ s : State, ∃ t, step s = .next t

/-- 20_memory.md R45, R50: no step writes `IN` or `IN_LEN`. -/
def Obligations.NoStepWritesTheInput : Prop :=
  ∀ s t : State, step s = .next t → t.inBuf = s.inBuf ∧ t.inLen = s.inLen

/-- 10_state.md R27: while the core runs, records are only appended to `OUT`, never retracted, on a fault either. -/
def Obligations.OutOnlyGrowsWhileRunning : Prop :=
  ∀ s t : State, s.run = .run → step s = .next t → ∃ recs, t.out = s.out ++ recs

/-- 10_state.md R15: while the core runs, a warning flag once set stays set. -/
def Obligations.WarningFlagsAreSticky : Prop :=
  ∀ s t : State, s.run = .run → step s = .next t →
    (s.wUnsup = true → t.wUnsup = true) ∧ (s.wNcomp = true → t.wNcomp = true)

/-- 43_segment_scanner.md R149: a segment instruction that does not fault moves `pc` forward by at least 2, and one that
faults leaves it at its marker (60_exceptions.md R183). -/
def Obligations.CursorAdvancesOrStaysAtTheFault : Prop :=
  ∀ s t : State, s.run = .run → s.startReq = false → step s = .next t →
    (t.run = .error ∧ t.cur = s.cur) ∨ (t.run ≠ .error ∧ s.cur.toNat + 2 ≤ t.cur.toNat)

/-- 43_segment_scanner.md R149, R151: a run ends in `DONE` or `ERROR` within `IN_LEN / 2 + 1` segment instructions. -/
def Obligations.EveryRunEnds : Prop :=
  ∀ s : State, s.run = .run → s.startReq = false →
    ∃ t : State, Host.Core.run core (s.inLen.toNat / 2 + 1) s = .next t ∧ (t.run = .done ∨ t.run = .error)

/-- 43_segment_scanner.md R151: a step depends on no byte of `IN` at or beyond `IN_LEN`. -/
def Obligations.StepIgnoresBytesBeyondTheBuffer : Prop :=
  ∀ (s t : State) (m : Memory),
    (∀ a, a < s.inLen.toNat → inAt { s with inBuf := m } a = inAt s a) →
    step s = .next t → step { s with inBuf := m } = .next { t with inBuf := m }

/-- 43_segment_scanner.md R140, 70_reset_and_hazards.md R228: nothing of an earlier decode but the scan buffer's bytes,
the block scratch and the working registers survives a START. -/
def Obligations.StartForgetsTheEarlierDecode : Prop :=
  ∀ s u : State, s.inBuf = u.inBuf → s.inLen = u.inLen → s.run ≠ .run → u.run ≠ .run →
    s.startReq = true → u.startReq = true →
    ∃ t v, step s = .next t ∧ step u = .next v ∧
      t = { v with scan := s.scan, blk := s.blk, work := s.work }
end

