-- ==== Sys2Proof/Laws/State.lean ====
section
/-! SUPPORT. What each named update of the state leaves in each field: one lemma per field per update. -/

namespace Sys2Proof.Machine

variable (s : State)

@[simp] theorem setCur_inBuf (a : Nat) : (setCur a s).inBuf = s.inBuf := rfl
@[simp] theorem setCur_inLen (a : Nat) : (setCur a s).inLen = s.inLen := rfl
@[simp] theorem setCur_cur (a : Nat) : (setCur a s).cur = BitVec.ofNat 33 a := rfl
@[simp] theorem setCur_bitOff (a : Nat) : (setCur a s).bitOff = s.bitOff := rfl
@[simp] theorem setCur_run (a : Nat) : (setCur a s).run = s.run := rfl
@[simp] theorem setCur_startReq (a : Nat) : (setCur a s).startReq = s.startReq := rfl
@[simp] theorem setCur_wUnsup (a : Nat) : (setCur a s).wUnsup = s.wUnsup := rfl
@[simp] theorem setCur_wNcomp (a : Nat) : (setCur a s).wNcomp = s.wNcomp := rfl
@[simp] theorem setCur_err (a : Nat) : (setCur a s).err = s.err := rfl
@[simp] theorem setCur_ctx (a : Nat) : (setCur a s).ctx = s.ctx := rfl
@[simp] theorem setCur_scan (a : Nat) : (setCur a s).scan = s.scan := rfl
@[simp] theorem setCur_scanLen (a : Nat) : (setCur a s).scanLen = s.scanLen := rfl
@[simp] theorem setCur_blk (a : Nat) : (setCur a s).blk = s.blk := rfl
@[simp] theorem setCur_work (a : Nat) : (setCur a s).work = s.work := rfl
@[simp] theorem setCur_out (a : Nat) : (setCur a s).out = s.out := rfl

@[simp] theorem setBitOff_inBuf (p : Nat) : (setBitOff p s).inBuf = s.inBuf := rfl
@[simp] theorem setBitOff_inLen (p : Nat) : (setBitOff p s).inLen = s.inLen := rfl
@[simp] theorem setBitOff_cur (p : Nat) : (setBitOff p s).cur = s.cur := rfl
@[simp] theorem setBitOff_bitOff (p : Nat) : (setBitOff p s).bitOff = BitVec.ofNat 36 p := rfl
@[simp] theorem setBitOff_run (p : Nat) : (setBitOff p s).run = s.run := rfl
@[simp] theorem setBitOff_startReq (p : Nat) : (setBitOff p s).startReq = s.startReq := rfl
@[simp] theorem setBitOff_wUnsup (p : Nat) : (setBitOff p s).wUnsup = s.wUnsup := rfl
@[simp] theorem setBitOff_wNcomp (p : Nat) : (setBitOff p s).wNcomp = s.wNcomp := rfl
@[simp] theorem setBitOff_err (p : Nat) : (setBitOff p s).err = s.err := rfl
@[simp] theorem setBitOff_ctx (p : Nat) : (setBitOff p s).ctx = s.ctx := rfl
@[simp] theorem setBitOff_scan (p : Nat) : (setBitOff p s).scan = s.scan := rfl
@[simp] theorem setBitOff_scanLen (p : Nat) : (setBitOff p s).scanLen = s.scanLen := rfl
@[simp] theorem setBitOff_blk (p : Nat) : (setBitOff p s).blk = s.blk := rfl
@[simp] theorem setBitOff_work (p : Nat) : (setBitOff p s).work = s.work := rfl
@[simp] theorem setBitOff_out (p : Nat) : (setBitOff p s).out = s.out := rfl

@[simp] theorem setRun_inBuf (r : RunState) : (setRun r s).inBuf = s.inBuf := rfl
@[simp] theorem setRun_inLen (r : RunState) : (setRun r s).inLen = s.inLen := rfl
@[simp] theorem setRun_cur (r : RunState) : (setRun r s).cur = s.cur := rfl
@[simp] theorem setRun_bitOff (r : RunState) : (setRun r s).bitOff = s.bitOff := rfl
@[simp] theorem setRun_run (r : RunState) : (setRun r s).run = r := rfl
@[simp] theorem setRun_startReq (r : RunState) : (setRun r s).startReq = s.startReq := rfl
@[simp] theorem setRun_wUnsup (r : RunState) : (setRun r s).wUnsup = s.wUnsup := rfl
@[simp] theorem setRun_wNcomp (r : RunState) : (setRun r s).wNcomp = s.wNcomp := rfl
@[simp] theorem setRun_err (r : RunState) : (setRun r s).err = s.err := rfl
@[simp] theorem setRun_ctx (r : RunState) : (setRun r s).ctx = s.ctx := rfl
@[simp] theorem setRun_scan (r : RunState) : (setRun r s).scan = s.scan := rfl
@[simp] theorem setRun_scanLen (r : RunState) : (setRun r s).scanLen = s.scanLen := rfl
@[simp] theorem setRun_blk (r : RunState) : (setRun r s).blk = s.blk := rfl
@[simp] theorem setRun_work (r : RunState) : (setRun r s).work = s.work := rfl
@[simp] theorem setRun_out (r : RunState) : (setRun r s).out = s.out := rfl

@[simp] theorem setCtx_inBuf (f : DecodeContext → DecodeContext) : (setCtx f s).inBuf = s.inBuf := rfl
@[simp] theorem setCtx_inLen (f : DecodeContext → DecodeContext) : (setCtx f s).inLen = s.inLen := rfl
@[simp] theorem setCtx_cur (f : DecodeContext → DecodeContext) : (setCtx f s).cur = s.cur := rfl
@[simp] theorem setCtx_bitOff (f : DecodeContext → DecodeContext) : (setCtx f s).bitOff = s.bitOff := rfl
@[simp] theorem setCtx_run (f : DecodeContext → DecodeContext) : (setCtx f s).run = s.run := rfl
@[simp] theorem setCtx_startReq (f : DecodeContext → DecodeContext) : (setCtx f s).startReq = s.startReq := rfl
@[simp] theorem setCtx_wUnsup (f : DecodeContext → DecodeContext) : (setCtx f s).wUnsup = s.wUnsup := rfl
@[simp] theorem setCtx_wNcomp (f : DecodeContext → DecodeContext) : (setCtx f s).wNcomp = s.wNcomp := rfl
@[simp] theorem setCtx_err (f : DecodeContext → DecodeContext) : (setCtx f s).err = s.err := rfl
@[simp] theorem setCtx_ctx (f : DecodeContext → DecodeContext) : (setCtx f s).ctx = f s.ctx := rfl
@[simp] theorem setCtx_scan (f : DecodeContext → DecodeContext) : (setCtx f s).scan = s.scan := rfl
@[simp] theorem setCtx_scanLen (f : DecodeContext → DecodeContext) : (setCtx f s).scanLen = s.scanLen := rfl
@[simp] theorem setCtx_blk (f : DecodeContext → DecodeContext) : (setCtx f s).blk = s.blk := rfl
@[simp] theorem setCtx_work (f : DecodeContext → DecodeContext) : (setCtx f s).work = s.work := rfl
@[simp] theorem setCtx_out (f : DecodeContext → DecodeContext) : (setCtx f s).out = s.out := rfl

@[simp] theorem setWork_inBuf (f : WorkRegs → WorkRegs) : (setWork f s).inBuf = s.inBuf := rfl
@[simp] theorem setWork_inLen (f : WorkRegs → WorkRegs) : (setWork f s).inLen = s.inLen := rfl
@[simp] theorem setWork_cur (f : WorkRegs → WorkRegs) : (setWork f s).cur = s.cur := rfl
@[simp] theorem setWork_bitOff (f : WorkRegs → WorkRegs) : (setWork f s).bitOff = s.bitOff := rfl
@[simp] theorem setWork_run (f : WorkRegs → WorkRegs) : (setWork f s).run = s.run := rfl
@[simp] theorem setWork_startReq (f : WorkRegs → WorkRegs) : (setWork f s).startReq = s.startReq := rfl
@[simp] theorem setWork_wUnsup (f : WorkRegs → WorkRegs) : (setWork f s).wUnsup = s.wUnsup := rfl
@[simp] theorem setWork_wNcomp (f : WorkRegs → WorkRegs) : (setWork f s).wNcomp = s.wNcomp := rfl
@[simp] theorem setWork_err (f : WorkRegs → WorkRegs) : (setWork f s).err = s.err := rfl
@[simp] theorem setWork_ctx (f : WorkRegs → WorkRegs) : (setWork f s).ctx = s.ctx := rfl
@[simp] theorem setWork_scan (f : WorkRegs → WorkRegs) : (setWork f s).scan = s.scan := rfl
@[simp] theorem setWork_scanLen (f : WorkRegs → WorkRegs) : (setWork f s).scanLen = s.scanLen := rfl
@[simp] theorem setWork_blk (f : WorkRegs → WorkRegs) : (setWork f s).blk = s.blk := rfl
@[simp] theorem setWork_work (f : WorkRegs → WorkRegs) : (setWork f s).work = f s.work := rfl
@[simp] theorem setWork_out (f : WorkRegs → WorkRegs) : (setWork f s).out = s.out := rfl

@[simp] theorem setBlk_inBuf (n : Nat) (v : Coef) : (setBlk n v s).inBuf = s.inBuf := rfl
@[simp] theorem setBlk_inLen (n : Nat) (v : Coef) : (setBlk n v s).inLen = s.inLen := rfl
@[simp] theorem setBlk_cur (n : Nat) (v : Coef) : (setBlk n v s).cur = s.cur := rfl
@[simp] theorem setBlk_bitOff (n : Nat) (v : Coef) : (setBlk n v s).bitOff = s.bitOff := rfl
@[simp] theorem setBlk_run (n : Nat) (v : Coef) : (setBlk n v s).run = s.run := rfl
@[simp] theorem setBlk_startReq (n : Nat) (v : Coef) : (setBlk n v s).startReq = s.startReq := rfl
@[simp] theorem setBlk_wUnsup (n : Nat) (v : Coef) : (setBlk n v s).wUnsup = s.wUnsup := rfl
@[simp] theorem setBlk_wNcomp (n : Nat) (v : Coef) : (setBlk n v s).wNcomp = s.wNcomp := rfl
@[simp] theorem setBlk_err (n : Nat) (v : Coef) : (setBlk n v s).err = s.err := rfl
@[simp] theorem setBlk_ctx (n : Nat) (v : Coef) : (setBlk n v s).ctx = s.ctx := rfl
@[simp] theorem setBlk_scan (n : Nat) (v : Coef) : (setBlk n v s).scan = s.scan := rfl
@[simp] theorem setBlk_scanLen (n : Nat) (v : Coef) : (setBlk n v s).scanLen = s.scanLen := rfl
@[simp] theorem setBlk_blk (n : Nat) (v : Coef) : (setBlk n v s).blk = tabSet s.blk n v := rfl
@[simp] theorem setBlk_work (n : Nat) (v : Coef) : (setBlk n v s).work = s.work := rfl
@[simp] theorem setBlk_out (n : Nat) (v : Coef) : (setBlk n v s).out = s.out := rfl

@[simp] theorem pushOut_inBuf (r : OutRecord) : (pushOut r s).inBuf = s.inBuf := rfl
@[simp] theorem pushOut_inLen (r : OutRecord) : (pushOut r s).inLen = s.inLen := rfl
@[simp] theorem pushOut_cur (r : OutRecord) : (pushOut r s).cur = s.cur := rfl
@[simp] theorem pushOut_bitOff (r : OutRecord) : (pushOut r s).bitOff = s.bitOff := rfl
@[simp] theorem pushOut_run (r : OutRecord) : (pushOut r s).run = s.run := rfl
@[simp] theorem pushOut_startReq (r : OutRecord) : (pushOut r s).startReq = s.startReq := rfl
@[simp] theorem pushOut_wUnsup (r : OutRecord) : (pushOut r s).wUnsup = s.wUnsup := rfl
@[simp] theorem pushOut_wNcomp (r : OutRecord) : (pushOut r s).wNcomp = s.wNcomp := rfl
@[simp] theorem pushOut_err (r : OutRecord) : (pushOut r s).err = s.err := rfl
@[simp] theorem pushOut_ctx (r : OutRecord) : (pushOut r s).ctx = s.ctx := rfl
@[simp] theorem pushOut_scan (r : OutRecord) : (pushOut r s).scan = s.scan := rfl
@[simp] theorem pushOut_scanLen (r : OutRecord) : (pushOut r s).scanLen = s.scanLen := rfl
@[simp] theorem pushOut_blk (r : OutRecord) : (pushOut r s).blk = s.blk := rfl
@[simp] theorem pushOut_work (r : OutRecord) : (pushOut r s).work = s.work := rfl
@[simp] theorem pushOut_out (r : OutRecord) : (pushOut r s).out = s.out ++ [r] := rfl

@[simp] theorem releaseTables_inBuf : (releaseTables s).inBuf = s.inBuf := rfl
@[simp] theorem releaseTables_inLen : (releaseTables s).inLen = s.inLen := rfl
@[simp] theorem releaseTables_cur : (releaseTables s).cur = s.cur := rfl
@[simp] theorem releaseTables_bitOff : (releaseTables s).bitOff = s.bitOff := rfl
@[simp] theorem releaseTables_run : (releaseTables s).run = s.run := rfl
@[simp] theorem releaseTables_startReq : (releaseTables s).startReq = s.startReq := rfl
@[simp] theorem releaseTables_wUnsup : (releaseTables s).wUnsup = s.wUnsup := rfl
@[simp] theorem releaseTables_wNcomp : (releaseTables s).wNcomp = s.wNcomp := rfl
@[simp] theorem releaseTables_err : (releaseTables s).err = s.err := rfl
@[simp] theorem releaseTables_ctx : (releaseTables s).ctx = { s.ctx with ht := HuffTables.released } := rfl
@[simp] theorem releaseTables_scan : (releaseTables s).scan = s.scan := rfl
@[simp] theorem releaseTables_scanLen : (releaseTables s).scanLen = s.scanLen := rfl
@[simp] theorem releaseTables_blk : (releaseTables s).blk = s.blk := rfl
@[simp] theorem releaseTables_work : (releaseTables s).work = s.work := rfl
@[simp] theorem releaseTables_out : (releaseTables s).out = s.out := rfl

@[simp] theorem contextReset_inBuf : (contextReset s).inBuf = s.inBuf := rfl
@[simp] theorem contextReset_inLen : (contextReset s).inLen = s.inLen := rfl
@[simp] theorem contextReset_cur : (contextReset s).cur = s.cur := rfl
@[simp] theorem contextReset_bitOff : (contextReset s).bitOff = s.bitOff := rfl
@[simp] theorem contextReset_run : (contextReset s).run = s.run := rfl
@[simp] theorem contextReset_startReq : (contextReset s).startReq = s.startReq := rfl
@[simp] theorem contextReset_wUnsup : (contextReset s).wUnsup = s.wUnsup := rfl
@[simp] theorem contextReset_wNcomp : (contextReset s).wNcomp = s.wNcomp := rfl
@[simp] theorem contextReset_err : (contextReset s).err = s.err := rfl
@[simp] theorem contextReset_ctx : (contextReset s).ctx = DecodeContext.empty := rfl
@[simp] theorem contextReset_scan : (contextReset s).scan = s.scan := rfl
@[simp] theorem contextReset_scanLen : (contextReset s).scanLen = s.scanLen := rfl
@[simp] theorem contextReset_blk : (contextReset s).blk = s.blk := rfl
@[simp] theorem contextReset_work : (contextReset s).work = s.work := rfl
@[simp] theorem contextReset_out : (contextReset s).out = s.out := rfl

@[simp] theorem faultEntry_inBuf (r : Reason) (pos : Nat) : (faultEntry r pos s).inBuf = s.inBuf := rfl
@[simp] theorem faultEntry_inLen (r : Reason) (pos : Nat) : (faultEntry r pos s).inLen = s.inLen := rfl
@[simp] theorem faultEntry_cur (r : Reason) (pos : Nat) : (faultEntry r pos s).cur = s.cur := rfl
@[simp] theorem faultEntry_bitOff (r : Reason) (pos : Nat) : (faultEntry r pos s).bitOff = s.bitOff := rfl
@[simp] theorem faultEntry_run (r : Reason) (pos : Nat) : (faultEntry r pos s).run = .error := rfl
@[simp] theorem faultEntry_startReq (r : Reason) (pos : Nat) : (faultEntry r pos s).startReq = s.startReq := rfl
@[simp] theorem faultEntry_wUnsup (r : Reason) (pos : Nat) : (faultEntry r pos s).wUnsup = s.wUnsup := rfl
@[simp] theorem faultEntry_wNcomp (r : Reason) (pos : Nat) : (faultEntry r pos s).wNcomp = s.wNcomp := rfl
@[simp] theorem faultEntry_err (r : Reason) (pos : Nat) : (faultEntry r pos s).err = ⟨kindCode (reasonKind r), reasonCode r, s.cur, BitVec.ofNat 36 pos⟩ := rfl
@[simp] theorem faultEntry_ctx (r : Reason) (pos : Nat) : (faultEntry r pos s).ctx = { s.ctx with ht := HuffTables.released } := rfl
@[simp] theorem faultEntry_scan (r : Reason) (pos : Nat) : (faultEntry r pos s).scan = s.scan := rfl
@[simp] theorem faultEntry_scanLen (r : Reason) (pos : Nat) : (faultEntry r pos s).scanLen = s.scanLen := rfl
@[simp] theorem faultEntry_blk (r : Reason) (pos : Nat) : (faultEntry r pos s).blk = s.blk := rfl
@[simp] theorem faultEntry_work (r : Reason) (pos : Nat) : (faultEntry r pos s).work = s.work := rfl
@[simp] theorem faultEntry_out (r : Reason) (pos : Nat) : (faultEntry r pos s).out = s.out := rfl

@[simp] theorem setSlot_inBuf (cls : TabClass) (sel : BitVec 1) (slot : Slot) : (setSlot cls sel slot s).inBuf = s.inBuf := rfl
@[simp] theorem setSlot_inLen (cls : TabClass) (sel : BitVec 1) (slot : Slot) : (setSlot cls sel slot s).inLen = s.inLen := rfl
@[simp] theorem setSlot_cur (cls : TabClass) (sel : BitVec 1) (slot : Slot) : (setSlot cls sel slot s).cur = s.cur := rfl
@[simp] theorem setSlot_bitOff (cls : TabClass) (sel : BitVec 1) (slot : Slot) : (setSlot cls sel slot s).bitOff = s.bitOff := rfl
@[simp] theorem setSlot_run (cls : TabClass) (sel : BitVec 1) (slot : Slot) : (setSlot cls sel slot s).run = s.run := rfl
@[simp] theorem setSlot_startReq (cls : TabClass) (sel : BitVec 1) (slot : Slot) : (setSlot cls sel slot s).startReq = s.startReq := rfl
@[simp] theorem setSlot_wUnsup (cls : TabClass) (sel : BitVec 1) (slot : Slot) : (setSlot cls sel slot s).wUnsup = s.wUnsup := rfl
@[simp] theorem setSlot_wNcomp (cls : TabClass) (sel : BitVec 1) (slot : Slot) : (setSlot cls sel slot s).wNcomp = s.wNcomp := rfl
@[simp] theorem setSlot_err (cls : TabClass) (sel : BitVec 1) (slot : Slot) : (setSlot cls sel slot s).err = s.err := rfl
@[simp] theorem setSlot_ctx (cls : TabClass) (sel : BitVec 1) (slot : Slot) : (setSlot cls sel slot s).ctx = { s.ctx with ht := withSlot s.ctx.ht cls sel slot } := rfl
@[simp] theorem setSlot_scan (cls : TabClass) (sel : BitVec 1) (slot : Slot) : (setSlot cls sel slot s).scan = s.scan := rfl
@[simp] theorem setSlot_scanLen (cls : TabClass) (sel : BitVec 1) (slot : Slot) : (setSlot cls sel slot s).scanLen = s.scanLen := rfl
@[simp] theorem setSlot_blk (cls : TabClass) (sel : BitVec 1) (slot : Slot) : (setSlot cls sel slot s).blk = s.blk := rfl
@[simp] theorem setSlot_work (cls : TabClass) (sel : BitVec 1) (slot : Slot) : (setSlot cls sel slot s).work = s.work := rfl
@[simp] theorem setSlot_out (cls : TabClass) (sel : BitVec 1) (slot : Slot) : (setSlot cls sel slot s).out = s.out := rfl

@[simp] theorem storeScan_inBuf (b : Byte) (n : Nat) : (storeScan b n s).inBuf = s.inBuf := rfl
@[simp] theorem storeScan_inLen (b : Byte) (n : Nat) : (storeScan b n s).inLen = s.inLen := rfl
@[simp] theorem storeScan_cur (b : Byte) (n : Nat) : (storeScan b n s).cur = s.cur := rfl
@[simp] theorem storeScan_bitOff (b : Byte) (n : Nat) : (storeScan b n s).bitOff = s.bitOff := rfl
@[simp] theorem storeScan_run (b : Byte) (n : Nat) : (storeScan b n s).run = s.run := rfl
@[simp] theorem storeScan_startReq (b : Byte) (n : Nat) : (storeScan b n s).startReq = s.startReq := rfl
@[simp] theorem storeScan_wUnsup (b : Byte) (n : Nat) : (storeScan b n s).wUnsup = s.wUnsup := rfl
@[simp] theorem storeScan_wNcomp (b : Byte) (n : Nat) : (storeScan b n s).wNcomp = s.wNcomp := rfl
@[simp] theorem storeScan_err (b : Byte) (n : Nat) : (storeScan b n s).err = s.err := rfl
@[simp] theorem storeScan_ctx (b : Byte) (n : Nat) : (storeScan b n s).ctx = s.ctx := rfl
@[simp] theorem storeScan_scan (b : Byte) (n : Nat) : (storeScan b n s).scan = memWrite s.scan s.work.regionLen b := rfl
@[simp] theorem storeScan_scanLen (b : Byte) (n : Nat) : (storeScan b n s).scanLen = s.scanLen := rfl
@[simp] theorem storeScan_blk (b : Byte) (n : Nat) : (storeScan b n s).blk = s.blk := rfl
@[simp] theorem storeScan_work (b : Byte) (n : Nat) : (storeScan b n s).work = { s.work with regionLen := s.work.regionLen + 1, regionPos := s.work.regionPos + n } := rfl
@[simp] theorem storeScan_out (b : Byte) (n : Nat) : (storeScan b n s).out = s.out := rfl

@[simp] theorem warnUnsup_inBuf (code : Byte) (len : Half) : (warnUnsup code len s).inBuf = s.inBuf := rfl
@[simp] theorem warnUnsup_inLen (code : Byte) (len : Half) : (warnUnsup code len s).inLen = s.inLen := rfl
@[simp] theorem warnUnsup_cur (code : Byte) (len : Half) : (warnUnsup code len s).cur = s.cur := rfl
@[simp] theorem warnUnsup_bitOff (code : Byte) (len : Half) : (warnUnsup code len s).bitOff = s.bitOff := rfl
@[simp] theorem warnUnsup_run (code : Byte) (len : Half) : (warnUnsup code len s).run = s.run := rfl
@[simp] theorem warnUnsup_startReq (code : Byte) (len : Half) : (warnUnsup code len s).startReq = s.startReq := rfl
@[simp] theorem warnUnsup_wUnsup (code : Byte) (len : Half) : (warnUnsup code len s).wUnsup = true := rfl
@[simp] theorem warnUnsup_wNcomp (code : Byte) (len : Half) : (warnUnsup code len s).wNcomp = s.wNcomp := rfl
@[simp] theorem warnUnsup_err (code : Byte) (len : Half) : (warnUnsup code len s).err = s.err := rfl
@[simp] theorem warnUnsup_ctx (code : Byte) (len : Half) : (warnUnsup code len s).ctx = s.ctx := rfl
@[simp] theorem warnUnsup_scan (code : Byte) (len : Half) : (warnUnsup code len s).scan = s.scan := rfl
@[simp] theorem warnUnsup_scanLen (code : Byte) (len : Half) : (warnUnsup code len s).scanLen = s.scanLen := rfl
@[simp] theorem warnUnsup_blk (code : Byte) (len : Half) : (warnUnsup code len s).blk = s.blk := rfl
@[simp] theorem warnUnsup_work (code : Byte) (len : Half) : (warnUnsup code len s).work = s.work := rfl
@[simp] theorem warnUnsup_out (code : Byte) (len : Half) : (warnUnsup code len s).out = s.out ++ [.warn 5 s.cur code len] := rfl

@[simp] theorem warnNcomp_inBuf (nf : Byte) : (warnNcomp nf s).inBuf = s.inBuf := rfl
@[simp] theorem warnNcomp_inLen (nf : Byte) : (warnNcomp nf s).inLen = s.inLen := rfl
@[simp] theorem warnNcomp_cur (nf : Byte) : (warnNcomp nf s).cur = s.cur := rfl
@[simp] theorem warnNcomp_bitOff (nf : Byte) : (warnNcomp nf s).bitOff = s.bitOff := rfl
@[simp] theorem warnNcomp_run (nf : Byte) : (warnNcomp nf s).run = s.run := rfl
@[simp] theorem warnNcomp_startReq (nf : Byte) : (warnNcomp nf s).startReq = s.startReq := rfl
@[simp] theorem warnNcomp_wUnsup (nf : Byte) : (warnNcomp nf s).wUnsup = s.wUnsup := rfl
@[simp] theorem warnNcomp_wNcomp (nf : Byte) : (warnNcomp nf s).wNcomp = true := rfl
@[simp] theorem warnNcomp_err (nf : Byte) : (warnNcomp nf s).err = s.err := rfl
@[simp] theorem warnNcomp_ctx (nf : Byte) : (warnNcomp nf s).ctx = s.ctx := rfl
@[simp] theorem warnNcomp_scan (nf : Byte) : (warnNcomp nf s).scan = s.scan := rfl
@[simp] theorem warnNcomp_scanLen (nf : Byte) : (warnNcomp nf s).scanLen = s.scanLen := rfl
@[simp] theorem warnNcomp_blk (nf : Byte) : (warnNcomp nf s).blk = s.blk := rfl
@[simp] theorem warnNcomp_work (nf : Byte) : (warnNcomp nf s).work = s.work := rfl
@[simp] theorem warnNcomp_out (nf : Byte) : (warnNcomp nf s).out = s.out ++ [.warn 6 s.cur nf 0] := rfl

end Sys2Proof.Machine
end

