-- ==== Sys2Proof/Laws/Prog.lean ====
section
/-! SUPPORT. The laws of programs of operations: how a program runs through a sequence, and how what
its parts can do makes up what the whole can do. -/

namespace Sys2Proof.Machine

variable {α β : Type}

/-! ### Running a sequence -/

theorem bind_run (x : Prog α) (f : α → Prog β) (s : State) :
    (x >>= f).run s = match x.run s with
      | .ok a t => (f a).run t
      | .error e t => .error e t := by
  show EStateM.bind x f s = _
  unfold EStateM.bind EStateM.run
  cases x s <;> rfl

theorem bind_ok {x : Prog α} {f : α → Prog β} {s t : State} {a : α} (h : x.run s = .ok a t) : (x >>= f).run s = (f a).run t := by
  rw [bind_run, h]

theorem bind_error {x : Prog α} {f : α → Prog β} {s t : State} {e : Stop} (h : x.run s = .error e t) :
    (x >>= f).run s = .error e t := by
  rw [bind_run, h]

@[simp] theorem pure_run (a : α) (s : State) : (pure a : Prog α).run s = .ok a s := rfl

@[simp] theorem modify_run (f : State → State) (s : State) : (modify f : Prog PUnit).run s = .ok () (f s) := rfl

@[simp] theorem get_run (s : State) : (get : Prog State).run s = .ok s s := rfl

@[simp] theorem raise_run (r : Reason) (pos : Nat) (s : State) :
    (raise r pos : Prog α).run s = .error .raised (faultEntry r pos s) := rfl

@[simp] theorem getCur_run (s : State) : getCur.run s = .ok s.cur.toNat s := rfl

@[simp] theorem modify_bind_run (f : State → State) (p : PUnit → Prog α) (s : State) :
    ((modify f : Prog PUnit) >>= p).run s = (p ()).run (f s) := rfl

@[simp] theorem get_bind_run (p : State → Prog α) (s : State) : ((get : Prog State) >>= p).run s = (p s).run s := rfl

@[simp] theorem getCur_bind_run (p : Nat → Prog α) (s : State) : (getCur >>= p).run s = (p s.cur.toNat).run s := rfl

@[simp] theorem pure_bind_run (a : α) (p : α → Prog β) (s : State) : ((pure a : Prog α) >>= p).run s = (p a).run s := rfl

@[simp] theorem raise_bind_run (r : Reason) (pos : Nat) (p : α → Prog β) (s : State) :
    ((raise r pos : Prog α) >>= p).run s = .error .raised (faultEntry r pos s) := rfl

theorem bind_assoc_run {γ : Type} (x : Prog α) (f : α → Prog β) (g : β → Prog γ) (s : State) :
    ((x >>= f) >>= g).run s = (x >>= fun a => f a >>= g).run s := by
  rw [bind_run, bind_run, bind_run]
  cases x.run s with
  | ok a t => exact (bind_run (f a) g t).symm
  | error e t => rfl

/-! ### The outcome of a program as a step -/

theorem outcomeOf_ok {p : Prog Unit} {s t : State} (h : p.run s = .ok () t) : outcomeOf p s = .next t := by
  rw [outcomeOf, h]

theorem outcomeOf_raised {p : Prog Unit} {s t : State} (h : p.run s = .error .raised t) : outcomeOf p s = .next t := by
  rw [outcomeOf, h]

theorem outcomeOf_fault {p : Prog Unit} {s t : State} {f : Fault} (h : p.run s = .error (.fault f) t) :
    outcomeOf p s = .fault f := by
  rw [outcomeOf, h]

/-- A step that answers a next state ran its program to the end, or the program raised. -/
theorem outcomeOf_next {p : Prog Unit} {s t : State} (h : outcomeOf p s = .next t) :
    p.run s = .ok () t ∨ p.run s = .error .raised t := by
  unfold outcomeOf at h
  split at h
  · cases h; exact .inl ‹_›
  · cases h; exact .inr ‹_›
  · cases h

/-! ### What a program can do -/

/-- A relation that passes along a sequence. -/
structure Chains (R : State → State → Prop) : Prop where
  refl : ∀ s, R s s
  trans : ∀ s t u, R s t → R t u → R s u

theorem chains_and {R S : State → State → Prop} (hR : Chains R) (hS : Chains S) : Chains fun s t => R s t ∧ S s t :=
  ⟨fun s => ⟨hR.refl s, hS.refl s⟩,
    fun _ _ _ f g => ⟨hR.trans _ _ _ f.1 g.1, hS.trans _ _ _ f.2 g.2⟩⟩

/-- Equality of a view of the state: it is the same after as before. -/
theorem chains_view (f : State → β) : Chains fun s t => f t = f s :=
  ⟨fun _ => rfl, fun _ _ _ h g => g.trans h⟩

/-- From `s` the program ends in one of two ways, and makes no stop of the model's own: it runs to its end, in a state
that `R` relates to `s`, or it enters the error state from such a state. -/
def Ends (R : State → State → Prop) (p : Prog α) (s : State) : Prop :=
  (∃ a t, p.run s = .ok a t ∧ R s t) ∨ ∃ r pos t, p.run s = .error .raised (faultEntry r pos t) ∧ R s t

section
variable {R : State → State → Prop} {s : State}

theorem ends_pure (hR : Chains R) (a : α) : Ends R (pure a : Prog α) s := .inl ⟨a, s, rfl, hR.refl s⟩

theorem ends_modify {f : State → State} (h : R s (f s)) : Ends R (modify f : Prog PUnit) s := .inl ⟨_, _, rfl, h⟩

theorem ends_getCur (hR : Chains R) : Ends R getCur s := .inl ⟨_, s, rfl, hR.refl s⟩

theorem ends_raise (hR : Chains R) (r : Reason) (pos : Nat) : Ends R (raise r pos : Prog α) s :=
  .inr ⟨r, pos, s, rfl, hR.refl s⟩

theorem ends_bind (hR : Chains R) {x : Prog α} {f : α → Prog β} (hx : Ends R x s)
    (hf : ∀ a t, x.run s = .ok a t → R s t → Ends R (f a) t) : Ends R (x >>= f) s := by
  rcases hx with ⟨a, t, hrun, hst⟩ | ⟨r, pos, t, hrun, hst⟩
  · rcases hf a t hrun hst with ⟨b, u, hu, htu⟩ | ⟨r, pos, u, hu, htu⟩
    · exact .inl ⟨b, u, by rw [bind_ok hrun, hu], hR.trans _ _ _ hst htu⟩
    · exact .inr ⟨r, pos, u, by rw [bind_ok hrun, hu], hR.trans _ _ _ hst htu⟩
  · exact .inr ⟨r, pos, t, bind_error hrun, hst⟩

theorem ends_get_bind {f : State → Prog α} (h : Ends R (f s) s) : Ends R (get >>= f) s := h

theorem ends_ite {c : Prop} [Decidable c] {p q : Prog α} (hp : c → Ends R p s) (hq : ¬ c → Ends R q s) :
    Ends R (if c then p else q) s := by
  split
  · exact hp ‹_›
  · exact hq ‹_›

/-- A loop, each of whose bodies ends so from every state the loop can have reached. -/
theorem ends_forRange (hR : Chains R) (f : Nat → Prog Unit) (n start : Nat)
    (hf : ∀ i t, start ≤ i → i < start + n → R s t → Ends R (f i) t) : Ends R (forRange n start f) s := by
  induction n generalizing start s with
  | zero => exact ends_pure hR ()
  | succ n ih =>
    refine ends_bind hR (hf start s (Nat.le_refl _) (by omega) (hR.refl s)) fun _ t _ hst => ?_
    exact ih (start + 1) fun i u h1 h2 htu => hf i u (by omega) (by omega) (hR.trans _ _ _ hst htu)

theorem ends_mono {R S : State → State → Prop} {p : Prog α} (h : ∀ t, R s t → S s t) (hp : Ends R p s) : Ends S p s := by
  rcases hp with ⟨a, t, hrun, hst⟩ | ⟨r, pos, t, hrun, hst⟩
  · exact .inl ⟨a, t, hrun, h t hst⟩
  · exact .inr ⟨r, pos, t, hrun, h t hst⟩

end

/-! ### The counted loop -/

@[simp] theorem forRange_zero (start : Nat) (f : Nat → Prog Unit) (s : State) : (forRange 0 start f).run s = .ok () s := rfl

theorem forRange_succ (n start : Nat) (f : Nat → Prog Unit) (s : State) :
    (forRange (n + 1) start f).run s = (f start >>= fun _ => forRange n (start + 1) f).run s := rfl

/-- A loop whose bodies all run to their ends: it runs to its end, and leaves what `g` says of the number of rounds. -/
theorem forRange_ok {f : Nat → Prog Unit} {g : Nat → State} (n start : Nat)
    (h : ∀ i, i < n → (f (start + i)).run (g i) = .ok () (g (i + 1))) : (forRange n start f).run (g 0) = .ok () (g n) := by
  induction n generalizing start g with
  | zero => rfl
  | succ n ih =>
    rw [forRange_succ, bind_ok (by simpa using h 0 (by omega))]
    exact ih (g := fun i => g (i + 1)) (start + 1) fun i hi => by
      have := h (i + 1) (by omega)
      rwa [show start + (i + 1) = start + 1 + i by omega] at this

/-- A loop that a body stops: the rounds before it ran, and the loop ends as that body does. -/
theorem forRange_error {f : Nat → Prog Unit} {g : Nat → State} {e : Stop} {t : State} (n start m : Nat) (hm : m < n)
    (h : ∀ i, i < m → (f (start + i)).run (g i) = .ok () (g (i + 1))) (hstop : (f (start + m)).run (g m) = .error e t) :
    (forRange n start f).run (g 0) = .error e t := by
  induction m generalizing n start g with
  | zero =>
    obtain ⟨n, rfl⟩ : ∃ k, n = k + 1 := ⟨n - 1, by omega⟩
    rw [forRange_succ, bind_error (by simpa using hstop)]
  | succ m ih =>
    obtain ⟨n, rfl⟩ : ∃ k, n = k + 1 := ⟨n - 1, by omega⟩
    rw [forRange_succ, bind_ok (by simpa using h 0 (by omega))]
    refine ih (g := fun i => g (i + 1)) n (start + 1) (by omega) (fun i hi => ?_) ?_
    · have := h (i + 1) (by omega)
      rwa [show start + (i + 1) = start + 1 + i by omega] at this
    · rwa [show start + (m + 1) = start + 1 + m by omega] at hstop

end Sys2Proof.Machine
end

