-- ==== Sys2Proof/Laws/Tab.lean ====
section
/-! SUPPORT. The laws of the containers: reading a table after a write, and reading a memory after a write; every memory
operation keeps the canonical form. -/

namespace Sys2Proof.Machine

/-! ### Tables -/

theorem tab_ext {α : Type} {n : Nat} {t u : Tab α n} (h : ∀ i : Nat, tabGet t i = tabGet u i) : t = u := by
  cases t; cases u
  simp only [tabGet] at h
  simp only [Tab.mk.injEq]
  exact List.ext_getElem? h

@[simp] theorem tabGet_fill {α : Type} (n i : Nat) (v : α) :
    tabGet (tabFill n v) i = if i < n then some v else none := by
  simp [tabGet, tabFill, List.getElem?_replicate]

theorem tabGet_eq_none {α : Type} {n : Nat} (t : Tab α n) {i : Nat} (h : n ≤ i) : tabGet t i = none := by
  simp [tabGet, t.length_eq, h]

theorem tabGet_isSome {α : Type} {n : Nat} (t : Tab α n) {i : Nat} (h : i < n) : ∃ v, tabGet t i = some v :=
  ⟨t.cells[i]'(by rw [t.length_eq]; exact h), by simp [tabGet, t.length_eq, h]⟩

theorem tabGet_set {α : Type} {n : Nat} (t : Tab α n) (i j : Nat) (v : α) :
    tabGet (tabSet t i v) j = if i = j ∧ i < n then some v else tabGet t j := by
  simp only [tabGet, tabSet, List.getElem?_set, t.length_eq]
  by_cases hij : i = j
  · subst hij
    by_cases hi : i < n
    · simp [hi]
    · simp [hi, t.length_eq]
  · simp [hij]

@[simp] theorem tabGet_set_self {α : Type} {n : Nat} (t : Tab α n) {i : Nat} (v : α) (h : i < n) :
    tabGet (tabSet t i v) i = some v := by
  rw [tabGet_set, if_pos ⟨rfl, h⟩]

@[simp] theorem tabGet_set_ne {α : Type} {n : Nat} (t : Tab α n) {i j : Nat} (v : α) (h : i ≠ j) :
    tabGet (tabSet t i v) j = tabGet t j := by
  rw [tabGet_set, if_neg (fun c => h c.1)]

theorem tabSet_set {α : Type} {n : Nat} (t : Tab α n) (i : Nat) (v w : α) :
    tabSet (tabSet t i v) i w = tabSet t i w := by
  simp [tabSet]

theorem tabGet_fillFrom {α : Type} {n : Nat} (t : Tab α n) (i j : Nat) (v : α) :
    tabGet (tabFillFrom t i v) j = if j < n then (if j < i then tabGet t j else some v) else none := by
  have hl := t.length_eq
  simp only [tabGet, tabFillFrom, List.getElem?_append, List.length_take, List.getElem?_take,
    List.getElem?_replicate, hl]
  by_cases hjn : j < n
  · by_cases hji : j < i
    · rw [if_pos (by omega), if_pos hji, if_pos hjn, if_pos hji]
    · rw [if_neg (by omega), if_pos (by omega), if_pos hjn, if_neg hji]
  · rw [if_neg (by omega), if_neg (by omega), if_neg hjn]

/-! ### Memories -/

theorem memRead_write (m : Memory) (a b : Nat) (v : Byte) (h : memWf m) :
    memRead (memWrite m a v) b = if a = b then some v else memRead m b := by
  induction m with
  | nil =>
    simp only [memWrite, memRead]
    split <;> [rfl; simp]
  | cons c rest ih =>
    obtain ⟨k, w⟩ := c
    have hr : memWf rest := (List.pairwise_cons.1 h).2
    simp only [memWrite]
    by_cases hka : k = a
    · subst hka
      simp only [if_true, memRead]
      by_cases hkb : k = b
      · simp [hkb]
      · simp only [if_neg hkb]
    · rw [if_neg hka]
      by_cases hak : a < k
      · rw [if_pos hak]
        simp only [memRead]
        by_cases hab : a = b
        · simp [hab]
        · rw [if_neg hab, if_neg hab]
          by_cases hba : b < a
          · rw [if_pos hba, if_neg (by omega), if_pos (by omega)]
          · rw [if_neg hba]
      · rw [if_neg hak]
        simp only [memRead, ih hr]
        by_cases hkb : k = b
        · rw [if_pos hkb, if_pos hkb, if_neg (by omega)]
        · rw [if_neg hkb, if_neg hkb]
          by_cases hbk : b < k
          · rw [if_pos hbk, if_pos hbk, if_neg (by omega)]
          · rw [if_neg hbk, if_neg hbk]

theorem memWrite_keys (m : Memory) (a : Nat) (v : Byte) (c : Host.Cell) (h : c ∈ memWrite m a v) :
    c.1 = a ∨ c ∈ m := by
  induction m with
  | nil => simp [memWrite] at h; exact .inl (by rw [h])
  | cons d rest ih =>
    obtain ⟨k, w⟩ := d
    simp only [memWrite] at h
    split at h
    · rcases List.mem_cons.1 h with h | h
      · exact .inl (by rw [h])
      · exact .inr (List.mem_cons_of_mem _ h)
    · split at h
      · rcases List.mem_cons.1 h with h | h
        · exact .inl (by rw [h])
        · exact .inr h
      · rcases List.mem_cons.1 h with h | h
        · exact .inr (by rw [h]; exact List.mem_cons_self)
        · exact (ih h).imp_right (List.mem_cons_of_mem _)

theorem memWrite_wf (m : Memory) (a : Nat) (v : Byte) (h : memWf m) : memWf (memWrite m a v) := by
  induction m with
  | nil => simp [memWrite, memWf]
  | cons d rest ih =>
    obtain ⟨k, w⟩ := d
    obtain ⟨hk, hr⟩ := List.pairwise_cons.1 h
    simp only [memWrite]
    split
    · rename_i hka
      exact List.pairwise_cons.2 ⟨fun c hc => by simpa [hka] using hk c hc, hr⟩
    · split
      · rename_i hak
        refine List.pairwise_cons.2 ⟨fun c hc => ?_, h⟩
        rcases List.mem_cons.1 hc with rfl | hc
        · exact hak
        · exact Nat.lt_trans hak (hk c hc)
      · refine List.pairwise_cons.2 ⟨fun c hc => ?_, ih hr⟩
        rcases memWrite_keys _ _ _ _ hc with hc | hc
        · show k < c.1
          rw [hc]; omega
        · exact hk c hc

theorem memLoad_wf (m : Memory) (a : Nat) (bs : List Byte) (h : memWf m) : memWf (memLoad m a bs) := by
  induction bs generalizing m a with
  | nil => exact h
  | cons b bs ih => exact ih _ _ (memWrite_wf _ _ _ h)

theorem memRead_load_lt (m : Memory) (a b : Nat) (bs : List Byte) (h : memWf m) (hb : b < a) :
    memRead (memLoad m a bs) b = memRead m b := by
  induction bs generalizing m a with
  | nil => rfl
  | cons c bs ih =>
    rw [memLoad, ih _ _ (memWrite_wf _ _ _ h) (by omega), memRead_write _ _ _ _ h, if_neg (by omega)]

/-- What a load leaves: the loaded bytes at their addresses, every other address as before. -/
theorem memRead_load (m : Memory) (a b : Nat) (bs : List Byte) (h : memWf m) :
    memRead (memLoad m a bs) b = if a ≤ b ∧ b < a + bs.length then bs[b - a]? else memRead m b := by
  induction bs generalizing m a with
  | nil => rw [if_neg (by simp)]; rfl
  | cons c bs ih =>
    rw [memLoad, ih _ _ (memWrite_wf _ _ _ h), memRead_write _ _ _ _ h]
    by_cases hab : a = b
    · subst hab
      rw [if_neg (by omega), if_pos rfl, if_pos (by simp)]
      simp
    · rw [if_neg hab]
      by_cases hr : a ≤ b ∧ b < a + (c :: bs).length
      · have hs : b - a = (b - (a + 1)) + 1 := by omega
        rw [if_pos hr, if_pos (by simp only [List.length_cons] at hr; omega), hs, List.getElem?_cons_succ]
      · rw [if_neg hr, if_neg (by simp only [List.length_cons] at hr; omega)]

/-- Two canonical memories that read alike at every address are equal data. -/
theorem mem_ext (m n : Memory) (hm : memWf m) (hn : memWf n) (h : ∀ a, memRead m a = memRead n a) : m = n := by
  induction m generalizing n with
  | nil =>
    cases n with
    | nil => rfl
    | cons d rest => obtain ⟨k, w⟩ := d; simpa [memRead] using h k
  | cons c m ih =>
    obtain ⟨k, v⟩ := c
    obtain ⟨hk, hm'⟩ := List.pairwise_cons.1 hm
    cases n with
    | nil => simpa [memRead] using h k
    | cons d n =>
      obtain ⟨l, w⟩ := d
      obtain ⟨hl, hn'⟩ := List.pairwise_cons.1 hn
      have hkl : k = l := by
        have h1 := h k
        have h2 := h l
        simp only [memRead, if_true] at h1 h2
        by_contra hne
        rcases Nat.lt_or_gt_of_ne hne with hlt | hlt
        · rw [if_neg (by omega), if_pos hlt] at h1; exact absurd h1 (by simp)
        · rw [if_neg hne, if_pos hlt] at h2; exact absurd h2 (by simp)
      subst hkl
      have hv : v = w := by have := h k; simpa [memRead] using this
      subst hv
      have below : ∀ (p : Memory), (∀ x ∈ p, k < x.1) → ∀ a, a ≤ k → memRead p a = none := by
        intro p hp a ha
        cases p with
        | nil => rfl
        | cons x p =>
          have := hp x List.mem_cons_self
          obtain ⟨j, u⟩ := x
          simp only at this
          simp only [memRead]
          rw [if_neg (by omega), if_pos (by omega)]
      rw [ih n hm' hn' fun a => ?_]
      rcases Nat.lt_or_ge k a with hka | hka
      · have := h a
        simpa only [memRead, if_neg (show ¬ k = a by omega), if_neg (show ¬ a < k by omega)] using this
      · rw [below m hk a hka, below n hl a hka]

end Sys2Proof.Machine
end

