-- ==== Sys2Proof/Laws/Ops.lean ====
section
/-! SUPPORT. What each shared operation over `IN` and the state can do: it answers, or it enters the error state. -/

namespace Sys2Proof.Machine

/-- Fault entry as the error state with its numbers written out. -/
theorem faultEntry_eq (r : Reason) (pos : Nat) (s : State) :
    faultEntry r pos s = errorState (kindCode (reasonKind r)) (reasonCode r) pos s := rfl

/-! ### Reads of `IN` -/

theorem inByte_ok {s : State} {r : Reason} {a : Nat} (h : a < s.inLen.toNat) : (inByte r a).run s = .ok (inAt s a) s := by
  unfold inByte
  simp [h]

theorem inByte_stop {s : State} {r : Reason} {a : Nat} (h : s.inLen.toNat ≤ a) :
    (inByte r a).run s = .error .raised (faultEntry r a s) := by
  unfold inByte
  simp [Nat.not_lt.2 h]

theorem inByte_bind_ok {α : Type} {s : State} {r : Reason} {a : Nat} {p : Byte → Prog α} (h : a < s.inLen.toNat) :
    (inByte r a >>= p).run s = (p (inAt s a)).run s := bind_ok (inByte_ok h)

theorem inByte_bind_stop {α : Type} {s : State} {r : Reason} {a : Nat} {p : Byte → Prog α} (h : s.inLen.toNat ≤ a) :
    (inByte r a >>= p).run s = .error .raised (faultEntry r a s) := bind_error (inByte_stop h)

theorem inU16_ok {s : State} {r : Reason} {a : Nat} (h : a + 1 < s.inLen.toNat) :
    (inU16 r a).run s = .ok (be16 (inAt s a) (inAt s (a + 1))) s := by
  unfold inU16
  rw [inByte_bind_ok (by omega), inByte_bind_ok h, pure_run]

theorem inU16_stop_first {s : State} {r : Reason} {a : Nat} (h : s.inLen.toNat ≤ a) :
    (inU16 r a).run s = .error .raised (faultEntry r a s) := by
  unfold inU16
  rw [inByte_bind_stop h]

theorem inU16_stop_second {s : State} {r : Reason} {a : Nat} (h : s.inLen.toNat = a + 1) :
    (inU16 r a).run s = .error .raised (faultEntry r (a + 1) s) := by
  unfold inU16
  rw [inByte_bind_ok (by omega), inByte_bind_stop (by omega)]

theorem inU16_bind_ok {α : Type} {s : State} {r : Reason} {a : Nat} {p : Half → Prog α} (h : a + 1 < s.inLen.toNat) :
    (inU16 r a >>= p).run s = (p (be16 (inAt s a) (inAt s (a + 1)))).run s := bind_ok (inU16_ok h)

/-- A big-endian field as a number (R42). -/
theorem be16_eq (hi lo : Byte) : be16 hi lo = BitVec.ofNat 16 (256 * hi.toNat + lo.toNat) := by
  apply BitVec.eq_of_toNat_eq
  have h1 := hi.isLt
  have h2 := lo.isLt
  rw [be16, BitVec.toNat_append, BitVec.toNat_ofNat, Nat.mod_eq_of_lt (by omega),
    Nat.shiftLeft_eq, Nat.mul_comm, ← Nat.two_pow_add_eq_or_of_lt h2]

/-- The bytes of `IN` that a state shows depend on nothing but what the host loaded. -/
theorem inAt_congr {s t : State} (h : t.inBuf = s.inBuf) (a : Nat) : inAt t a = inAt s a := by
  rw [inAt, inAt, h]

@[simp] theorem inAt_setCtx (f : DecodeContext → DecodeContext) (s : State) (a : Nat) :
    inAt (setCtx f s) a = inAt s a := rfl
@[simp] theorem inAt_setWork (f : WorkRegs → WorkRegs) (s : State) (a : Nat) : inAt (setWork f s) a = inAt s a := rfl
@[simp] theorem inAt_setSlot (cls : TabClass) (sel : BitVec 1) (x : Slot) (s : State) (a : Nat) :
    inAt (setSlot cls sel x s) a = inAt s a := rfl
@[simp] theorem inAt_contextReset (s : State) (a : Nat) : inAt (contextReset s) a = inAt s a := rfl
@[simp] theorem inAt_warnNcomp (nf : Byte) (s : State) (a : Nat) : inAt (warnNcomp nf s) a = inAt s a := rfl

/-- A field split into its bytes and assembled again. -/
@[simp] theorem be16_high_low (h : Half) : be16 (highByte h) (lowByte h) = h := by
  apply BitVec.eq_of_getLsbD_eq
  intro i hi
  simp only [be16, highByte, lowByte, BitVec.getLsbD_append, BitVec.getLsbD_extractLsb']
  by_cases h8 : i < 8
  · simp [h8]
  · simp [h8, show i - 8 < 8 by omega, show 8 + (i - 8) = i by omega]

@[simp] theorem highByte_be16 (hi lo : Byte) : highByte (be16 hi lo) = hi := by
  apply BitVec.eq_of_getLsbD_eq
  intro i h8
  rw [highByte, BitVec.getLsbD_extractLsb', be16, BitVec.getLsbD_append]
  simp [h8]

@[simp] theorem lowByte_be16 (hi lo : Byte) : lowByte (be16 hi lo) = lo := by
  apply BitVec.eq_of_getLsbD_eq
  intro i h8
  rw [lowByte, BitVec.getLsbD_extractLsb', be16, BitVec.getLsbD_append]
  simp [h8]

@[simp] theorem advance_run (c : Nat) (len : Half) (s : State) :
    (advance c len).run s = .ok () (setCur (c + 2 + len.toNat) s) := rfl

/-! ### What a fetch sees -/

theorem inWindow_eq_nil {s : State} {n a : Nat} (h : s.inLen.toNat ≤ a) : inWindow s n a = [] := by
  cases n with
  | zero => rfl
  | succ n => rw [inWindow, if_neg (by omega)]

theorem inWindow_succ {s : State} {n a : Nat} (h : a < s.inLen.toNat) :
    inWindow s (n + 1) a = inAt s a :: inWindow s n (a + 1) := by
  rw [inWindow, if_pos h]

/-- FETCH answers the decoded instruction and changes nothing, or raises at the first missing byte. -/
theorem fetch_run (s : State) :
    fetch.run s = match decode (inWindow s 4 s.cur.toNat) with
      | .ok (i, _) => .ok i s
      | .error e => .error .raised (faultEntry .inRead (s.cur.toNat + e.offset) s) := by
  unfold fetch
  rw [get_bind_run]
  split <;> simp_all

/-- The component of `CI`: its index below 255, or the model's own stop. -/
theorem component_run (s : State) :
    component.run s = if s.work.ci.toNat < 255 then .ok s.work.ci.toNat s else .error (.fault .noComponent) s := by
  unfold component
  rw [get_bind_run]
  split <;> rfl

/-! ### What the reads can do -/

variable {R : State → State → Prop} {s : State}

theorem ends_inByte (hR : Chains R) (r : Reason) (a : Nat) : Ends R (inByte r a) s := by
  by_cases h : a < s.inLen.toNat
  · exact .inl ⟨_, _, inByte_ok h, hR.refl s⟩
  · exact .inr ⟨_, _, _, inByte_stop (Nat.not_lt.1 h), hR.refl s⟩

theorem ends_inU16 (hR : Chains R) (r : Reason) (a : Nat) : Ends R (inU16 r a) s :=
  ends_bind hR (ends_inByte hR r a) fun _ _ _ _ => ends_bind hR (ends_inByte hR r (a + 1)) fun _ _ _ _ => ends_pure hR _

end Sys2Proof.Machine
end

