-- ==== Sys2Proof/Laws/Bitstream.lean ====
section
/-! SUPPORT. The laws of the Bitstream Reader: the bits of `SCAN` as a list, READ_BITS and the cursor advance, the store
of the DESTUFF loop, and what each can do. -/

namespace Sys2Proof.Machine

/-! ### The bits of `SCAN` as a list -/

theorem byteBits_length (b : Byte) : (byteBits b).length = 8 := rfl

theorem byteBits_getElem? (b : Byte) {j : Nat} (h : j < 8) : (byteBits b)[j]? = some (b.getLsbD (7 - j)) := by
  have : j = 0 ∨ j = 1 ∨ j = 2 ∨ j = 3 ∨ j = 4 ∨ j = 5 ∨ j = 6 ∨ j = 7 := by omega
  rcases this with rfl | rfl | rfl | rfl | rfl | rfl | rfl | rfl <;> rfl

theorem flatBits_length (l : List Byte) : (l.flatMap byteBits).length = 8 * l.length := by
  induction l with
  | nil => rfl
  | cons b l ih => rw [List.flatMap_cons, List.length_append, ih, byteBits_length, List.length_cons]; omega

/-- Bit `p` of a byte list is bit `7 - (p mod 8)` of byte `p div 8` (R43). -/
theorem flatBits_getElem? (l : List Byte) (p : Nat) :
    (l.flatMap byteBits)[p]? = (l[p / 8]?).map fun b => b.getLsbD (7 - p % 8) := by
  induction l generalizing p with
  | nil => simp
  | cons b l ih =>
    rw [List.flatMap_cons]
    by_cases hp : p < 8
    · rw [List.getElem?_append_left (by rw [byteBits_length]; exact hp), byteBits_getElem? b hp,
        Nat.div_eq_of_lt hp, Nat.mod_eq_of_lt hp]
      rfl
    · rw [List.getElem?_append_right (by rw [byteBits_length]; omega), ih, byteBits_length,
        show p / 8 = (p - 8) / 8 + 1 by omega, List.getElem?_cons_succ, show (p - 8) % 8 = p % 8 by omega]

theorem scanBytes_length (s : State) : (scanBytes s).length = s.scanLen.toNat := by
  simp [scanBytes]

theorem scanBits_getElem? (s : State) {p : Nat} (h : p < 8 * s.scanLen.toNat) :
    ((scanBytes s).flatMap byteBits)[p]? = some (scanBit s p) := by
  rw [flatBits_getElem?, scanBytes, List.getElem?_map, List.getElem?_range (by omega)]
  rfl

theorem bitsLeft_length (s : State) : (bitsLeft s).length = 8 * s.scanLen.toNat - s.bitOff.toNat := by
  rw [bitsLeft, List.length_drop, flatBits_length, scanBytes_length]

/-- The next `n` bits left are the bits of `SCAN` at `BITOFF`, `BITOFF + 1`, … -/
theorem bitsLeft_take (s : State) {n : Nat} (h : s.bitOff.toNat + n ≤ 8 * s.scanLen.toNat) :
    (bitsLeft s).take n = (List.range' s.bitOff.toNat n).map (scanBit s) := by
  apply List.ext_getElem?
  intro i
  by_cases hi : i < n
  · rw [List.getElem?_take_of_lt hi, bitsLeft, List.getElem?_drop, scanBits_getElem? s (by omega),
      List.getElem?_map, List.getElem?_range' hi]
    simp
  · rw [List.getElem?_take_eq_none (by omega), List.getElem?_eq_none (by simp; omega)]

/-- Moving `BITOFF` by `n` bits that are there drops them from the bits left; what else changes does not matter. -/
theorem bitsLeft_advance {s t : State} {n : Nat} (hs : scanBytes t = scanBytes s)
    (hb : t.bitOff = BitVec.ofNat 36 (s.bitOff.toNat + n)) (h : s.bitOff.toNat + n ≤ 8 * s.scanLen.toNat) :
    bitsLeft t = (bitsLeft s).drop n := by
  have hlen := s.scanLen.isLt
  rw [bitsLeft, bitsLeft, hs, hb, List.drop_drop, BitVec.toNat_ofNat, Nat.mod_eq_of_lt (by omega)]

/-! ### READ_BITS -/

theorem bitsValue_lt (bits : List Bool) : bitsValue bits < 2 ^ bits.length := by
  have gen : ∀ (bits : List Bool) (v : Nat),
      bits.foldl (fun v b => 2 * v + b.toNat) v < (v + 1) * 2 ^ bits.length := by
    intro bits
    induction bits with
    | nil => intro v; simp
    | cons b bits ih =>
      intro v
      refine Nat.lt_of_lt_of_le (ih _) ?_
      rw [List.length_cons, Nat.pow_succ, Nat.mul_comm (2 ^ bits.length) 2, ← Nat.mul_assoc]
      exact Nat.mul_le_mul_right _ (by cases b <;> simp <;> omega)
  simpa [bitsValue] using gen bits 0

/-- `ACC` after the loop of READ_BITS holds the number the bits spell, modulo its width. -/
theorem accumulate_eq (s : State) (n p : Nat) :
    accumulate s n p 0 = BitVec.ofNat 16 (bitsValue ((List.range' p n).map (scanBit s))) := by
  have gen : ∀ (n p v : Nat), accumulate s n p (BitVec.ofNat 16 v) =
      BitVec.ofNat 16 (((List.range' p n).map (scanBit s)).foldl (fun v b => 2 * v + b.toNat) v) := by
    intro n
    induction n with
    | zero => intro p v; rfl
    | succ n ih =>
      intro p v
      rw [accumulate, List.range'_succ, List.map_cons, List.foldl_cons, ← ih]
      congr 1
      cases scanBit s p <;> simp [BitVec.ofNat_add, BitVec.ofNat_mul]
  exact gen n p 0

theorem readBits_ok {s : State} {n : Nat} (h : s.bitOff.toNat + n ≤ 8 * s.scanLen.toNat) :
    (readBits n).run s =
      .ok (accumulate s n s.bitOff.toNat 0).toNat
        (setWork (fun w => { w with acc := accumulate s n s.bitOff.toNat 0 }) s) := by
  unfold readBits
  rw [get_bind_run, if_neg (by omega)]
  rfl

theorem readBits_stop {s : State} {n : Nat} (h : 8 * s.scanLen.toNat < s.bitOff.toNat + n) :
    (readBits n).run s = .error .raised (faultEntry .scanBits s.bitOff.toNat s) := by
  unfold readBits
  rw [get_bind_run, if_pos h, raise_run]

theorem takeBits_ok {s : State} {n : Nat} (h : s.bitOff.toNat + n ≤ 8 * s.scanLen.toNat) :
    (takeBits n).run s =
      .ok (accumulate s n s.bitOff.toNat 0).toNat
        (setBitOff (s.bitOff.toNat + n) (setWork (fun w => { w with acc := accumulate s n s.bitOff.toNat 0 }) s)) := by
  unfold takeBits
  rw [bind_ok (readBits_ok h)]
  rfl

theorem takeBits_stop {s : State} {n : Nat} (h : 8 * s.scanLen.toNat < s.bitOff.toNat + n) :
    (takeBits n).run s = .error .raised (faultEntry .scanBits s.bitOff.toNat s) := by
  unfold takeBits
  rw [bind_error (readBits_stop h)]

/-! ### The stores of DESTUFF -/

theorem scanAt_storeScan (b : Byte) (step : Nat) (s : State) (i : Nat) (h : memWf s.scan) :
    scanAt (storeScan b step s) i = if s.work.regionLen = i then b else scanAt s i := by
  have hr := memRead_write s.scan s.work.regionLen i b h
  show (memRead (memWrite s.scan s.work.regionLen b) i).getD _ = _
  rw [hr]
  split <;> rfl

theorem storeScan_memWf (b : Byte) (step : Nat) (s : State) (h : memWf s.scan) : memWf (storeScan b step s).scan :=
  memWrite_wf _ _ _ h

/-- DESTUFF whose loop runs to its end answers the region cursor and writes `SCAN_LEN` (R91). -/
theorem destuff_ok {e0 : Nat} {s t : State}
    (h : (destuffLoop (s.inLen.toNat - e0)).run (setWork (fun w => { w with regionPos := e0, regionLen := 0 }) s)
      = .ok () t) :
    (destuff e0).run s = .ok t.work.regionPos { t with scanLen := BitVec.ofNat 32 t.work.regionLen } := by
  unfold destuff
  rw [modify_bind_run, get_bind_run]
  exact bind_ok h

theorem destuff_error {e0 : Nat} {s t : State} {e : Stop}
    (h : (destuffLoop (s.inLen.toNat - e0)).run (setWork (fun w => { w with regionPos := e0, regionLen := 0 }) s)
      = .error e t) :
    (destuff e0).run s = .error e t := by
  unfold destuff
  rw [modify_bind_run, get_bind_run]
  exact bind_error h

/-! ### What the operations can do -/

variable {R : State → State → Prop} {s : State}

theorem ends_takeBits (hR : Chains R) (n : Nat)
    (hok : s.bitOff.toNat + n ≤ 8 * s.scanLen.toNat →
      ∀ acc, R s (setBitOff (s.bitOff.toNat + n) (setWork (fun w => { w with acc := acc }) s))) :
    Ends R (takeBits n) s := by
  by_cases h : s.bitOff.toNat + n ≤ 8 * s.scanLen.toNat
  · exact .inl ⟨_, _, takeBits_ok h, hok h _⟩
  · exact .inr ⟨_, _, _, takeBits_stop (Nat.lt_of_not_le h), hR.refl s⟩

/-- The DESTUFF loop stores bytes and moves its cursors, or raises. -/
theorem ends_destuffLoop (hR : Chains R) (hst : ∀ s b step, R s (storeScan b step s)) (fuel : Nat) :
    Ends R (destuffLoop fuel) s := by
  induction fuel generalizing s with
  | zero => exact ends_get_bind (ends_raise hR _ _)
  | succ fuel ih =>
    refine ends_get_bind ?_
    split
    · exact ends_raise hR _ _
    · exact ends_bind hR (ends_modify (hst s _ _)) fun _ _ _ _ => ih
    · exact ends_bind hR (ends_modify (hst s _ _)) fun _ _ _ _ => ih
    · exact ends_pure hR _

end Sys2Proof.Machine
end

