-- ==== Sys2Proof/Laws/Huffman.lean ====
section
/-! SUPPORT. The laws of the Canonical Huffman Table: slots, insertion into a tree and the shape it keeps, the build as
one insertion after the other, and the steps of the lookup. -/

namespace Sys2Proof.Machine

/-! ### Slots -/

theorem slotOf_withSlot_self (ht : HuffTables) (cls : TabClass) (sel : BitVec 1) (x : Slot) :
    slotOf (withSlot ht cls sel x) cls sel = x := by
  cases cls <;> simp only [slotOf, withSlot] <;> split <;> rfl

/-- Two selectors of one class that are not the same name different slots. -/
theorem slotOf_withSlot_ne (ht : HuffTables) {cls cls' : TabClass} {sel sel' : BitVec 1} (x : Slot)
    (h : ¬ (cls = cls' ∧ sel = sel')) : slotOf (withSlot ht cls sel x) cls' sel' = slotOf ht cls' sel' := by
  have two : ∀ b : BitVec 1, b = 0 ∨ b = 1 := by decide
  have hs := two sel
  have hs' := two sel'
  cases cls <;> cases cls' <;> rcases hs with rfl | rfl <;> rcases hs' with rfl | rfl <;>
    first | rfl | exact absurd ⟨rfl, rfl⟩ h

theorem withSlot_withSlot (ht : HuffTables) (cls : TabClass) (sel : BitVec 1) (x y : Slot) :
    withSlot (withSlot ht cls sel x) cls sel y = withSlot ht cls sel y := by
  cases cls <;> simp only [withSlot] <;> split <;> rfl

theorem slotOf_released (cls : TabClass) (sel : BitVec 1) : slotOf .released cls sel = .absent := by
  cases cls <;> simp [slotOf, HuffTables.released]

theorem slotOf_setSlot_self (cls : TabClass) (sel : BitVec 1) (x : Slot) (s : State) :
    slotOf (setSlot cls sel x s).ctx.ht cls sel = x := slotOf_withSlot_self _ _ _ _

theorem setSlot_setSlot (cls : TabClass) (sel : BitVec 1) (x y : Slot) (s : State) :
    setSlot cls sel y (setSlot cls sel x s) = setSlot cls sel y s := by
  have h : withSlot (setSlot cls sel x s).ctx.ht cls sel y = withSlot s.ctx.ht cls sel y := withSlot_withSlot _ _ _ _ _
  unfold setSlot setCtx at h ⊢
  simp only [h]

/-- Fault entry releases the tables, so it does not matter what a slot held. -/
theorem faultEntry_setSlot (r : Reason) (pos : Nat) (cls : TabClass) (sel : BitVec 1) (x : Slot) (s : State) :
    faultEntry r pos (setSlot cls sel x s) = faultEntry r pos s := rfl

/-! ### Insertion into a tree -/

/-- An empty place always takes a symbol. -/
theorem tryInsert_null (symbol : Byte) (rem : Nat) : ∃ t, tryInsert symbol rem .null = some t ∧ t ≠ .null := by
  induction rem with
  | zero => exact ⟨_, rfl, by simp⟩
  | succ rem ih =>
    obtain ⟨t, ht, -⟩ := ih
    exact ⟨.node t .null, by simp [tryInsert, ht], by simp⟩

theorem tryInsert_ne_null {symbol : Byte} {rem : Nat} {t u : Tree} (h : tryInsert symbol rem t = some u) :
    u ≠ .null := by
  cases t with
  | null =>
    obtain ⟨v, hv, hn⟩ := tryInsert_null symbol rem
    rw [hv] at h; cases h; exact hn
  | leaf x => cases rem <;> simp [tryInsert] at h
  | node l r =>
    cases rem with
    | zero => simp [tryInsert] at h
    | succ rem =>
      simp only [tryInsert] at h
      split at h
      · cases h; simp
      · cases hr : tryInsert symbol rem r <;> simp [hr] at h
        rw [← h]; simp

/-- What an insertion at an internal node can do: it goes left, or left is full and it goes right. -/
theorem tryInsert_node {symbol : Byte} {rem : Nat} {l r u : Tree}
    (h : tryInsert symbol (rem + 1) (.node l r) = some u) :
    (∃ l', tryInsert symbol rem l = some l' ∧ u = .node l' r) ∨
      (tryInsert symbol rem l = none ∧ ∃ r', tryInsert symbol rem r = some r' ∧ u = .node l r') := by
  simp only [tryInsert] at h
  split at h
  · exact .inl ⟨_, ‹_›, by simpa using h.symm⟩
  · cases hr : tryInsert symbol rem r <;> simp [hr] at h
    exact .inr ⟨‹_›, _, rfl, h.symm⟩

/-- Insertion keeps the shape of an inner subtree (R22). -/
theorem tryInsert_inner {symbol : Byte} {rem room : Nat} {t u : Tree} (hle : rem ≤ room) (ht : innerShaped room t)
    (h : tryInsert symbol rem t = some u) : innerShaped room u := by
  induction rem generalizing room t u with
  | zero =>
    cases t with
    | null => cases h; cases room <;> trivial
    | leaf x => simp [tryInsert] at h
    | node l r => simp [tryInsert] at h
  | succ rem ih =>
    obtain ⟨room, rfl⟩ : ∃ k, room = k + 1 := ⟨room - 1, by omega⟩
    cases t with
    | null =>
      obtain ⟨v, hv, hn⟩ := tryInsert_null symbol rem
      simp only [tryInsert, hv, Option.some.injEq] at h
      subst h
      exact ⟨hn, ih (by omega) (by cases room <;> trivial) hv, by cases room <;> trivial⟩
    | leaf x => simp [tryInsert] at h
    | node l r =>
      obtain ⟨hl, hls, hrs⟩ := ht
      rcases tryInsert_node h with ⟨l', hl', rfl⟩ | ⟨-, r', hr', rfl⟩
      · exact ⟨tryInsert_ne_null hl', ih (by omega) hls hl', hrs⟩
      · exact ⟨hl, hls, ih (by omega) hrs hr'⟩

/-- Insertion of a code of length 1 to 16 keeps the shape of a table's tree (R22). -/
theorem tryInsert_shaped {symbol : Byte} {len : Nat} {t u : Tree} (h1 : 1 ≤ len) (h16 : len ≤ 16) (ht : TreeShaped t)
    (h : tryInsert symbol len t = some u) : TreeShaped u := by
  obtain ⟨rem, rfl⟩ : ∃ k, len = k + 1 := ⟨len - 1, by omega⟩
  cases t with
  | null => exact ht.elim
  | leaf x => exact ht.elim
  | node l r =>
    obtain ⟨hlr, hls, hrs⟩ := ht
    rcases tryInsert_node h with ⟨l', hl', rfl⟩ | ⟨hfull, r', hr', rfl⟩
    · exact ⟨fun _ => tryInsert_ne_null hl', tryInsert_inner (by omega) hls hl', hrs⟩
    · refine ⟨fun _ hnull => ?_, hls, tryInsert_inner (by omega) hrs hr'⟩
      obtain ⟨v, hv, -⟩ := tryInsert_null symbol rem
      rw [hnull, hv] at hfull
      exact absurd hfull (by simp)

theorem clearedTree_shaped : TreeShaped clearedTree := ⟨fun h => absurd rfl h, trivial, trivial⟩

/-! ### Insertion after insertion -/

theorem insertAll_shaped {pairs : List (Nat × Byte)} {t u : Tree} (hp : ∀ p ∈ pairs, 1 ≤ p.1 ∧ p.1 ≤ 16)
    (ht : TreeShaped t) (h : insertAll t pairs = .ok u) : TreeShaped u := by
  induction pairs generalizing t with
  | nil => cases h; exact ht
  | cons p pairs ih =>
    simp only [insertAll] at h
    split at h
    · cases h
    · rename_i t' ht'
      have hp0 := hp p List.mem_cons_self
      refine ih (fun q hq => hp q (List.mem_cons_of_mem _ hq)) (tryInsert_shaped hp0.1 hp0.2 ht ht') ?_
      cases hr : insertAll t' pairs <;> simp [hr] at h
      rw [h]

theorem insertAll_append (t : Tree) (xs ys : List (Nat × Byte)) :
    insertAll t (xs ++ ys) = match insertAll t xs with
      | .error n => .error n
      | .ok u =>
        match insertAll u ys with
        | .ok v => .ok v
        | .error n => .error (xs.length + n) := by
  induction xs generalizing t with
  | nil =>
    simp only [List.nil_append, insertAll, List.length_nil, Nat.zero_add]
    cases insertAll t ys <;> rfl
  | cons x xs ih =>
    simp only [List.cons_append, insertAll]
    split
    · rfl
    · rename_i t' _
      rw [ih]
      cases insertAll t' xs with
      | error n => rfl
      | ok u => dsimp only; cases insertAll u ys <;> simp [Nat.add_right_comm]

/-- The (length, symbol) pairs of a list of lengths whose symbols stand in `IN` from `p` on (R102). -/
def pairsFrom (s : State) (p : Nat) (lens : List Nat) : List (Nat × Byte) :=
  lens.zipIdx.map fun q => (q.1, inAt s (p + q.2))

theorem pairsFrom_length (s : State) (p : Nat) (lens : List Nat) : (pairsFrom s p lens).length = lens.length := by
  simp [pairsFrom]

theorem pairsFrom_append (s : State) (p : Nat) (xs ys : List Nat) :
    pairsFrom s p (xs ++ ys) = pairsFrom s p xs ++ pairsFrom s (p + xs.length) ys := by
  simp only [pairsFrom, List.zipIdx_append, List.map_append, List.append_cancel_left_eq]
  rw [Nat.zero_add, List.zipIdx_eq_map_add (l := ys) (i := xs.length), List.map_map]
  refine List.map_congr_left fun q _ => ?_
  show (q.1, inAt s (p + (xs.length + q.2))) = (q.1, inAt s (p + xs.length + q.2))
  rw [Nat.add_assoc]

theorem pairsFrom_cons (s : State) (p len : Nat) (lens : List Nat) :
    pairsFrom s p (len :: lens) = (len, inAt s p) :: pairsFrom s (p + 1) lens := by
  have := pairsFrom_append s p [len] lens
  simpa [pairsFrom] using this

theorem htInsert_run (cls : TabClass) (sel : BitVec 1) (len : Nat) (symbol : Byte) (s : State) :
    (htInsert cls sel len symbol).run s =
      match tryInsert symbol len (slotOf s.ctx.ht cls sel).tree with
      | some t => .ok true (setSlot cls sel ⟨(slotOf s.ctx.ht cls sel).valid, t⟩ s)
      | none => .ok false s := by
  unfold htInsert
  rw [get_bind_run]
  dsimp only
  cases tryInsert symbol len (slotOf s.ctx.ht cls sel).tree <;> rfl

/-- What one symbol of HT_BUILD does, its byte inside `IN` (R102). -/
theorem insertSymbols_succ {cls : TabClass} {sel : BitVec 1} {len n p : Nat} {s : State} (hp : p < s.inLen.toNat) :
    (insertSymbols cls sel len (n + 1) p).run s =
      match tryInsert (inAt s p) len (slotOf s.ctx.ht cls sel).tree with
      | some t => (insertSymbols cls sel len n (p + 1)).run (setSlot cls sel ⟨(slotOf s.ctx.ht cls sel).valid, t⟩ s)
      | none => .error .raised (faultEntry .insertFail p s) := by
  rw [insertSymbols, inByte_bind_ok hp, bind_run, htInsert_run]
  cases tryInsert (inAt s p) len (slotOf s.ctx.ht cls sel).tree <;> simp

theorem insertSymbols_succ_stop {cls : TabClass} {sel : BitVec 1} {len n p : Nat} {s : State} (hp : s.inLen.toNat ≤ p) :
    (insertSymbols cls sel len (n + 1) p).run s = .error .raised (faultEntry .inRead p s) := by
  rw [insertSymbols, inByte_bind_stop hp]

/-- The symbols of one length, as one insertion after the other: the build goes on with the tree they make, or raises
at the first that fails or is not there. -/
theorem insertSymbols_run (cls : TabClass) (sel : BitVec 1) (len n p : Nat) (v : Bool) (t : Tree) (s : State) :
    let pairs := pairsFrom s p (List.replicate n len)
    let s0 := setSlot cls sel ⟨v, t⟩ s
    (∀ u, insertAll t pairs = .ok u → p + n ≤ s.inLen.toNat →
      (insertSymbols cls sel len n p).run s0 = .ok (p + n) (setSlot cls sel ⟨v, u⟩ s)) ∧
    (∀ m, insertAll t pairs = .error m → p + m < s.inLen.toNat →
      (insertSymbols cls sel len n p).run s0 = .error .raised (faultEntry .insertFail (p + m) s)) ∧
    (∀ u, p ≤ s.inLen.toNat → s.inLen.toNat < p + n → insertAll t (pairs.take (s.inLen.toNat - p)) = .ok u →
      (insertSymbols cls sel len n p).run s0 = .error .raised (faultEntry .inRead s.inLen.toNat s)) := by
  induction n generalizing p t with
  | zero =>
    refine ⟨fun u h _ => ?_, fun m h => ?_, fun u _ _ => by omega⟩
    · cases h; rfl
    · cases h
  | succ n ih =>
    intro pairs s0
    have hpairs : pairs = (len, inAt s p) :: pairsFrom s (p + 1) (List.replicate n len) := by
      rw [← pairsFrom_cons]; rfl
    have hslot : slotOf s0.ctx.ht cls sel = ⟨v, t⟩ := slotOf_setSlot_self _ _ _ _
    have hstep : p < s.inLen.toNat →
        (insertSymbols cls sel len (n + 1) p).run s0 = match tryInsert (inAt s p) len t with
          | some t' => (insertSymbols cls sel len n (p + 1)).run (setSlot cls sel ⟨v, t'⟩ s)
          | none => .error .raised (faultEntry .insertFail p s) := by
      intro hp
      rw [insertSymbols_succ (s := s0) hp, hslot]
      show (match tryInsert (inAt s p) len t with | some t' => _ | none => _) = _
      cases tryInsert (inAt s p) len t with
      | none => rfl
      | some t' => simp only [s0, setSlot_setSlot]
    refine ⟨fun u h hlen => ?_, fun m h hlen => ?_, fun u hp hlen h => ?_⟩
    · rw [hpairs] at h
      rw [hstep (by omega)]
      simp only [insertAll] at h
      cases ht : tryInsert (inAt s p) len t with
      | none => simp [ht] at h
      | some t' =>
        simp only [ht] at h
        rw [show p + (n + 1) = p + 1 + n by omega]
        refine (ih (p + 1) t').1 u ?_ (by omega)
        split at h
        · rw [← h]; assumption
        · cases h
    · rw [hpairs] at h
      rw [hstep (by omega)]
      simp only [insertAll] at h
      cases ht : tryInsert (inAt s p) len t with
      | none => simp only [ht, Except.error.injEq] at h; subst h; rfl
      | some t' =>
        simp only [ht] at h
        split at h
        · cases h
        · rename_i k hk
          cases h
          have := (ih (p + 1) t').2.1 k hk (by omega)
          simpa [Nat.add_assoc, Nat.add_comm 1 k] using this
    · by_cases hpe : p = s.inLen.toNat
      · rw [insertSymbols_succ_stop (by show s.inLen.toNat ≤ p; omega), faultEntry_setSlot, hpe]
      · rw [hpairs, show s.inLen.toNat - p = (s.inLen.toNat - (p + 1)) + 1 by omega, List.take_succ_cons] at h
        rw [hstep (by omega)]
        simp only [insertAll] at h
        cases ht : tryInsert (inAt s p) len t with
        | none => simp [ht] at h
        | some t' =>
          simp only [ht] at h
          refine (ih (p + 1) t').2.2 u (by omega) (by omega) ?_
          split at h
          · rw [← h]; assumption
          · cases h

/-- The lengths of a list of counts, as HT_BUILD goes through them from length `len` on (R102). -/
def lengthsFrom : Nat → List Nat → List Nat
  | _, [] => []
  | len, n :: counts => List.replicate n len ++ lengthsFrom (len + 1) counts

theorem lengthsFrom_length (len : Nat) (counts : List Nat) : (lengthsFrom len counts).length = counts.sum := by
  induction counts generalizing len with
  | nil => rfl
  | cons n counts ih => simp [lengthsFrom, ih]

theorem lengthsFrom_bounds {len : Nat} {counts : List Nat} {x : Nat} (h : x ∈ lengthsFrom len counts) :
    len ≤ x ∧ x < len + counts.length := by
  induction counts generalizing len with
  | nil => cases h
  | cons n counts ih =>
    rw [lengthsFrom, List.mem_append] at h
    rcases h with h | h
    · rw [List.eq_of_mem_replicate h]; simp
    · have := ih h; rw [List.length_cons]; omega

theorem codeLengths_eq (counts : List Nat) : codeLengths counts = lengthsFrom 1 counts := by
  have gen : ∀ len, (counts.zipIdx len).flatMap (fun p => List.replicate p.1 p.2) = lengthsFrom len counts := by
    induction counts with
    | nil => intro len; rfl
    | cons n counts ih => intro len; rw [List.zipIdx_cons, List.flatMap_cons, ih]; rfl
  exact gen 1

/-- All lengths of HT_BUILD, as one insertion after the other (R102). -/
theorem insertLengths_run (cls : TabClass) (sel : BitVec 1) (counts : List Nat) (len p : Nat) (v : Bool) (t : Tree)
    (s : State) :
    let pairs := pairsFrom s p (lengthsFrom len counts)
    let s0 := setSlot cls sel ⟨v, t⟩ s
    (∀ u, insertAll t pairs = .ok u → p + counts.sum ≤ s.inLen.toNat →
      (insertLengths cls sel len counts p).run s0 = .ok () (setSlot cls sel ⟨v, u⟩ s)) ∧
    (∀ m, insertAll t pairs = .error m → p + m < s.inLen.toNat →
      (insertLengths cls sel len counts p).run s0 = .error .raised (faultEntry .insertFail (p + m) s)) ∧
    (∀ u, p ≤ s.inLen.toNat → s.inLen.toNat < p + counts.sum →
      insertAll t (pairs.take (s.inLen.toNat - p)) = .ok u →
      (insertLengths cls sel len counts p).run s0 = .error .raised (faultEntry .inRead s.inLen.toNat s)) := by
  induction counts generalizing len p t with
  | nil =>
    refine ⟨fun u h _ => ?_, fun m h => ?_, fun u _ h => ?_⟩
    · cases h; rfl
    · cases h
    · simp at h; omega
  | cons n counts ih =>
    intro pairs s0
    have hpairs : pairs = pairsFrom s p (List.replicate n len) ++ pairsFrom s (p + n) (lengthsFrom (len + 1) counts) := by
      simp only [pairs, lengthsFrom, pairsFrom_append, List.length_replicate]
    have hlen : (pairsFrom s p (List.replicate n len)).length = n := by simp [pairsFrom_length]
    obtain ⟨hok, hfail, hstop⟩ := insertSymbols_run cls sel len n p v t s
    refine ⟨fun u h hb => ?_, fun m h hb => ?_, fun u hp hb h => ?_⟩
    · rw [List.sum_cons] at hb
      rw [hpairs, insertAll_append] at h
      split at h
      · cases h
      · rename_i w hw
        rw [insertLengths, bind_ok (hok w hw (by omega))]
        refine (ih (len + 1) (p + n) w).1 u ?_ (by omega)
        split at h
        · rw [← h]; assumption
        · cases h
    · rw [hpairs, insertAll_append] at h
      split at h
      · rename_i k hk
        cases h
        rw [insertLengths, bind_error (hfail m hk hb)]
      · rename_i w hw
        split at h
        · cases h
        · rename_i k hk
          cases h
          rw [hlen] at hb ⊢
          rw [insertLengths, bind_ok (hok w hw (by omega)), ← Nat.add_assoc]
          exact (ih (len + 1) (p + n) w).2.1 k hk (by omega)
    · rw [List.sum_cons] at hb
      rw [hpairs, List.take_append, hlen] at h
      by_cases hn : s.inLen.toNat < p + n
      · rw [show s.inLen.toNat - p - n = 0 by omega, List.take_zero, List.append_nil] at h
        rw [insertLengths, bind_error (hstop u hp hn h)]
      · rw [List.take_of_length_le (by rw [hlen]; omega), insertAll_append] at h
        split at h
        · cases h
        · rename_i w hw
          rw [insertLengths, bind_ok (hok w hw (by omega))]
          rw [show s.inLen.toNat - p - n = s.inLen.toNat - (p + n) by omega] at h
          refine (ih (len + 1) (p + n) w).2.2 u (by omega) (by omega) ?_
          split at h
          · rw [← h]; assumption
          · cases h

/-- HT_BUILD makes its slot valid with the tree its insertions make, or raises at the symbol that cannot be placed or
is not there (R102). -/
theorem htBuild_run (cls : TabClass) (sel : BitVec 1) (counts : List Nat) (p : Nat) (s : State) :
    let pairs := pairsFrom s p (lengthsFrom 1 counts)
    (∀ u, insertAll clearedTree pairs = .ok u → p + counts.sum ≤ s.inLen.toNat →
      (htBuild cls sel counts p).run s = .ok () (setSlot cls sel ⟨true, u⟩ s)) ∧
    (∀ m, insertAll clearedTree pairs = .error m → p + m < s.inLen.toNat →
      (htBuild cls sel counts p).run s = .error .raised (faultEntry .insertFail (p + m) s)) ∧
    (∀ u, p ≤ s.inLen.toNat → s.inLen.toNat < p + counts.sum →
      insertAll clearedTree (pairs.take (s.inLen.toNat - p)) = .ok u →
      (htBuild cls sel counts p).run s = .error .raised (faultEntry .inRead s.inLen.toNat s)) := by
  intro pairs
  obtain ⟨hok, hfail, hstop⟩ := insertLengths_run cls sel counts 1 p false clearedTree s
  have hstart : htClear cls sel (htSetValid cls sel false s) = setSlot cls sel ⟨false, clearedTree⟩ s := by
    rw [htClear, htSetValid, slotOf_setSlot_self, setSlot_setSlot]
  unfold htBuild
  simp only [modify_bind_run, hstart]
  refine ⟨fun u h hb => ?_, fun m h hb => ?_, fun u hp hb h => ?_⟩
  · rw [bind_ok (hok u h hb), modify_run, htSetValid, slotOf_setSlot_self, setSlot_setSlot]
  · rw [bind_error (hfail m h hb)]
  · rw [bind_error (hstop u hp hb h)]

/-- However the build goes, one of two things happened. -/
theorem htBuild_cases (cls : TabClass) (sel : BitVec 1) (counts : List Nat) (p : Nat) (s : State) :
    (∃ u, insertAll clearedTree (pairsFrom s p (lengthsFrom 1 counts)) = .ok u ∧
      (htBuild cls sel counts p).run s = .ok () (setSlot cls sel ⟨true, u⟩ s)) ∨
    ∃ r pos, (htBuild cls sel counts p).run s = .error .raised (faultEntry r pos s) := by
  obtain ⟨hok, hfail, hstop⟩ := htBuild_run cls sel counts p s
  have prefixes : ∀ (pairs : List (Nat × Byte)) (t : Tree) (k : Nat),
      (∃ u, insertAll t (pairs.take k) = .ok u) ∨ ∃ m, m < k ∧ insertAll t pairs = .error m := by
    intro pairs
    induction pairs with
    | nil => intro t k; exact .inl ⟨t, by simp [insertAll]⟩
    | cons q pairs ih =>
      intro t k
      cases k with
      | zero => exact .inl ⟨t, rfl⟩
      | succ k =>
        rw [List.take_succ_cons]
        simp only [insertAll]
        cases hq : tryInsert q.2 q.1 t with
        | none => exact .inr ⟨0, by omega, rfl⟩
        | some t' =>
          rcases ih t' k with ⟨u, hu⟩ | ⟨m, hm, he⟩
          · exact .inl ⟨u, by simp [hu]⟩
          · exact .inr ⟨m + 1, by omega, by simp [he]⟩
  by_cases hp : p ≤ s.inLen.toNat
  · by_cases hb : p + counts.sum ≤ s.inLen.toNat
    · cases hr : insertAll clearedTree (pairsFrom s p (lengthsFrom 1 counts)) with
      | ok u => exact .inl ⟨u, rfl, hok u hr hb⟩
      | error m =>
        rcases prefixes (pairsFrom s p (lengthsFrom 1 counts)) clearedTree counts.sum with ⟨u, hu⟩ | ⟨m', hm', he⟩
        · rw [List.take_of_length_le (by rw [pairsFrom_length, lengthsFrom_length])] at hu
          rw [hu] at hr; cases hr
        · rw [he] at hr; cases hr
          exact .inr ⟨_, _, hfail m he (by omega)⟩
    · rcases prefixes (pairsFrom s p (lengthsFrom 1 counts)) clearedTree (s.inLen.toNat - p) with ⟨u, hu⟩ | ⟨m, hm, he⟩
      · exact .inr ⟨_, _, hstop u hp (by omega) hu⟩
      · exact .inr ⟨_, _, hfail m he (by omega)⟩
  · cases hl : lengthsFrom 1 counts with
    | nil =>
      have hs0 : counts.sum = 0 := by rw [← lengthsFrom_length 1 counts, hl]; rfl
      exact .inl ⟨clearedTree, rfl, by
        have hstart : htClear cls sel (htSetValid cls sel false s) = setSlot cls sel ⟨false, clearedTree⟩ s := by
          rw [htClear, htSetValid, slotOf_setSlot_self, setSlot_setSlot]
        have empty : ∀ (cs : List Nat) (len p : Nat) (s : State), cs.sum = 0 →
            (insertLengths cls sel len cs p).run s = .ok () s := by
          intro cs
          induction cs with
          | nil => intro len p s _; rfl
          | cons n cs ih =>
            intro len p s h
            rw [List.sum_cons] at h
            obtain rfl : n = 0 := by omega
            exact ih _ _ _ (by omega)
        unfold htBuild
        simp only [modify_bind_run, hstart]
        rw [bind_ok (empty _ _ _ _ hs0), modify_run, htSetValid, slotOf_setSlot_self, setSlot_setSlot]⟩
    | cons x xs =>
      refine .inr ⟨.inRead, p, ?_⟩
      have hpos : counts.sum ≠ 0 := by rw [← lengthsFrom_length 1 counts, hl]; simp
      have first : ∀ (cs : List Nat) (len : Nat) (s0 : State), s0.inLen = s.inLen → cs.sum ≠ 0 →
          (insertLengths cls sel len cs p).run s0 = .error .raised (faultEntry .inRead p s0) := by
        intro cs
        induction cs with
        | nil => intro _ _ _ h; exact absurd rfl h
        | cons n cs ih =>
          intro len s0 h0 h
          cases n with
          | zero => exact ih (len + 1) s0 h0 (by simpa using h)
          | succ n => rw [insertLengths, bind_error (insertSymbols_succ_stop (by rw [h0]; omega))]
      have hstart : htClear cls sel (htSetValid cls sel false s) = setSlot cls sel ⟨false, clearedTree⟩ s := by
        rw [htClear, htSetValid, slotOf_setSlot_self, setSlot_setSlot]
      unfold htBuild
      simp only [modify_bind_run, hstart]
      rw [bind_error (first counts 1 (setSlot cls sel ⟨false, clearedTree⟩ s) rfl hpos), faultEntry_setSlot]

/-! ### The lookup -/

theorem lookupFrom_node_ok {l r : Tree} {s : State} (h : s.bitOff.toNat + 1 ≤ 8 * s.scanLen.toNat) :
    (lookupFrom (.node l r)).run s =
      (lookupFrom (if scanBit s s.bitOff.toNat then r else l)).run
        (setBitOff (s.bitOff.toNat + 1)
          (setWork (fun w => { w with acc := (BitVec.ofBool (scanBit s s.bitOff.toNat)).setWidth 16 }) s)) := by
  rw [lookupFrom, bind_ok (takeBits_ok h)]
  cases hb : scanBit s s.bitOff.toNat <;> simp [accumulate, hb]

theorem lookupFrom_node_stop {l r : Tree} {s : State} (h : 8 * s.scanLen.toNat < s.bitOff.toNat + 1) :
    (lookupFrom (.node l r)).run s = .error .raised (faultEntry .scanBits s.bitOff.toNat s) := by
  rw [lookupFrom, bind_error (takeBits_stop h)]

theorem lookupFrom_null (s : State) :
    (lookupFrom .null).run s = .error .raised (faultEntry .lookupNull s.bitOff.toNat s) := rfl

theorem lookupFrom_leaf (symbol : Byte) (s : State) : (lookupFrom (.leaf symbol)).run s = .ok symbol s := rfl

theorem htLookup_valid {cls : TabClass} {sel : BitVec 1} {s : State} (h : (slotOf s.ctx.ht cls sel).valid = true) :
    (htLookup cls sel).run s = (lookupFrom (slotOf s.ctx.ht cls sel).tree).run s := by
  unfold htLookup
  rw [get_bind_run]
  simp [h]

theorem htLookup_invalid {cls : TabClass} {sel : BitVec 1} {s : State} (h : (slotOf s.ctx.ht cls sel).valid = false) :
    (htLookup cls sel).run s = .error .raised (faultEntry .lookupNoTable s.bitOff.toNat s) := by
  unfold htLookup
  rw [get_bind_run]
  simp [h]

/-! ### What the lookup can do -/

variable {R : State → State → Prop} {s : State}

theorem ends_lookupFrom (hR : Chains R)
    (hok : ∀ s n, s.bitOff.toNat + n ≤ 8 * s.scanLen.toNat →
      ∀ acc, R s (setBitOff (s.bitOff.toNat + n) (setWork (fun w => { w with acc := acc }) s))) (t : Tree) :
    Ends R (lookupFrom t) s := by
  induction t generalizing s with
  | null => exact ends_get_bind (ends_raise hR _ _)
  | leaf x => exact ends_pure hR _
  | node l r ihl ihr =>
    exact ends_bind hR (ends_takeBits hR 1 (hok s 1)) fun b _ _ _ => ends_ite (fun _ => ihl) fun _ => ihr

theorem ends_htLookup (hR : Chains R)
    (hok : ∀ s n, s.bitOff.toNat + n ≤ 8 * s.scanLen.toNat →
      ∀ acc, R s (setBitOff (s.bitOff.toNat + n) (setWork (fun w => { w with acc := acc }) s))) (cls : TabClass)
    (sel : BitVec 1) : Ends R (htLookup cls sel) s :=
  ends_get_bind (ends_ite (fun _ => ends_lookupFrom hR hok _) fun _ => ends_raise hR _ _)

end Sys2Proof.Machine
end

