-- ==== Sys2Proof/Laws/PerInstr.lean ====
section
/-! SUPPORT. Statements made once per instruction: the form of its word. -/

namespace Sys2Proof.Laws.WordForm

/-- How an instruction stands in the bytes of its encoding space (30_encoding.md R61, R70, R75, R77): at a marker
position two bytes, the first `FF` unless the instruction is the illegal marker position, or four with the `FF` and a
length field whose value its last two bytes spell; in a region the two bytes `FF 00`; in the bit stream no byte of its
own, and a code of one-leaf tables. -/
def Statement (i : Instr) : Prop :=
  match i.space with
  | .markerWord =>
    (∃ b0 b1, encode i = [b0, b1] ∧ (b0 = 0xFF ∨ i = .badPrefix b0 b1)) ∨
      ∃ code len, encode i = [0xFF, code, highByte len, lowByte len] ∧ be16 (highByte len) (lowByte len) = len
  | .scanBytes => encode i = [0xFF, 0x00]
  | .scanBits => encode i = [] ∧ ∃ symbol pos, encodeBits (.leaf symbol) i = some (pos, [])

theorem soi : Statement .soi := .inl ⟨0xFF, 0xD8, rfl, .inl rfl⟩
theorem app0 (len : Half) : Statement (.app0 len) := .inr ⟨0xE0, len, rfl, Machine.be16_high_low len⟩
theorem dqt (len : Half) : Statement (.dqt len) := .inr ⟨0xDB, len, rfl, Machine.be16_high_low len⟩
theorem sof0 (len : Half) : Statement (.sof0 len) := .inr ⟨0xC0, len, rfl, Machine.be16_high_low len⟩
theorem dht (len : Half) : Statement (.dht len) := .inr ⟨0xC4, len, rfl, Machine.be16_high_low len⟩
theorem sos (len : Half) : Statement (.sos len) := .inr ⟨0xDA, len, rfl, Machine.be16_high_low len⟩
theorem eoi : Statement .eoi := .inl ⟨0xFF, 0xD9, rfl, .inl rfl⟩
theorem unsup (code : Byte) (len : Half) : Statement (.unsup code len) :=
  .inr ⟨code, len, rfl, Machine.be16_high_low len⟩
theorem badPrefix (b0 b1 : Byte) : Statement (.badPrefix b0 b1) := .inl ⟨b0, b1, rfl, .inr rfl⟩
theorem stuff : Statement .stuff := rfl
theorem dcElem (size : Byte) : Statement (.dcElem size) := ⟨rfl, size, .dc, by simp [encodeBits, codeOf]⟩
theorem acElem (size : Byte) : Statement (.acElem size) := ⟨rfl, size, .ac, by simp [encodeBits, codeOf]⟩
theorem eob : Statement .eob := ⟨rfl, 0, .ac, by simp [encodeBits, codeOf]⟩

end Sys2Proof.Laws.WordForm
end

