-- ==== Sys2Proof/Laws/Step.lean ====
section
/-! SUPPORT. What a step can do, said once: the updates a segment instruction is made of, and how it ends. Every
invariant of Safety and every rule about the whole machine is a case analysis over them. -/

namespace Sys2Proof.Machine

/-- One update inside a segment instruction. None of them touches `IN`, `CUR`, `STATE`, the error registers or the START
command. -/
inductive Update (s : State) : State → Prop where
  | work (f : WorkRegs → WorkRegs) : Update s (setWork f s)
  | blk (n : Nat) (v : Coef) : Update s (setBlk n v s)
  | blkClear : Update s { s with blk := tabFill _ 0 }
  | out (r : OutRecord) : Update s (pushOut r s)
  | bits (n : Nat) (h : s.bitOff.toNat + n ≤ 8 * s.scanLen.toNat) : Update s (setBitOff (s.bitOff.toNat + n) s)
  | store (b : Byte) (step : Nat) : Update s (storeScan b step s)
  | region (n : Nat) (h : n ≤ s.inLen.toNat) : Update s (setBitOff 0 { s with scanLen := BitVec.ofNat 32 n })
  | unsup : Update s { s with wUnsup := true }
  | ncomp : Update s { s with wNcomp := true }
  | slot (cls : TabClass) (sel : BitVec 1) (t : Tree) (h : TreeShaped t) : Update s (setSlot cls sel ⟨true, t⟩ s)
  | fields (f : DecodeContext → DecodeContext) (hht : (f s.ctx).ht = s.ctx.ht) (hpred : (f s.ctx).pred = s.ctx.pred) :
      Update s (setCtx f s)
  | reset : Update s (contextReset s)
  | pred (c : Nat) (v : Coef) (h : -65535 ≤ v.toInt ∧ v.toInt ≤ 65535) :
      Update s (setCtx (fun x => { x with pred := tabSet x.pred c v }) s)

/-- What a sequence of updates can reach. -/
abbrev Reach : State → State → Prop := Relation.ReflTransGen Update

theorem chains_reach : Chains Reach := ⟨fun _ => .refl, fun _ _ _ h g => h.trans g⟩

/-- What every update keeps, every sequence of them keeps. -/
theorem reach_inv {I : State → Prop} (h : ∀ s t, I s → Update s t → I t) {s t : State} (hst : Reach s t) (hs : I s) :
    I t := by
  induction hst with
  | refl => exact hs
  | tail _ hu ih => exact h _ _ ih hu

/-- What every update leaves as it was, every sequence of them leaves so. -/
theorem reach_view {β : Type} {f : State → β} (h : ∀ s t, Update s t → f t = f s) {s t : State} (hst : Reach s t) :
    f t = f s :=
  reach_inv (I := fun u => f u = f s) (fun u v hu huv => (h u v huv).trans hu) hst rfl

theorem reach_inBuf {s t : State} (h : Reach s t) : t.inBuf = s.inBuf := reach_view (fun _ _ h => by cases h <;> rfl) h
theorem reach_inLen {s t : State} (h : Reach s t) : t.inLen = s.inLen := reach_view (fun _ _ h => by cases h <;> rfl) h
theorem reach_cur {s t : State} (h : Reach s t) : t.cur = s.cur := reach_view (fun _ _ h => by cases h <;> rfl) h
theorem reach_run {s t : State} (h : Reach s t) : t.run = s.run := reach_view (fun _ _ h => by cases h <;> rfl) h
theorem reach_err {s t : State} (h : Reach s t) : t.err = s.err := reach_view (fun _ _ h => by cases h <;> rfl) h
theorem reach_startReq {s t : State} (h : Reach s t) : t.startReq = s.startReq :=
  reach_view (fun _ _ h => by cases h <;> rfl) h

/-! ### The header segments -/

variable {s : State}

theorem ends_fields {f : DecodeContext → DecodeContext} (hht : (f s.ctx).ht = s.ctx.ht)
    (hpred : (f s.ctx).pred = s.ctx.pred) : Ends Reach (modify (setCtx f) : Prog PUnit) s :=
  ends_modify (.single (.fields f hht hpred))

theorem ends_quantEntry (pq : BitVec 4) (c k : Nat) : Ends Reach (quantEntry pq c k) s :=
  ends_ite
    (fun _ => ends_bind chains_reach (ends_inByte chains_reach _ _) fun _ _ _ _ => ends_pure chains_reach _)
    (fun _ => ends_inU16 chains_reach _ _)

theorem ends_setQuant (tq : BitVec 4) (n : Nat) (q : Half) : Ends Reach (modify (setQuant tq n q) : Prog PUnit) s :=
  ends_modify (by
    unfold setQuant
    split
    · exact .single (.fields _ rfl rfl)
    · exact .single (.fields _ rfl rfl))

theorem ends_setDim (order : Config.DimOrder) (first : Bool) (v : Half) :
    Ends Reach (modify (setDim order first v) : Prog PUnit) s :=
  ends_modify (by
    unfold setDim
    cases order <;> cases first <;> exact .single (.fields _ rfl rfl))

theorem ends_storeComponent (c i : Nat) : Ends Reach (storeComponent c i) s :=
  ends_bind chains_reach (ends_inByte chains_reach _ _) fun _ _ _ _ =>
    ends_bind chains_reach (ends_inByte chains_reach _ _) fun _ _ _ _ =>
      ends_bind chains_reach (ends_inByte chains_reach _ _) fun _ _ _ _ => ends_fields rfl rfl

theorem ends_readCounts (c n len : Nat) : Ends Reach (readCounts c n len) s := by
  induction n generalizing s len with
  | zero => exact ends_pure chains_reach _
  | succ n ih =>
    exact ends_bind chains_reach (ends_inByte chains_reach _ _) fun _ _ _ _ =>
      ends_bind chains_reach (ih _) fun _ _ _ _ => ends_pure chains_reach _

theorem ends_htBuild (cls : TabClass) (sel : BitVec 1) {counts : List Nat} (h : counts.length = 16) (p : Nat) :
    Ends Reach (htBuild cls sel counts p) s := by
  rcases htBuild_cases cls sel counts p s with ⟨u, hu, hrun⟩ | ⟨r, pos, hrun⟩
  · refine .inl ⟨_, _, hrun, .single (.slot cls sel u (insertAll_shaped (fun q hq => ?_) clearedTree_shaped hu))⟩
    have hmem : q.1 ∈ lengthsFrom 1 counts := by
      simp only [pairsFrom, List.mem_map] at hq
      obtain ⟨x, hx, rfl⟩ := hq
      exact (List.mem_zipIdx hx).2.2 ▸ List.getElem_mem _
    have := lengthsFrom_bounds hmem
    omega
  · exact .inr ⟨r, pos, s, hrun, .refl⟩

/-! ### The scan -/

/-- One block update keeps `CI`: what the coefficient decoder can do. -/
abbrev BlockReach (s t : State) : Prop := Reach s t ∧ t.work.ci = s.work.ci

theorem chains_blockReach : Chains BlockReach := chains_and chains_reach (chains_view fun s => s.work.ci)

theorem takeBits_blockReach (s : State) (n : Nat) (h : s.bitOff.toNat + n ≤ 8 * s.scanLen.toNat) (acc : BitVec 16) :
    BlockReach s (setBitOff (s.bitOff.toNat + n) (setWork (fun w => { w with acc := acc }) s)) :=
  ⟨.tail (.single (.work fun w => { w with acc := acc })) (.bits n h), rfl⟩

theorem extend_small {v size : Nat} (hs : size ≤ 16) (hv : v < 2 ^ 16) :
    -65535 ≤ extend v size ∧ extend v size ≤ 65535 := by
  have hp : 2 ^ size ≤ 2 ^ 16 := Nat.pow_le_pow_right (by omega) hs
  have hp1 : 1 ≤ 2 ^ size := Nat.one_le_two_pow
  have hz : ((2 ^ size : Nat) : Int) = 2 ^ size := by simp
  unfold extend
  split <;> omega

theorem toInt_extend {v size : Nat} (hs : size ≤ 16) (hv : v < 2 ^ 16) :
    (BitVec.ofInt 32 (extend v size)).toInt = extend v size := by
  have := extend_small hs hv
  rw [BitVec.toInt_ofInt, Int.bmod_eq_of_le (by omega) (by omega)]

/-- An element's value: it reads no more than its own bits, and is small. -/
theorem elementValue_ends (size : Byte) : Ends BlockReach (elementValue size) s := by
  unfold elementValue
  refine ends_ite (fun _ => ends_pure chains_blockReach _) fun _ => ends_ite (fun _ => ?_) fun _ => ?_
  · exact ends_get_bind (ends_raise chains_blockReach _ _)
  · exact ends_bind chains_blockReach (ends_takeBits chains_blockReach _ (takeBits_blockReach s _)) fun _ _ _ _ =>
      ends_pure chains_blockReach _

theorem elementValue_small {size : Byte} {v : Coef} {t : State} (h : (elementValue size).run s = .ok v t) :
    -65535 ≤ v.toInt ∧ v.toInt ≤ 65535 := by
  unfold elementValue at h
  split at h
  · cases h; decide
  · split at h
    · cases h
    · rename_i hs
      by_cases hb : s.bitOff.toNat + size.toNat ≤ 8 * s.scanLen.toNat
      · rw [bind_ok (takeBits_ok hb), pure_run] at h
        cases h
        have h16 : size.toNat ≤ 16 := by simpa using hs
        have hv := (accumulate s size.toNat s.bitOff.toNat 0).isLt
        rw [toInt_extend h16 hv]
        exact extend_small h16 hv
      · rw [bind_error (takeBits_stop (Nat.lt_of_not_le hb))] at h
        cases h

theorem ends_component (h : s.work.ci.toNat < 255) : Ends BlockReach component s :=
  .inl ⟨_, _, by rw [component_run, if_pos h], chains_blockReach.refl s⟩

theorem ends_dcBody (size : Byte) (h : s.work.ci.toNat < 255) : Ends BlockReach (dcBody size) s := by
  refine ends_bind chains_blockReach (ends_modify ⟨.single (.work _), rfl⟩) fun _ t ht hst => ?_
  cases ht
  refine ends_bind chains_blockReach (ends_component h) fun c u _ _ => ?_
  refine ends_bind chains_blockReach (elementValue_ends size) fun diff w hw _ => ends_modify ?_
  exact ⟨.tail (.single (.blk _ _)) (.pred c diff (elementValue_small hw)), rfl⟩

theorem ends_acBody (size : Byte) : Ends BlockReach (acBody size) s := by
  refine ends_bind chains_blockReach (ends_modify ⟨.single (.work _), rfl⟩) fun _ t _ _ => ?_
  refine ends_bind chains_blockReach (elementValue_ends size) fun v u _ _ => ends_modify ?_
  exact ⟨.single (.blk _ _), rfl⟩

theorem ends_fetchElement (cls : TabClass) (h : s.work.ci.toNat < 255) : Ends BlockReach (fetchElement cls) s := by
  refine ends_bind chains_blockReach ?_ fun sel t _ _ => ends_htLookup chains_blockReach takeBits_blockReach cls sel
  refine ends_bind chains_blockReach (ends_component h) fun c t _ _ => ends_get_bind ?_
  exact ends_pure chains_blockReach _

theorem ends_decodeAcFrom (n k : Nat) (h : s.work.ci.toNat < 255) : Ends BlockReach (decodeAcFrom n k) s := by
  induction n generalizing s k with
  | zero => exact ends_pure chains_blockReach _
  | succ n ih =>
    refine ends_bind chains_blockReach (ends_modify ⟨.single (.work _), rfl⟩) fun _ t ht h1 => ?_
    refine ends_bind chains_blockReach (ends_fetchElement .ac (by rw [h1.2]; exact h)) fun size u _ h2 => ?_
    refine ends_ite (fun _ => ends_modify ⟨.single (.work _), rfl⟩) fun _ => ?_
    refine ends_bind chains_blockReach (ends_acBody size) fun _ w _ h3 => ih (k + 1) ?_
    rw [h3.2, h2.2, h1.2]; exact h

theorem ends_decodeBlock (h : s.work.ci.toNat < 255) : Ends BlockReach decodeBlock s := by
  refine ends_bind chains_blockReach (ends_modify ⟨.single .blkClear, rfl⟩) fun _ t ht h1 => ?_
  refine ends_bind chains_blockReach ?_ fun _ u _ h2 => ends_decodeAcFrom 63 1 (by rw [h2.2, h1.2]; exact h)
  refine ends_bind chains_blockReach (ends_fetchElement .dc (by rw [h1.2]; exact h)) fun size u _ h2 => ?_
  exact ends_dcBody size (by rw [h2.2, h1.2]; exact h)

theorem ends_blockOf {ci : Nat} (h : ci < 255) : Ends Reach (blockOf ci) s := by
  refine ends_bind chains_reach (ends_modify (.single (.work _))) fun _ t ht _ => ?_
  cases ht
  refine ends_bind chains_reach (ends_mono (fun _ h => h.1) (ends_decodeBlock ?_)) fun _ u _ _ => ends_modify (.single (.out _))
  show (BitVec.ofNat 8 ci).toNat < 255
  rw [BitVec.toNat_ofNat, Nat.mod_eq_of_lt (by omega)]
  exact h

theorem ends_sosBlocks : Ends Reach sosBlocks s := by
  refine ends_get_bind (ends_forRange chains_reach _ _ _ fun y t _ _ _ => ?_)
  refine ends_bind chains_reach (ends_modify (.single (.work _))) fun _ _ _ _ => ?_
  refine ends_forRange chains_reach _ _ _ fun x t _ _ _ => ?_
  refine ends_bind chains_reach (ends_modify (.single (.work _))) fun _ _ _ _ => ?_
  refine ends_forRange chains_reach _ _ _ fun c t _ hc _ => ends_blockOf ?_
  have := s.ctx.ncomp.isLt
  omega

theorem ends_sosHeader (c : Nat) : Ends Reach (sosHeader c) s := by
  refine ends_bind chains_reach (ends_inByte chains_reach _ _) fun ns t _ _ => ends_get_bind ?_
  refine ends_ite (fun _ => ends_raise chains_reach _ _) fun _ => ends_forRange chains_reach _ _ _ fun i u _ _ _ => ?_
  refine ends_bind chains_reach (ends_inByte chains_reach _ _) fun _ _ _ _ => ?_
  refine ends_bind chains_reach (ends_inByte chains_reach _ _) fun _ _ _ _ => ?_
  exact ends_ite (fun _ => ends_raise chains_reach _ _) fun _ => ends_fields rfl rfl

/-- The DESTUFF loop stores at most one byte per byte it passes. -/
abbrev RegionReach (s t : State) : Prop :=
  Reach s t ∧ s.work.regionPos ≤ t.work.regionPos ∧
    t.work.regionLen + s.work.regionPos ≤ s.work.regionLen + t.work.regionPos

theorem chains_regionReach : Chains RegionReach :=
  ⟨fun _ => ⟨.refl, Nat.le_refl _, Nat.le_refl _⟩,
    fun _ _ _ h g => ⟨h.1.trans g.1, h.2.1.trans g.2.1, by have := h.2.2; have := g.2.2; omega⟩⟩

theorem ends_destuffLoop_region (fuel : Nat) : Ends RegionReach (destuffLoop fuel) s := by
  induction fuel generalizing s with
  | zero => exact ends_get_bind (ends_raise chains_regionReach _ _)
  | succ fuel ih =>
    have store (b : Byte) (step : Nat) (h : 1 ≤ step) : RegionReach s (storeScan b step s) :=
      ⟨.single (.store b step), Nat.le_add_right _ _, by
        show s.work.regionLen + 1 + s.work.regionPos ≤ s.work.regionLen + (s.work.regionPos + step)
        omega⟩
    refine ends_get_bind ?_
    split
    · exact ends_raise chains_regionReach _ _
    · exact ends_bind chains_regionReach (ends_modify (store _ 1 (by omega))) fun _ _ _ _ => ih
    · exact ends_bind chains_regionReach (ends_modify (store _ 2 (by omega))) fun _ _ _ _ => ih
    · exact ends_pure chains_regionReach _

/-- Where the DESTUFF loop ends, its cursor is on a byte inside `IN` (R91). -/
theorem destuffLoop_inside {fuel : Nat} {t : State} (h : (destuffLoop fuel).run s = .ok () t) :
    t.work.regionPos < t.inLen.toNat := by
  induction fuel generalizing s with
  | zero => rw [destuffLoop, get_bind_run, raise_run] at h; cases h
  | succ fuel ih =>
    rw [destuffLoop, get_bind_run] at h
    split at h
    · cases h
    · exact ih h
    · exact ih h
    · rename_i hd
      cases h
      by_contra hn
      rw [inWindow_eq_nil (Nat.not_lt.1 hn)] at hd
      cases hd

/-- SOS_REGION answers an address after the segment and inside `IN`, or raises (R171). -/
theorem sosRegion_cases (c : Nat) (len : Half) (s : State) :
    (∃ e1 t, (sosRegion c len).run s = .ok e1 t ∧ Reach s t ∧ c + 2 + len.toNat ≤ e1 ∧ e1 < s.inLen.toNat) ∨
    ∃ r pos t, (sosRegion c len).run s = .error .raised (faultEntry r pos t) ∧ Reach s t := by
  let e0 := c + 2 + len.toNat
  let s1 := setWork (fun w => { w with regionPos := e0, regionLen := 0 }) s
  have h1 : Reach s s1 := .single (.work _)
  rcases ends_destuffLoop_region (s := s1) (s.inLen.toNat - e0) with ⟨_, u, hrun, hu, hpos, hlen⟩ | ⟨r, pos, u, hrun, hu, -⟩
  · left
    have hin := destuffLoop_inside hrun
    have hpos' : e0 ≤ u.work.regionPos := hpos
    have hlen' : u.work.regionLen + e0 ≤ 0 + u.work.regionPos := hlen
    have hlenu : u.inLen = s.inLen := reach_inLen (h1.trans hu)
    have h2 : Reach s (setBitOff 0 { u with scanLen := BitVec.ofNat 32 u.work.regionLen }) :=
      (h1.trans hu).tail (.region _ (by omega))
    have hseed : Ends Reach (forRange u.ctx.ncomp.toNat 0 seedPred)
        (setBitOff 0 { u with scanLen := BitVec.ofNat 32 u.work.regionLen }) :=
      ends_forRange chains_reach _ _ _ fun i _ _ _ _ => ends_modify (.single (.pred i 0 (by decide)))
    rcases hseed with ⟨_, t, ht, hut⟩ | ⟨r, pos, t, ht, hut⟩
    · refine ⟨u.work.regionPos, t, ?_, h2.trans hut, hpos', by rw [← hlenu]; exact hin⟩
      unfold sosRegion
      rw [bind_ok (destuff_ok hrun), modify_bind_run, get_bind_run]
      exact bind_ok ht
    · exfalso
      have total : ∀ (n start : Nat) (v : State), ∃ w, (forRange n start seedPred).run v = .ok () w := by
        intro n
        induction n with
        | zero => intro _ v; exact ⟨v, rfl⟩
        | succ n ih => intro start v; exact ih (start + 1) _
      obtain ⟨w, hw⟩ := total u.ctx.ncomp.toNat 0 (setBitOff 0 { u with scanLen := BitVec.ofNat 32 u.work.regionLen })
      rw [hw] at ht
      cases ht
  · right
    refine ⟨r, pos, u, ?_, h1.trans hu⟩
    unfold sosRegion
    rw [bind_error (destuff_error hrun)]

/-! ### The segment instructions -/

/-- How an instruction at a marker position ends: in the error state, with `CUR` moved forward and nothing else after
its updates, or, for EOI alone, halted with the tables released. -/
inductive Executed (i : Instr) (s : State) : State → Prop where
  | raised (r : Reason) (pos : Nat) (u : State) (h : Reach s u) : Executed i s (faultEntry r pos u)
  | advanced (a : Nat) (u : State) (h : Reach s u) (hlo : s.cur.toNat + 2 ≤ a)
      (hhi : a ≤ s.cur.toNat + 65537 ∨ a < s.inLen.toNat) : Executed i s (setCur a u)
  | done (h : i = .eoi) : Executed i s (setRun .done (setCur (s.cur.toNat + 2) (releaseTables s)))

/-- From a state its updates reached, the rest of a segment instruction ends the instruction. -/
def Finishes (i : Instr) (s0 : State) (p : Prog Unit) (s : State) : Prop :=
  ∃ t, outcomeOf p s = .next t ∧ Executed i s0 t

variable {i : Instr} {s0 : State}

theorem finishes_bind {α : Type} {x : Prog α} {f : α → Prog Unit} (hx : Ends Reach x s) (h0 : Reach s0 s)
    (hf : ∀ a t, Reach s0 t → x.run s = .ok a t → Finishes i s0 (f a) t) : Finishes i s0 (x >>= f) s := by
  rcases hx with ⟨a, t, hrun, hst⟩ | ⟨r, pos, t, hrun, hst⟩
  · obtain ⟨u, hu, he⟩ := hf a t (h0.trans hst) hrun
    exact ⟨u, by rw [outcomeOf, bind_ok hrun]; exact hu, he⟩
  · exact ⟨_, outcomeOf_raised (bind_error hrun), .raised r pos t (h0.trans hst)⟩

theorem finishes_raise (h0 : Reach s0 s) (r : Reason) (pos : Nat) : Finishes i s0 (raise r pos) s :=
  ⟨_, outcomeOf_raised (raise_run r pos s), .raised r pos s h0⟩

theorem finishes_advance (h0 : Reach s0 s) (len : Half) : Finishes i s0 (advance s0.cur.toNat len) s := by
  have := len.isLt
  exact ⟨_, rfl, .advanced _ s h0 (by omega) (.inl (by omega))⟩

theorem finishes_ite {c : Prop} [Decidable c] {p q : Prog Unit} (hp : c → Finishes i s0 p s)
    (hq : ¬ c → Finishes i s0 q s) : Finishes i s0 (if c then p else q) s := by
  split
  · exact hp ‹_›
  · exact hq ‹_›

theorem app0_executed (len : Half) (s : State) : ∃ t, exec (.app0 len) s = .next t ∧ Executed (.app0 len) s t := by
  show Finishes _ s (app0Body len) s
  refine finishes_bind (ends_getCur chains_reach) .refl fun c t _ hc => ?_
  cases hc
  refine finishes_bind (ends_modify (.single .reset)) .refl fun _ t h _ => ?_
  refine finishes_bind (ends_inByte chains_reach _ _) h fun _ t h _ => ?_
  refine finishes_bind (ends_inByte chains_reach _ _) h fun _ t h _ => ?_
  refine finishes_bind (ends_fields rfl rfl) h fun _ t h _ => ?_
  refine finishes_bind (ends_inByte chains_reach _ _) h fun _ t h _ => ?_
  refine finishes_bind (ends_fields rfl rfl) h fun _ t h _ => ?_
  refine finishes_bind (ends_inU16 chains_reach _ _) h fun _ t h _ => ?_
  refine finishes_bind (ends_fields rfl rfl) h fun _ t h _ => ?_
  refine finishes_bind (ends_inU16 chains_reach _ _) h fun _ t h _ => ?_
  refine finishes_bind (ends_fields rfl rfl) h fun _ t h _ => ?_
  exact finishes_advance h len

theorem dqt_executed (len : Half) (s : State) : ∃ t, exec (.dqt len) s = .next t ∧ Executed (.dqt len) s t := by
  show Finishes _ s (dqtBody len) s
  refine finishes_bind (ends_getCur chains_reach) .refl fun c t _ hc => ?_
  cases hc
  refine finishes_bind (ends_inByte chains_reach _ _) .refl fun b t h _ => ?_
  refine finishes_ite (fun _ => finishes_raise h _ _) fun _ => ?_
  refine finishes_bind (ends_forRange chains_reach _ _ _ fun k u _ _ _ => ?_) h fun _ t h _ => finishes_advance h len
  exact ends_bind chains_reach (ends_quantEntry _ _ _) fun q _ _ _ => ends_setQuant _ _ _

theorem sof0_executed (len : Half) (s : State) : ∃ t, exec (.sof0 len) s = .next t ∧ Executed (.sof0 len) s t := by
  show Finishes _ s (sof0Body len) s
  refine finishes_bind (ends_getCur chains_reach) .refl fun c t _ hc => ?_
  cases hc
  refine finishes_bind (ends_inByte chains_reach _ _) .refl fun _ t h _ => ?_
  refine finishes_bind (ends_fields rfl rfl) h fun _ t h _ => ?_
  refine finishes_bind (ends_inU16 chains_reach _ _) h fun _ t h _ => ?_
  refine finishes_bind (ends_setDim _ _ _) h fun _ t h _ => ?_
  refine finishes_bind (ends_inU16 chains_reach _ _) h fun _ t h _ => ?_
  refine finishes_bind (ends_setDim _ _ _) h fun _ t h _ => ?_
  refine finishes_bind (ends_inByte chains_reach _ _) h fun nf t h _ => ?_
  have warn : Ends Reach (warnOddCount nf) t :=
    ends_ite (fun _ => ends_modify (.tail (.single .ncomp) (.out _))) fun _ => ends_pure chains_reach _
  refine finishes_bind warn h fun _ t h _ => ?_
  refine finishes_bind (ends_forRange chains_reach _ _ _ fun i u _ _ _ => ends_storeComponent _ i) h fun _ t h _ => ?_
  refine finishes_bind (ends_fields rfl rfl) h fun _ t h _ => ?_
  refine finishes_bind (ends_fields rfl rfl) h fun _ t h _ => ?_
  exact finishes_advance h len

theorem readCounts_length {c n len : Nat} {ks : List Nat} {t : State} (h : (readCounts c n len).run s = .ok ks t) :
    ks.length = n := by
  induction n generalizing len ks s with
  | zero => cases h; rfl
  | succ n ih =>
    rw [readCounts] at h
    by_cases hb : c + offCount len < s.inLen.toNat
    · rw [inByte_bind_ok hb, bind_run] at h
      split at h
      · rename_i js u hj
        cases h
        rw [List.length_cons, ih hj]
      · cases h
    · rw [inByte_bind_stop (Nat.not_lt.1 hb)] at h
      cases h

theorem dht_executed (len : Half) (s : State) : ∃ t, exec (.dht len) s = .next t ∧ Executed (.dht len) s t := by
  show Finishes _ s (dhtBody len) s
  refine finishes_bind (ends_getCur chains_reach) .refl fun c t _ hc => ?_
  cases hc
  refine finishes_bind (ends_inByte chains_reach _ _) .refl fun _ t h _ => ?_
  refine finishes_ite (fun _ => finishes_raise h _ _) fun _ => ?_
  refine finishes_bind (ends_readCounts _ _ _) h fun counts t h hk => ?_
  refine finishes_ite (fun _ => finishes_raise h _ _) fun _ => ?_
  refine finishes_bind (ends_htBuild _ _ (readCounts_length hk) _) h fun _ t h _ => ?_
  exact finishes_advance h len

theorem sos_executed (len : Half) (s : State) : ∃ t, exec (.sos len) s = .next t ∧ Executed (.sos len) s t := by
  show Finishes _ s (sosBody len) s
  refine finishes_bind (ends_getCur chains_reach) .refl fun c t _ hc => ?_
  cases hc
  refine finishes_bind (ends_sosHeader _) .refl fun _ t h _ => ?_
  rcases sosRegion_cases s.cur.toNat len t with ⟨e1, u, hrun, hu, hlo, hhi⟩ | ⟨r, pos, u, hrun, hu⟩
  · have hin : t.inLen = s.inLen := reach_inLen h
    obtain ⟨v, hv, he⟩ : Finishes (.sos len) s (sosBlocks >>= fun _ => modify (setCur e1)) u :=
      finishes_bind ends_sosBlocks (h.trans hu) fun _ v hv _ =>
        ⟨_, rfl, .advanced e1 v hv (by omega) (.inr (by rw [← hin]; exact hhi))⟩
    exact ⟨v, by rw [outcomeOf, bind_ok hrun]; exact hv, he⟩
  · exact ⟨_, outcomeOf_raised (bind_error hrun), .raised r pos u (h.trans hu)⟩

/-- Every instruction of the marker space ends with a next state, and in one of the three ways. -/
theorem exec_marker (i : Instr) (hi : i.space = .markerWord) (s : State) :
    ∃ t, exec i s = .next t ∧ Executed i s t := by
  cases i with
  | soi => exact ⟨_, rfl, .advanced _ s .refl (by omega) (.inl (by omega))⟩
  | app0 len => exact app0_executed len s
  | dqt len => exact dqt_executed len s
  | sof0 len => exact sof0_executed len s
  | dht len => exact dht_executed len s
  | sos len => exact sos_executed len s
  | eoi => exact ⟨_, rfl, .done rfl⟩
  | unsup code len =>
    refine ⟨_, rfl, .advanced _ (warnUnsup code len s) (.tail (.single .unsup) (.out _)) (by omega) (.inl ?_)⟩
    have := len.isLt
    omega
  | badPrefix b0 b1 => exact ⟨_, rfl, .raised _ _ s .refl⟩
  | stuff => cases hi
  | dcElem size => cases hi
  | acElem size => cases hi
  | eob => cases hi

/-- The decoder of the marker space answers instructions of that space only (R61, R77). -/
theorem decode_space {bytes rest : List Byte} {i : Instr} (h : decode bytes = .ok (i, rest)) :
    i.space = .markerWord := by
  unfold decode at h
  split at h
  · cases h
  · cases h
  · split at h
    · cases h; rfl
    · split at h
      · cases h; rfl
      · split at h
        · cases h; rfl
        · split at h
          · cases h
          · cases h
          · cases h
            unfold segmentOf
            repeat' split
            all_goals rfl

/-- A step of the machine, in its five ways: a START is taken or dropped, a halted core does nothing, a fetch raises, or
the fetched instruction is executed. -/
inductive Stepped (s : State) : State → Prop where
  | start (h : s.startReq = true) : Stepped s (takeStart s)
  | halted (h : s.run ≠ .run) (h' : s.startReq = false) : Stepped s s
  | truncated (pos : Nat) (h : s.run = .run) (h' : s.startReq = false) : Stepped s (faultEntry .inRead pos s)
  | executed (i : Instr) (t : State) (h : s.run = .run) (h' : s.startReq = false) (hc : s.cur.toNat + 1 < s.inLen.toNat)
      (he : Executed i s t) : Stepped s t

theorem step_cases (s : State) : ∃ t, step s = .next t ∧ Stepped s t := by
  unfold step nextAct
  cases hq : s.startReq with
  | true => exact ⟨_, rfl, .start hq⟩
  | false =>
    have halted (h : s.run ≠ .run) : Stepped s s := .halted h hq
    cases hr : s.run with
    | run =>
      simp only [Bool.false_eq_true, if_false, fetch_run]
      cases hd : decode (inWindow s 4 s.cur.toNat) with
      | ok p =>
        obtain ⟨i, rest⟩ := p
        obtain ⟨t, ht, he⟩ := exec_marker i (decode_space hd) s
        refine ⟨t, ht, .executed i t hr hq ?_ he⟩
        by_contra hn
        by_cases hc : s.cur.toNat < s.inLen.toNat
        · rw [inWindow_succ hc, inWindow_eq_nil (by omega)] at hd; cases hd
        · rw [inWindow_eq_nil (by omega)] at hd; cases hd
      | error e => exact ⟨_, rfl, .truncated _ hr hq⟩
    | idle => exact ⟨s, rfl, halted (by simp [hr])⟩
    | done => exact ⟨s, rfl, halted (by simp [hr])⟩
    | error => exact ⟨s, rfl, halted (by simp [hr])⟩

/-- What a START leaves: the fresh decode, or the error state (R140). -/
theorem takeStart_run {s : State} (h : s.run = .run) : takeStart s = { s with startReq := false } := by
  rw [takeStart, if_pos h]

theorem takeStart_halted {s : State} (h : s.run ≠ .run) :
    let s1 := setRun .run (setCur 0 (startClear { s with startReq := false }))
    takeStart s = if startsWithSoi s then setCur 2 s1 else faultEntry .startNotSoi 0 s1 := by
  intro s1
  have hsame : startsWithSoi s1 = startsWithSoi s := rfl
  rw [takeStart, if_neg h, stateAfter]
  unfold startBody
  simp only [modify_bind_run, get_bind_run]
  rw [show startsWithSoi (setRun .run (setCur 0 (startClear { s with startReq := false }))) = startsWithSoi s from hsame]
  cases startsWithSoi s <;> rfl

/-! ### The host -/

/-- When the host is excluded (R31, R48, R221). -/
theorem hostExcluded_iff {s : State} : hostExcluded s = true ↔ s.run = .run ∨ s.startReq = true := by
  simp [hostExcluded, or_comm]

/-- Everything a move from outside can do. -/
theorem hostMove_cases {m : HostMove} {s t : State} (h : hostMove m s = some t) :
    (∃ a b, a < Config.inCapacity ∧ hostExcluded s = false ∧ t = { s with inBuf := memWrite s.inBuf a b }) ∨
      (∃ n, hostExcluded s = false ∧ t = { s with inLen := n }) ∨ t = s ∨
      (hostExcluded s = false ∧ t = { s with startReq := true }) ∨ t = State.reset := by
  cases m with
  | writeIn a b =>
    simp only [hostMove] at h
    split at h
    · cases h
    · rename_i hn; rw [not_or, Bool.not_eq_true, Nat.not_le] at hn
      exact .inl ⟨a, b, hn.2, hn.1, (Option.some.inj h).symm⟩
  | writeLen n =>
    simp only [hostMove] at h
    split at h
    · cases h
    · rename_i hn; exact .inr (.inl ⟨n, by simpa using hn, (Option.some.inj h).symm⟩)
  | start =>
    simp only [hostMove] at h
    split at h
    · exact .inr (.inr (.inl (Option.some.inj h).symm))
    · rename_i hn; exact .inr (.inr (.inr (.inl ⟨by simpa using hn, (Option.some.inj h).symm⟩)))
  | powerOn => exact .inr (.inr (.inr (.inr (Option.some.inj h).symm)))

/-- Every move from outside keeps the canonical form of the memories. -/
theorem hostMove_memForm {m : HostMove} {s t : State} (hs : MemForm s) (h : hostMove m s = some t) : MemForm t := by
  obtain ⟨a, b, -, -, rfl⟩ | ⟨n, -, rfl⟩ | rfl | ⟨-, rfl⟩ | rfl := hostMove_cases h
  · exact ⟨memWrite_wf _ _ _ hs.1, hs.2⟩
  · exact hs
  · exact hs
  · exact hs
  · exact ⟨List.Pairwise.nil, List.Pairwise.nil⟩

end Sys2Proof.Machine
end

