-- ==== Sys2Proof/Tests/Slice0.lean ====
section
/-! SUPPORT. Tests of single words and single steps, with the expected values of spec/95_test_vectors.md or worked out by
hand from the rule named, and for every obligation with hypotheses a state and operands that meet them. -/

namespace Sys2Proof.Tests

open Sys2Proof.Machine

-- One theorem after the other: each of the evaluations below would otherwise hold a thread of its own.
set_option Elab.async false

/-! ### Helpers -/

/-- A running core at `CUR` = 0 with these bytes in `IN`. -/
def loaded (bytes : List Byte) : State :=
  { State.reset with inBuf := memLoad [] 0 bytes, inLen := BitVec.ofNat 32 bytes.length, run := .run }

/-- A running core whose scan buffer holds these bytes. -/
def scanning (bytes : List Byte) : State :=
  { State.reset with scan := memLoad [] 0 bytes, scanLen := BitVec.ofNat 32 bytes.length, run := .run }

/-- A field of the next state, if there is one. -/
def fieldOf {α : Type} (o : Host.Outcome State Fault Refusal) (f : State → α) : Option α :=
  match o with
  | .next t => some (f t)
  | .fault _ => none
  | .refused _ => none

/-- The DC table of vectors V5: codes 0:00, 10:02, 110:03. -/
def dcTree : Tree := .node (.leaf 0) (.node (.leaf 2) (.node (.leaf 3) .null))

/-- The AC table of vectors V5: codes 0:01, 10:00, 110:02, 1110:03. -/
def acTree : Tree := .node (.leaf 1) (.node (.leaf 0) (.node (.leaf 2) (.node (.leaf 3) .null)))

/-- The four slots with those tables at selector 0. -/
def tablesV5 : HuffTables := ⟨⟨true, dcTree⟩, .absent, ⟨true, acTree⟩, .absent⟩

/-- The state `s` with those tables, one component and an 8 by 8 frame. -/
def framed (s : State) : State := { s with ctx := { s.ctx with ht := tablesV5, ncomp := 1, width := 8, height := 8 } }

/-- The SOS of program P1 with its region. -/
def sosBytes : List Byte := [0xFF, 0xDA, 0x00, 0x08, 0x01, 0x01, 0x00, 0x00, 0x3F, 0x00, 0xD7, 0x2D, 0xFF, 0xD9]

/-- The APP0 of program P1. -/
def app0Bytes : List Byte :=
  [0xFF, 0xE0, 0x00, 0x10, 0x4A, 0x46, 0x49, 0x46, 0x00, 0x01, 0x01, 0x00, 0x00, 0x01, 0x00, 0x01, 0x00, 0x00]

/-- A SOF0 with one component. -/
def sofBytes : List Byte := [0xFF, 0xC0, 0x00, 0x0B, 0x08, 0x00, 0x11, 0x00, 0x14, 0x01, 0x01, 0x21, 0x03]

/-- The DC table of program P1. -/
def dhtBytes : List Byte := [0xFF, 0xC4, 0x00, 0x16, 0x00, 0x01, 0x01, 0x01] ++ List.replicate 13 0 ++ [0x00, 0x02, 0x03]

/-- A DHT with three codes of length 1 (program P5). -/
def dhtFullBytes : List Byte := [0xFF, 0xC4, 0x00, 0x16, 0x00, 0x03] ++ List.replicate 15 0 ++ [0x05, 0x06, 0x07]

/-- A DQT of 8-bit entries 1 to 64. -/
def dqtBytes : List Byte := [0xFF, 0xDB, 0x00, 0x43, 0x00] ++ (List.range 64).map fun k => BitVec.ofNat 8 (k + 1)

/-- A DQT of 16-bit entries 0x0100, 0x0101, … for table selector 1 (program P2). -/
def dqt16Bytes : List Byte :=
  [0xFF, 0xDB, 0x00, 0x83, 0x11] ++ (List.range 64).flatMap fun k => [0x01, BitVec.ofNat 8 k]

/-! ### Ill-formed terms are refused -/

theorem test_wf_refuses_known_code : Instr.wf (.unsup 0xD8 2) = false := by decide
theorem test_wf_refuses_ff_prefix : Instr.wf (.badPrefix 0xFF 0x00) = false := by decide
theorem test_wf_refuses_ac_symbol_zero : Instr.wf (.acElem 0) = false := by decide
theorem test_wf_accepts_the_others :
    Instr.wf (.unsup 0xFE 5) = true ∧ Instr.wf (.badPrefix 0x00 0xD9) = true ∧ Instr.wf (.acElem 1) = true := by decide

/-! ### Decoding, each word written out bit by bit from 30_encoding.md R61 -/

theorem test_decode_soi : decode [0b11111111, 0b11011000] = .ok (.soi, []) := rfl
theorem test_decode_app0 : decode [0b11111111, 0b11100000, 0b00000000, 0b00010000] = .ok (.app0 16, []) := rfl
theorem test_decode_dqt : decode [0b11111111, 0b11011011, 0b00000000, 0b01000011] = .ok (.dqt 67, []) := rfl
theorem test_decode_sof0 : decode [0b11111111, 0b11000000, 0b00000000, 0b00001011] = .ok (.sof0 11, []) := rfl
theorem test_decode_dht : decode [0b11111111, 0b11000100, 0b00000001, 0b00010110] = .ok (.dht 278, []) := rfl
theorem test_decode_sos : decode [0b11111111, 0b11011010, 0b00000000, 0b00001000] = .ok (.sos 8, []) := rfl
theorem test_decode_eoi : decode [0b11111111, 0b11011001] = .ok (.eoi, []) := rfl
theorem test_decode_unsup : decode [0b11111111, 0b11111110, 0b00000000, 0b00000101] = .ok (.unsup 0xFE 5, []) := rfl
theorem test_decode_badPrefix : decode [0b00000000, 0b11011001] = .ok (.badPrefix 0 0xD9, []) := rfl
theorem test_decode_stuff : decodeRegion [0b11111111, 0b00000000] = .ok (.instr .stuff, []) := rfl
theorem test_decode_dcElem : decodeBits dcTree .dc [true, true, false] = .ok (.dcElem 3, []) := rfl
theorem test_decode_acElem : decodeBits acTree .ac [true, true, false] = .ok (.acElem 2, []) := rfl
theorem test_decode_eob : decodeBits acTree .ac [true, false] = .ok (.eob, []) := rfl
theorem test_decode_table_word : decodeTableWord 16 0xFFD9 = some .eoi ∧ decodeTableWord 32 0x0010FFE0 = some (.app0 16) := by
  decide

/-! ### One step of each instruction -/

/-- 95_test_vectors.md V6 f: a later SOI is a no-op of length 2. -/
theorem test_soi : fieldOf (step (loaded [0xFF, 0xD8])) (fun t => (t.cur, t.run)) = some (2, .run) := by decide +kernel

/-- 95_test_vectors.md P1: `JFIF_VER` = 0x0101, densities 0, 1, 1, next `pc` 18 bytes on. -/
theorem test_app0 :
    fieldOf (step (loaded app0Bytes)) (fun t => (t.ctx.jfifVer, t.ctx.densUnits, t.ctx.xdens, t.ctx.ydens, t.cur)) =
      some (0x0101, 0, 1, 1, 18) := by decide +kernel

/-- 95_test_vectors.md V6 e: the first field APP0 reads stands at offset 9. -/
theorem test_app0_truncated :
    fieldOf (step (loaded (app0Bytes.take 6))) (fun t => (t.run, t.err)) = some (.error, ⟨2, 0x02, 0, 9⟩) := by
  decide +kernel

/-- 43_segment_scanner.md R144: entry 2 goes to natural index `ZZ[2]` = 8, entry 63 to 63; `CQT` is untouched. -/
theorem test_dqt :
    fieldOf (step (loaded dqtBytes)) (fun t => (tabGet t.ctx.lqt 8, tabGet t.ctx.lqt 63, tabGet t.ctx.cqt 8, t.cur)) =
      some (some 3, some 64, some 0, 69) := by decide +kernel

/-- 95_test_vectors.md P2: 16-bit entries, selector 1. -/
theorem test_dqt_wide :
    fieldOf (step (loaded dqt16Bytes)) (fun t => (tabGet t.ctx.cqt 8, tabGet t.ctx.lqt 8, t.cur)) =
      some (some 0x0102, some 0, 133) := by decide +kernel

/-- 30_encoding.md R66: height before width, the factors in one byte, horizontal in the high nibble. -/
theorem test_sof0 :
    fieldOf (step (loaded sofBytes))
        (fun t => (t.ctx.height, t.ctx.width, t.ctx.ncomp, tabGet t.ctx.comp 0, t.wNcomp)) =
      some (17, 20, 1, some ⟨3, 1, 2⟩, false) := by decide +kernel

/-- 43_segment_scanner.md R145: a count of 0 warns. -/
theorem test_sof0_warns :
    fieldOf (step (loaded [0xFF, 0xC0, 0x00, 0x08, 0x08, 0x00, 0x11, 0x00, 0x14, 0x00])) (fun t => (t.wNcomp, t.out)) =
      some (true, [.warn 6 0 0 0]) := by decide +kernel

/-- 95_test_vectors.md V3 row `[1,1,1]`. -/
theorem test_dht : fieldOf (step (loaded dhtBytes)) (fun t => (t.ctx.ht.dc0, t.cur)) = some (⟨true, dcTree⟩, 24) := by
  decide +kernel

/-- 95_test_vectors.md P5: the third code of length 1 finds no place. -/
theorem test_dht_full :
    fieldOf (step (loaded dhtFullBytes)) (fun t => (t.run, t.err, t.ctx.ht.dc0.valid)) =
      some (.error, ⟨3, 0x07, 0, 23⟩, false) := by decide +kernel

/-- 95_test_vectors.md P1: one block, coefficients 5, -2 and 1 at natural indices 0, 1 and 8. -/
theorem test_sos :
    fieldOf (step (framed (loaded sosBytes)))
        (fun t => (t.out, t.cur, t.bitOff, t.scanLen, tabGet t.ctx.pred 0)) =
      some ([.block 0 0 0 (tabSet (tabSet (tabSet (tabFill 64 0) 0 5) 1 (-2)) 8 1)], 12, 15, 2, some 5) := by
  decide +kernel

/-- 95_test_vectors.md V6 p: a DC selector of 2. -/
theorem test_sos_selector :
    fieldOf (step (framed (loaded [0xFF, 0xDA, 0x00, 0x08, 0x01, 0x01, 0x20, 0x00, 0x3F, 0x00, 0xFF, 0xD9])))
        (fun t => (t.run, t.err)) =
      some (.error, ⟨3, 0x08, 0, 6⟩) := by decide +kernel

/-- 43_segment_scanner.md R147. -/
theorem test_eoi :
    fieldOf (step (framed (loaded [0xFF, 0xD9]))) (fun t => (t.run, t.cur, t.ctx.ht.dc0.valid, t.ctx.ncomp)) =
      some (.done, 2, false, 1) := by decide +kernel

/-- 95_test_vectors.md V6 h: `FF FF` with length 2. -/
theorem test_unsup :
    fieldOf (step (loaded [0xFF, 0xFF, 0x00, 0x02])) (fun t => (t.wUnsup, t.out, t.cur)) =
      some (true, [.warn 5 0 0xFF 2], 4) := by decide +kernel

/-- 95_test_vectors.md V6 g. -/
theorem test_badPrefix :
    fieldOf (step (loaded [0x00, 0xD9])) (fun t => (t.run, t.err, t.cur)) = some (.error, ⟨7, 0x0B, 0, 0⟩, 0) := by
  decide +kernel

/-- 40_bitstream_reader.md R91: the data byte is `FF` and the cursor passes both bytes. -/
theorem test_stuff :
    fieldOf (exec .stuff (loaded [0xFF, 0x00])) (fun t => (t.scan, t.work.regionPos, t.work.regionLen)) =
      some ([(0, 0xFF)], 2, 1) := by decide +kernel

/-- 95_test_vectors.md S1: the region of the source's example. -/
theorem test_stuff_region :
    refRegion [0xFF, 0x00, 0x12, 0xFF, 0x00, 0x34, 0xFF, 0xD9] = some ([0xFF, 0x12, 0xFF, 0x34], 6) := by decide

/-- 95_test_vectors.md V5: size 2, raw 1 is a difference of -2; with predictor 9 the coefficient is 7. -/
theorem test_dcElem :
    let s := { scanning [0x40] with ctx := { DecodeContext.empty with pred := tabFill _ 9 } }
    fieldOf (exec (.dcElem 2) s) (fun t => (tabGet t.blk 0, tabGet t.ctx.pred 0, t.bitOff)) =
      some (some 7, some (-2), 2) := by decide +kernel

/-- 95_test_vectors.md P13: a symbol above 16. -/
theorem test_dcElem_size :
    fieldOf (exec (.dcElem 0x11) (scanning [0x00])) (fun t => (t.run, t.err)) = some (.error, ⟨7, 0x0E, 0, 0⟩) := by
  decide +kernel

/-- 95_test_vectors.md V5: size 3, raw 4 is 4; position 2 is natural index 8. -/
theorem test_acElem :
    let s := { scanning [0x80] with work := { WorkRegs.clear with k := 2 } }
    fieldOf (exec (.acElem 3) s) (fun t => (tabGet t.blk 8, tabGet t.blk 2, t.bitOff)) = some (some 4, some 0, 3) := by
  decide +kernel

/-- 42_coefficient_decoder.md R122: EOB consumes nothing after its code. -/
theorem test_eob :
    let s := { scanning [0x80] with bitOff := 2, work := { WorkRegs.clear with size := 5 } }
    fieldOf (exec .eob s) (fun t => (t.bitOff, t.work.size, tabGet t.blk 1)) = some (2, 0, some 0) := by decide +kernel

/-! ### States and operands that meet the hypotheses of the obligations -/

theorem test_witness_step_runs :
    (loaded [0xFF, 0xD8]).run = .run ∧ (loaded [0xFF, 0xD8]).startReq = false ∧
      decode (inWindow (loaded [0xFF, 0xD8]) 4 (loaded [0xFF, 0xD8]).cur.toNat) = .ok (.soi, []) :=
  ⟨rfl, rfl, rfl⟩

theorem test_witness_execute_nothing :
    (State.reset.run ≠ .run ∧ State.reset.startReq = false) ∧
      ({ loaded [] with startReq := true }).run = .run ∧ ({ loaded [] with startReq := true }).startReq = true := by
  decide +kernel

/-- A halted core with a START and these bytes. -/
def started (bytes : List Byte) : State := { loaded bytes with run := .idle, startReq := true }

theorem test_witness_start_on_soi :
    let s := started [0xFF, 0xD8]
    s.startReq = true ∧ s.run ≠ .run ∧ 2 ≤ s.inLen.toNat ∧ inAt s 0 = 0xFF ∧ inAt s 1 = 0xD8 := by decide +kernel

theorem test_witness_start_without_soi :
    ((started [0xFF]).run ≠ .run ∧ (started [0xFF]).inLen.toNat < 2) ∧
      inAt (started [0xFE, 0xD8]) 0 ≠ 0xFF ∧ inAt (started [0xFF, 0xD9]) 1 ≠ 0xD8 := by decide +kernel

theorem test_witness_truncated_fetch :
    (loaded []).inLen.toNat ≤ (loaded []).cur.toNat ∧
      (loaded [0xFF]).inLen.toNat = (loaded [0xFF]).cur.toNat + 1 ∧
      (let s := loaded [0xFF, 0xE0]
       inAt s 0 = 0xFF ∧ inAt s 1 ≠ 0xD8 ∧ inAt s 1 ≠ 0xD9 ∧ s.inLen.toNat = s.cur.toNat + 2) ∧
      (let s := loaded [0xFF, 0xE0, 0x00]
       inAt s 0 = 0xFF ∧ inAt s 1 ≠ 0xD8 ∧ inAt s 1 ≠ 0xD9 ∧ s.inLen.toNat = s.cur.toNat + 3) := by decide +kernel

theorem test_witness_host :
    (loaded []).run = .run ∧ { State.reset with startReq := true }.startReq = true ∧
      (State.reset.run ≠ .run ∧ State.reset.startReq = false ∧ 2 ^ 32 - 2 < 2 ^ 32 - 1 ∧ memWf State.reset.inBuf) := by
  decide +kernel

/-- 70_reset_and_hazards.md R221: load, START, poll; between START and the halt the host has no write and no read. -/
theorem test_host_launch :
    let s := (hostMove .start State.reset).getD State.reset
    polledState State.reset = .idle ∧ polledState s = .run ∧ hostMove (.writeLen 2) s = none ∧ hostReads s = none := by
  decide +kernel

theorem test_witness_marker_encode :
    (Instr.unsup 0xFE 0xFFFF).wf = true ∧ (Instr.unsup 0xFE 0xFFFF).space = .markerWord ∧
      (Instr.badPrefix 0xFE 0xFF).wf = true ∧ (Instr.badPrefix 0xFE 0xFF).space = .markerWord := by decide

theorem test_witness_marker_decode : decode [0xFF, 0x00, 0xFF, 0xFF] = .ok (.unsup 0x00 0xFFFF, []) := rfl

theorem test_witness_scan_encode :
    (Instr.acElem 3).wf = true ∧ encodeBits acTree (.acElem 3) = some (.ac, [true, true, true, false]) := by decide

theorem test_witness_reads :
    let s := loaded [0xFF, 0xD8]
    1 < s.inLen.toNat ∧ s.inLen.toNat ≤ 2 ∧ 0 + 1 < s.inLen.toNat ∧ s.inLen.toNat = 1 + 1 := by decide +kernel

theorem test_witness_read_bits :
    let s := scanning [0xD7, 0x2D]
    s.bitOff.toNat + 16 ≤ 8 * s.scanLen.toNat ∧
      8 * s.scanLen.toNat < ({ s with bitOff := 1 }).bitOff.toNat + 16 := by decide +kernel

theorem test_witness_destuff :
    memWf (loaded [0xFF, 0x00, 0x12, 0xFF, 0xD9]).scan ∧
      refRegion (inBytesFrom (loaded [0xFF, 0x00, 0x12, 0xFF, 0xD9]) 0) = some ([0xFF, 0x12], 3) := by decide +kernel

/-- 95_test_vectors.md V3, the table `[1,0,2]`: a leaf, a null child, an internal node at the end of the bits. -/
theorem test_witness_lookup :
    (slotOf State.reset.ctx.ht .dc 0).valid = false ∧ (slotOf tablesV5 .dc 0).valid = true ∧ dcTree ≠ .null ∧
      (walkTree dcTree (bitsLeft (framed (scanning [0xC0]))) = .ok (3, [false, false, false, false, false])) ∧
      walkTree dcTree (bitsLeft (framed (scanning [0xE0]))) = .error .notACode ∧
      walkTree dcTree (bitsLeft { framed (scanning [0x03]) with bitOff := 6 }) = .error .outOfBits :=
  ⟨rfl, rfl, by decide, rfl, rfl, rfl⟩

theorem test_witness_canonical :
    let pairs : List (Nat × Byte) := [(1, 5), (3, 6), (3, 7)]
    (pairs.map (·.1)).Pairwise (· ≤ ·) ∧ (∀ p ∈ pairs, 1 ≤ p.1) ∧
      insertAll clearedTree pairs =
        .ok (.node (.leaf 5) (.node (.node (.leaf 6) (.leaf 7)) .null)) ∧
      (canonicalCodes 1 0 (pairs.map (·.1)))[2]? = some (3, 5) ∧ pairs[2]? = some (3, 7) :=
  ⟨by decide, by decide, rfl, rfl, rfl⟩

theorem test_witness_insert :
    let pairs : List (Nat × Byte) := [(1, 7), (1, 9)]
    (pairs.map (·.1)).Pairwise (· ≤ ·) ∧ (∀ p ∈ pairs, 1 ≤ p.1 ∧ p.1 ≤ 16) ∧
      insertAll clearedTree pairs = .ok (.node (.leaf 7) (.leaf 9)) ∧
      (pairs.map fun p => 2 ^ (16 - p.1)).sum = 2 ^ 16 :=
  ⟨by decide, by decide, rfl, by decide⟩

/-- 95_test_vectors.md V4: both clauses at their boundary for size 16, and size 1. -/
theorem test_witness_extend :
    extend 32768 16 = 32768 ∧ extend 32767 16 = -32768 ∧ extend 0 16 = -65535 ∧ extend 65535 16 = 65535 ∧
      extend 0 1 = -1 ∧ extend 1 1 = 1 := by decide

theorem test_witness_app0 : (loaded (app0Bytes.take 16)).cur.toNat + 15 < (loaded (app0Bytes.take 16)).inLen.toNat := by
  decide +kernel

theorem test_witness_app0_truncated :
    (loaded (app0Bytes.take 15)).inLen.toNat ≤ (loaded (app0Bytes.take 15)).cur.toNat + 15 := by decide +kernel

theorem test_witness_dqt :
    (hiNibble (inAt (loaded dqtBytes) 4) = 0 ∧ 5 + 64 ≤ (loaded dqtBytes).inLen.toNat) ∧
      hiNibble (inAt (loaded dqt16Bytes) 4) = 1 ∧ 5 + 128 ≤ (loaded dqt16Bytes).inLen.toNat := by decide +kernel

theorem test_witness_dqt_precision :
    let s := loaded [0xFF, 0xDB, 0x00, 0x43, 0x20]
    s.cur.toNat + 4 < s.inLen.toNat ∧ 1 < hiNibble (inAt s (s.cur.toNat + 4)) := by decide +kernel

/-- An 8-bit luma table cut before its last entry, a 16-bit chroma table cut at the high and at the low byte of its last
entry, and a DQT without its header byte; cut at the low byte of entry 2, entries 0 and 1 are stored (60_exceptions.md
R187). -/
theorem test_witness_dqt_truncated :
    (let s := loaded (dqtBytes.take 68)
     hiNibble (inAt s 4) = 0 ∧ loNibble (inAt s 4) = 0 ∧ 0 + 4 < s.inLen.toNat ∧ s.inLen.toNat < 0 + 5 + 64 * 1) ∧
    (let s := loaded (dqt16Bytes.take 131)
     hiNibble (inAt s 4) = 1 ∧ loNibble (inAt s 4) = 1 ∧ 0 + 4 < s.inLen.toNat ∧ s.inLen.toNat < 0 + 5 + 64 * 2) ∧
    (let s := loaded (dqt16Bytes.take 132)
     hiNibble (inAt s 4) = 1 ∧ 0 + 4 < s.inLen.toNat ∧ s.inLen.toNat < 0 + 5 + 64 * 2) ∧
    (loaded (dqtBytes.take 4)).inLen.toNat ≤ 0 + 4 ∧
    fieldOf (step (loaded (dqt16Bytes.take 10)))
        (fun t => (tabGet t.ctx.cqt 0, tabGet t.ctx.cqt 1, tabGet t.ctx.cqt 8, t.err)) =
      some (some 0x0100, some 0x0101, some 0, ⟨2, 0x02, 0, 10⟩) := by
  decide +kernel

theorem test_witness_sof0 :
    let s := loaded sofBytes
    s.cur.toNat + 10 + 3 * (inAt s (s.cur.toNat + 9)).toNat ≤ s.inLen.toNat := by decide +kernel

theorem test_witness_sof0_truncated :
    ((loaded (sofBytes.take 9)).inLen.toNat ≤ 0 + 9) ∧
    (let s := loaded (sofBytes.take 12)
     0 + 9 < s.inLen.toNat ∧ s.inLen.toNat < 0 + 10 + 3 * (inAt s (0 + 9)).toNat) := by decide +kernel

theorem test_witness_dht :
    let s := loaded dhtBytes
    hiNibble (inAt s 4) ≤ 1 ∧ loNibble (inAt s 4) ≤ 1 ∧ 19 + (dhtCounts s 0).sum ≤ (0x0016 : Half).toNat ∧
      21 + (dhtCounts s 0).sum ≤ s.inLen.toNat := by decide +kernel

theorem test_witness_dht_tree :
    dhtPairs (loaded dhtBytes) 0 [1, 1, 1, 0, 0, 0, 0, 0, 0, 0, 0, 0, 0, 0, 0, 0] = [(1, 0), (2, 2), (3, 3)] ∧
      dhtCounts (loaded dhtBytes) 0 = [1, 1, 1, 0, 0, 0, 0, 0, 0, 0, 0, 0, 0, 0, 0, 0] := by decide +kernel

/-- With `test_witness_dht`: the last hypothesis, at that state. -/
theorem test_witness_dht_insert :
    insertAll clearedTree (dhtPairs (loaded dhtBytes) 0 (dhtCounts (loaded dhtBytes) 0)) = .ok dcTree := by
  rw [test_witness_dht_tree.2, test_witness_dht_tree.1]; rfl

theorem test_witness_dht_builds :
    let s := loaded dhtBytes
    (hiNibble (inAt s 4) ≤ 1 ∧ loNibble (inAt s 4) ≤ 1 ∧ 19 + (dhtCounts s 0).sum ≤ (0x0016 : Half).toNat ∧
      21 + (dhtCounts s 0).sum ≤ s.inLen.toNat) ∧
      insertAll clearedTree (dhtPairs s 0 (dhtCounts s 0)) = .ok dcTree :=
  ⟨test_witness_dht, test_witness_dht_insert⟩

theorem test_witness_dht_key :
    let s := loaded [0xFF, 0xC4, 0x00, 0x13, 0x02]
    s.cur.toNat + 4 < s.inLen.toNat ∧ (1 < hiNibble (inAt s 4) ∨ 1 < loNibble (inAt s 4)) := by decide +kernel

theorem test_witness_dht_header_truncated :
    (loaded (dhtBytes.take 4)).inLen.toNat ≤ 0 + 4 ∧
    (let s := loaded (dhtBytes.take 20)
     hiNibble (inAt s 4) ≤ 1 ∧ loNibble (inAt s 4) ≤ 1 ∧ 0 + 4 < s.inLen.toNat ∧ s.inLen.toNat ≤ 0 + 20) := by
  decide +kernel

theorem test_witness_dht_overrun :
    let s := loaded (dhtBytes.take 21)
    hiNibble (inAt s 4) ≤ 1 ∧ loNibble (inAt s 4) ≤ 1 ∧ s.cur.toNat + 20 < s.inLen.toNat ∧
      (21 : Half).toNat < 19 + (dhtCounts s 0).sum := by decide +kernel

/-- 95_test_vectors.md P5, its third symbol: inside `IN`, and not placed. -/
theorem test_witness_dht_full :
    dhtPairs (loaded dhtFullBytes) 0 (dhtCounts (loaded dhtFullBytes) 0) = [(1, 5), (1, 6), (1, 7)] ∧
      0 + 21 + 2 < (loaded dhtFullBytes).inLen.toNat ∧ 19 + (dhtCounts (loaded dhtFullBytes) 0).sum ≤ (22 : Half).toNat := by
  decide +kernel

theorem test_witness_dht_full_insert :
    insertAll clearedTree (dhtPairs (loaded dhtFullBytes) 0 (dhtCounts (loaded dhtFullBytes) 0)) = .error 2 := by
  rw [test_witness_dht_full.1]; rfl

/-- 95_test_vectors.md V7: the third symbol is missing. -/
theorem test_witness_dht_truncated :
    let s := loaded (dhtFullBytes.take 23)
    s.inLen.toNat < 0 + 21 + (dhtCounts s 0).sum ∧
      (dhtPairs s 0 (dhtCounts s 0)).take (s.inLen.toNat - (0 + 21)) = [(1, 5), (1, 6)] := by decide +kernel

theorem test_witness_dht_truncated_insert :
    let s := loaded (dhtFullBytes.take 23)
    insertAll clearedTree ((dhtPairs s 0 (dhtCounts s 0)).take (s.inLen.toNat - (0 + 21))) =
      .ok (.node (.leaf 5) (.leaf 6)) := by
  intro s; rw [test_witness_dht_truncated.2]; rfl

/-- 95_test_vectors.md P1: the scan of one block. -/
theorem test_witness_sos :
    let s := framed (loaded sosBytes)
    memWf s.scan ∧ s.cur.toNat + 4 + 2 * 1 < s.inLen.toNat ∧ inAt s 4 = s.ctx.ncomp ∧
      (∀ i, i < 1 → hiNibble (inAt s (6 + 2 * i)) ≤ 1 ∧ loNibble (inAt s (6 + 2 * i)) ≤ 1) ∧
      (∀ i, i < 1 → tabGet s.ctx.pred i = some 0) ∧
      refRegion (inBytesFrom s (0 + 2 + 8)) = some ([0xD7, 0x2D], 2) := by decide +kernel

theorem test_witness_sos_blocks :
    let s := framed (loaded sosBytes)
    refScan s.ctx.ht (scanSelectors s 0 1) (gridOrder 1 (8 / 8) (8 / 8)) s.ctx.pred ([0xD7, 0x2D].flatMap byteBits) =
      ⟨[.block 0 0 0 (tabSet (tabSet (tabSet (tabFill 64 0) 0 5) 1 (-2)) 8 1)], tabSet s.ctx.pred 0 5, .ok [true]⟩ := by
  decide +kernel

/-- The DC code `111` is a null child, reached with 5 bits of the byte left. -/
theorem test_witness_sos_block_faults :
    let s := framed (loaded [0xFF, 0xDA, 0x00, 0x08, 0x01, 0x01, 0x00, 0x00, 0x3F, 0x00, 0xE0, 0xFF, 0xD9])
    refScan s.ctx.ht (scanSelectors s 0 1) (gridOrder 1 (8 / 8) (8 / 8)) s.ctx.pred ([0xE0].flatMap byteBits) =
        ⟨[], tabSet s.ctx.pred 0 0, .error ⟨3, 0x0A, 5⟩⟩ ∧
      fieldOf (step s) (fun t => (t.run, t.err, t.out, t.cur)) = some (.error, ⟨3, 0x0A, 0, 3⟩, [], 0) := by
  decide +kernel

theorem test_witness_sos_decodes :
    let s := framed (loaded sosBytes)
    (memWf s.scan ∧ s.cur.toNat + 4 + 2 * 1 < s.inLen.toNat ∧ inAt s 4 = s.ctx.ncomp ∧
      (∀ i, i < 1 → hiNibble (inAt s (6 + 2 * i)) ≤ 1 ∧ loNibble (inAt s (6 + 2 * i)) ≤ 1) ∧
      (∀ i, i < 1 → tabGet s.ctx.pred i = some 0) ∧
      refRegion (inBytesFrom s (0 + 2 + 8)) = some ([0xD7, 0x2D], 2)) ∧
      ∀ i, 1 ≤ i → tabGet s.ctx.pred i = tabGet s.ctx.pred i :=
  ⟨test_witness_sos, fun _ _ => rfl⟩

theorem test_witness_sos_faults :
    ((loaded (sosBytes.take 4)).inLen.toNat ≤ 0 + 4) ∧
    (let s := framed (loaded (sosBytes.take 6))
     inAt s 4 = s.ctx.ncomp ∧ 0 + 4 + 2 * 0 < s.inLen.toNat ∧ s.inLen.toNat ≤ 0 + 6 + 2 * 0) ∧
    (inAt (framed (loaded [0xFF, 0xDA, 0x00, 0x08, 0x02])) 4 ≠ (framed (loaded [])).ctx.ncomp ∧
      0 + 4 < (framed (loaded [0xFF, 0xDA, 0x00, 0x08, 0x02])).inLen.toNat) ∧
    (let s := framed (loaded [0xFF, 0xDA, 0x00, 0x08, 0x01, 0x01, 0x20])
     inAt s 4 = s.ctx.ncomp ∧ 6 + 2 * 0 < s.inLen.toNat ∧ ¬ (hiNibble (inAt s 6) ≤ 1 ∧ loNibble (inAt s 6) ≤ 1)) ∧
    (let s := framed (loaded (sosBytes.take 13))
     inAt s 4 = s.ctx.ncomp ∧ 0 + 4 + 2 * 1 < s.inLen.toNat ∧ hiNibble (inAt s 6) ≤ 1 ∧ loNibble (inAt s 6) ≤ 1 ∧
       refRegion (inBytesFrom s (0 + 2 + 8)) = none) := by decide +kernel

/-- 95_test_vectors.md V6 w: a frame of height 7. -/
theorem test_witness_empty_grid :
    let s := { loaded sosBytes with ctx := { DecodeContext.empty with ncomp := 1, width := 8, height := 7 } }
    memWf s.scan ∧ s.ctx.height.toNat < 8 ∧ 0 + 4 + 2 * 1 < s.inLen.toNat ∧ inAt s 4 = s.ctx.ncomp ∧
      hiNibble (inAt s 6) ≤ 1 ∧ loNibble (inAt s 6) ≤ 1 ∧
      refRegion (inBytesFrom s (0 + 2 + 8)) = some ([0xD7, 0x2D], 2) := by decide +kernel

theorem test_witness_stuff : memWf (loaded []).scan := by decide +kernel

/-- An element of 16 bits that just fits, and the last component. -/
theorem test_witness_elements :
    let s := { scanning [0x80, 0x00] with work := { WorkRegs.clear with ci := 254 } }
    tabGet s.ctx.pred s.work.ci.toNat = some 0 ∧ refValue 16 (bitsLeft s) = .ok (32768, []) ∧
      refValue 0 (bitsLeft s) = .ok (0, bitsLeft s) := by decide +kernel

theorem test_witness_element_faults :
    let s := { scanning [0x80, 0x00] with bitOff := 1 }
    16 < (17 : Byte).toNat ∧ s.work.ci.toNat < 255 ∧ 1 ≤ (16 : Byte).toNat ∧ (16 : Byte).toNat ≤ 16 ∧
      8 * s.scanLen.toNat < s.bitOff.toNat + (16 : Byte).toNat := by decide +kernel

theorem test_witness_no_component : ({ loaded [] with work := { WorkRegs.clear with ci := 255 } }).work.ci = 255 := rfl

/-- 95_test_vectors.md V5, the first DECODE_BLOCK row; its bits cut off after 12, where the magnitude of the second AC
element is missing; and no DC table. -/
theorem test_witness_decode_block :
    let s := framed (scanning [0xD7, 0x2D])
    let blk := tabSet (tabSet (tabFill 64 0) 0 5) 1 (-2)
    tabGet s.ctx.sel 0 = some ⟨0, 0⟩ ∧ tabGet s.ctx.pred 0 = some 0 ∧ treeOf s.ctx.ht .dc 0 = some dcTree ∧
      treeOf s.ctx.ht .ac 0 = some acTree ∧
      refBlock (some dcTree) (some acTree) 0 (bitsLeft s) = ⟨tabSet blk 8 1, 5, .ok [true]⟩ ∧
      refBlock (some dcTree) (some acTree) 0 ((bitsLeft s).take 12) = ⟨blk, 5, .error ⟨2, 0x04, 0⟩⟩ ∧
      refBlock none (some acTree) 7 (bitsLeft s) = ⟨tabFill 64 0, 7, .error ⟨3, 0x09, 16⟩⟩ := by
  decide +kernel

/-- 95_test_vectors.md S3: differences 5 and -2. -/
theorem test_witness_predictor :
    let s := scanning [0xA8]
    s.work.ci.toNat < 255 ∧ refValue 3 (bitsLeft s) = .ok (5, [false, true, false, false, false]) ∧
      refValue 2 [false, true, false, false, false] = .ok (-2, [false, false, false]) := by decide +kernel

/-- A state that meets every invariant at once and takes a step: the premises of the seven invariant statements. -/
theorem test_witness_invariants :
    let s := loaded [0xFF, 0xD9]
    MemForm s ∧ CursorBound s ∧ ScanBound s ∧ ErrLegal s ∧ s.run = .run ∧ s.startReq = false ∧
      ∃ t, step s = .next t ∧ t.run = .done := by
  refine ⟨⟨by decide +kernel, by decide +kernel⟩, ?_, ?_, ?_, rfl, rfl, _, rfl, rfl⟩
  · unfold CursorBound; decide +kernel
  · unfold ScanBound; decide +kernel
  · unfold ErrLegal; decide +kernel

/-- The invariants over tables and predictors, at a state with built tables and small predictors. -/
theorem test_witness_table_invariants :
    let s := framed (loaded [0xFF, 0xD9])
    TablesShaped s ∧ PredBound s ∧ HaltReleased s ∧ ∃ t, step s = .next t := by
  refine ⟨?_, ?_, fun h => absurd rfl h, _, rfl⟩
  · intro cls sel h
    have two : ∀ b : BitVec 1, b = 0 ∨ b = 1 := by decide
    cases cls <;> rcases two sel with rfl | rfl
    · simp [slotOf, framed, tablesV5, dcTree, TreeShaped, innerShaped]
    · exact absurd h (by decide)
    · simp [slotOf, framed, tablesV5, acTree, TreeShaped, innerShaped]
    · exact absurd h (by decide)
  · intro c v hv
    have hf : tabGet (tabFill 255 (0 : Coef)) c = some v := hv
    have hv0 : v = 0 := by
      have hmem : v ∈ List.replicate 255 (0 : Coef) := List.mem_of_getElem? hf
      exact List.eq_of_mem_replicate hmem
    rw [hv0]; decide

/-- A step that sets a flag and appends a record, in a state whose other flag is set already. -/
theorem test_witness_out_and_flags :
    let s := { loaded [0xFF, 0xFE, 0x00, 0x02] with wNcomp := true, out := [.warn 6 0 2 0] }
    s.run = .run ∧ s.startReq = false ∧ ∃ t, step s = .next t ∧ t.wUnsup = true ∧ t.out.length = 2 :=
  ⟨rfl, rfl, _, rfl, rfl, rfl⟩

/-- Two states that hold the same bytes below `IN_LEN` and differ beyond it. -/
theorem test_witness_bytes_beyond :
    let s := loaded [0xFF, 0xD8]
    (∀ a, a < 2 → inAt { s with inBuf := memLoad [] 0 [0xFF, 0xD8, 0x55] } a = inAt s a) ∧ s.inLen.toNat = 2 := by
  decide +kernel

/-- A halted core that decoded before and a fresh one, with one stream and a START each. -/
theorem test_witness_restart :
    let s := started [0xFF, 0xD8]
    let u := { s with run := .error, err := ⟨2, 0x02, 2, 3⟩, wUnsup := true, out := [.warn 5 2 0xFF 2] }
    s.inBuf = u.inBuf ∧ s.inLen = u.inLen ∧ s.run ≠ .run ∧ u.run ≠ .run ∧ s.startReq = true ∧ u.startReq = true := by
  decide +kernel

/-! ### The interface -/

/-- The table word of a SOI, placed where the next step fetches, runs from reset. -/
theorem test_with_fetch_word :
    fieldOf (step (State.reset.withFetchWord 16 0xFFD8)) (fun t => (t.run, t.cur)) = some (.run, 2) := by decide +kernel

end Sys2Proof.Tests
end

section
/-!
The zig-zag tables (00_scope.md R9): `zz` and `zzInv` are inverse to each other on the 64 positions of a block.
-/
namespace Sys2Proof.Machine

/-- A serialized position goes to a natural index of the block (R9, R126). -/
theorem zz_lt {k : Nat} (hk : k < 64) : zz k < 64 := by
  revert k
  decide

theorem zzInv_lt {n : Nat} (hn : n < 64) : zzInv n < 64 := by
  revert n
  decide

/-- `ZZINV` undoes `ZZ`, so no two serialized positions share a natural index. -/
@[simp] theorem zzInv_zz {k : Nat} (hk : k < 64) : zzInv (zz k) = k := by
  revert k
  decide

/-- `ZZ` undoes `ZZINV`, so every natural index is reached. -/
@[simp] theorem zz_zzInv {n : Nat} (hn : n < 64) : zz (zzInv n) = n := by
  revert n
  decide

/-- A position is fixed by `ZZ` after `ZZ` exactly where `ZZ` agrees with its inverse. -/
theorem zz_zz_eq_iff_zz_eq_zzInv {k : Nat} (hk : k < 64) : zz (zz k) = k ↔ zz k = zzInv k := by
  constructor
  · intro h
    rw [← zzInv_zz (zz_lt hk), h]
  · intro h
    rw [h, zz_zzInv hk]

/-- The two tables agree at six entries only. -/
theorem zz_eq_zzInv_iff {k : Nat} (hk : k < 64) :
    zz k = zzInv k ↔ k = 0 ∨ k = 1 ∨ k = 22 ∨ k = 41 ∨ k = 62 ∨ k = 63 := by
  revert k
  decide

/-- Settles O22: the tables are inverse to each other, and the fixed points of `ZZ` after `ZZ` are the entries at which
they agree. -/
theorem zigZagIsAPermutation : Obligations.ZigZagIsAPermutation := by
  unfold Obligations.ZigZagIsAPermutation
  refine ⟨fun k hk => ?inverse, rfl, rfl, rfl, fun k hk => ?fixedPoints⟩
  case inverse => exact ⟨zz_lt hk, zzInv_zz hk, zzInv_lt hk, zz_zzInv hk⟩
  case fixedPoints => exact (zz_zz_eq_iff_zz_eq_zzInv hk).trans (zz_eq_zzInv_iff hk)

end Sys2Proof.Machine
end

section
/-!
What a step keeps, said once: the parts every step is made of (START taken, an update, a cursor move, fault entry, the
halt), and the principle that a predicate these parts keep is kept by the whole step.
-/
namespace Sys2Proof.Machine

/-- A predicate that every part of a step of a running core keeps: START dropped, an update, the cursor moved below the
bound of R12, fault entry (R183), the halt of EOI (R147). -/
structure RunInvariant (I : State → Prop) : Prop where
  dropStart : ∀ s, I s → I { s with startReq := false }
  update : ∀ s t, s.run = .run → I s → Update s t → I t
  cursor : ∀ s a, s.run = .run → a < 2 ^ 32 + 65536 → I s → I (setCur a s)
  fault : ∀ s r pos, s.run = .run → I s → I (faultEntry r pos s)
  halt : ∀ s, s.run = .run → I s → I (setRun .done (releaseTables s))

/-- A predicate that in addition the fresh decode of START (R140) keeps, before it looks at the stream. -/
structure StepInvariant (I : State → Prop) : Prop extends RunInvariant I where
  start : ∀ s, s.run ≠ .run → I s → I (setRun .run (setCur 0 (startClear s)))

variable {I : State → Prop} {s t : State}

/-- A running core reaches only running states by updates, so they keep the predicate. -/
theorem RunInvariant.of_reach (hI : RunInvariant I) (hrun : s.run = .run) (hs : I s) (h : Reach s t) : I t := by
  have keeps : t.run = .run ∧ I t := by
    refine reach_inv (I := fun u => u.run = .run ∧ I u) (fun u v hu huv => ?_) h ⟨hrun, hs⟩
    obtain ⟨hur, hui⟩ := hu
    exact ⟨(reach_run (.single huv)).trans hur, hI.update u v hur hui huv⟩
  exact keeps.2

/-- An instruction fetched inside `IN` keeps the predicate; its cursor stays below the bound of R12. -/
theorem RunInvariant.of_executed {i : Instr} (hI : RunInvariant I) (hrun : s.run = .run)
    (hc : s.cur.toNat + 1 < s.inLen.toNat) (hs : I s) (h : Executed i s t) : I t := by
  have hlen := s.inLen.isLt
  cases h with
  | raised r pos u hu => exact hI.fault u r pos ((reach_run hu).trans hrun) (hI.of_reach hrun hs hu)
  | advanced a u hu _ hhi => exact hI.cursor u a ((reach_run hu).trans hrun) (by omega) (hI.of_reach hrun hs hu)
  | done _ => exact hI.halt (setCur (s.cur.toNat + 2) s) hrun (hI.cursor s _ hrun (by omega) hs)

/-- What the parts of a running step keep, the step keeps. -/
theorem RunInvariant.of_step (hI : RunInvariant I) (hrun : s.run = .run) (hs : I s) (h : step s = .next t) : I t := by
  obtain ⟨u, hu, hsu⟩ := step_cases s
  cases hu.symm.trans h
  cases hsu with
  | start _ => rw [takeStart_run hrun]; exact hI.dropStart s hs
  | halted hn _ => exact absurd hrun hn
  | truncated pos _ _ => exact hI.fault s .inRead pos hrun hs
  | executed i _ _ _ hc he => exact hI.of_executed hrun hc hs he

/-- A START taken by a halted core keeps the predicate, whether the stream begins with SOI or not. -/
theorem StepInvariant.of_takeStart (hI : StepInvariant I) (hrun : s.run ≠ .run) (hs : I s) : I (takeStart s) := by
  have fresh := hI.start { s with startReq := false } hrun (hI.dropStart s hs)
  rw [takeStart_halted hrun]
  split
  · exact hI.cursor _ 2 rfl (by omega) fresh
  · exact hI.fault _ .startNotSoi 0 rfl fresh

/-- What the parts of a step keep, every step keeps. -/
theorem StepInvariant.of_step (hI : StepInvariant I) (hs : I s) (h : step s = .next t) : I t := by
  by_cases hrun : s.run = .run
  · exact hI.toRunInvariant.of_step hrun hs h
  · obtain ⟨u, hu, hsu⟩ := step_cases s
    cases hu.symm.trans h
    cases hsu with
    | start _ => exact hI.of_takeStart hrun hs
    | halted _ _ => exact hs
    | truncated _ hr _ => exact absurd hr hrun
    | executed _ _ hr _ _ _ => exact absurd hr hrun

end Sys2Proof.Machine
end

section
/-!
The invariants of 10_state.md on the table shapes, the cursors, the scan buffer and the error registers: each is kept by
the parts of a step, so by every step.
-/
namespace Sys2Proof.Machine

variable {s t : State}

/-! ### The shape of valid trees (R22) -/

/-- A released slot is not valid (R105). -/
@[simp] theorem slotOf_released_valid (cls : TabClass) (sel : BitVec 1) : (slotOf .released cls sel).valid = false := by
  rw [slotOf_released, Slot.absent]

theorem tablesShaped_of_released (h : s.ctx.ht = .released) : TablesShaped s := by
  intro cls sel hv
  rw [h, slotOf_released_valid] at hv
  cases hv

/-- A built slot with a tree of the right shape, beside shaped tables. -/
theorem tablesShaped_setSlot {u : Tree} (cls : TabClass) (sel : BitVec 1) (hu : TreeShaped u) (hs : TablesShaped s) :
    TablesShaped (setSlot cls sel ⟨true, u⟩ s) := by
  intro cls' sel' hv
  rw [setSlot_ctx] at hv ⊢
  by_cases same : cls = cls' ∧ sel = sel'
  · obtain ⟨rfl, rfl⟩ := same
    rw [slotOf_withSlot_self]
    exact hu
  · rw [slotOf_withSlot_ne _ _ same] at hv ⊢
    exact hs cls' sel' hv

theorem update_tablesShaped (hs : TablesShaped s) (h : Update s t) : TablesShaped t := by
  cases h with
  | slot cls sel u hu => exact tablesShaped_setSlot cls sel hu hs
  | fields f hht _ =>
    unfold TablesShaped
    rw [setCtx_ctx, hht]
    exact hs
  | reset => exact tablesShaped_of_released rfl
  | _ => exact hs

theorem tablesShaped_stepInvariant : StepInvariant TablesShaped where
  dropStart _ hs := hs
  update _ _ _ hs h := update_tablesShaped hs h
  cursor _ _ _ _ hs := hs
  fault _ _ _ _ _ := tablesShaped_of_released rfl
  halt _ _ _ := tablesShaped_of_released rfl
  start _ _ _ := tablesShaped_of_released rfl

/-- Settles O47: HT_BUILD alone makes a slot valid, with a tree of that shape. -/
theorem stepKeepsTreesShaped : Obligations.StepKeepsTreesShaped :=
  fun _ _ => tablesShaped_stepInvariant.of_step

/-! ### The byte cursor (R12) -/

/-- A number cut to a register's width is no larger. -/
theorem toNat_ofNat_le_self (w n : Nat) : (BitVec.ofNat w n).toNat ≤ n := by
  rw [BitVec.toNat_ofNat]
  exact Nat.mod_le _ _

theorem cursorBound_stepInvariant : StepInvariant CursorBound where
  dropStart _ hs := hs
  update s t _ hs h := by
    unfold CursorBound
    rw [reach_cur (.single h)]
    exact hs
  cursor _ a _ ha _ := (toNat_ofNat_le_self 33 a).trans_lt ha
  fault _ _ _ _ hs := hs
  halt _ _ hs := hs
  start _ _ _ := (toNat_ofNat_le_self 33 0).trans_lt (by decide)

/-- Settles O48: an advance starts inside `IN` and moves by at most `2 + L`, or ends inside `IN`. -/
theorem stepKeepsCursorBound : Obligations.StepKeepsCursorBound :=
  fun _ _ => cursorBound_stepInvariant.of_step

/-! ### The scan buffer and the bit cursor (R13, R25) -/

theorem update_scanBound (hs : ScanBound s) (h : Update s t) : ScanBound t := by
  obtain ⟨hlen, hbit⟩ := hs
  cases h with
  | bits n hn => exact ⟨hlen, (toNat_ofNat_le_self 36 _).trans hn⟩
  | region n hn => exact ⟨(toNat_ofNat_le_self 32 n).trans hn, Nat.zero_le _⟩
  | _ => exact ⟨hlen, hbit⟩

theorem scanBound_stepInvariant : StepInvariant ScanBound where
  dropStart _ hs := hs
  update _ _ _ hs h := update_scanBound hs h
  cursor _ _ _ _ hs := hs
  fault _ _ _ _ hs := hs
  halt _ _ hs := hs
  start _ _ _ := ⟨Nat.zero_le _, Nat.zero_le _⟩

/-- Settles O49: READ_BITS tests its bound before `BITOFF` moves, and DESTUFF stores no more bytes than it passes. -/
theorem stepKeepsScanBound : Obligations.StepKeepsScanBound :=
  fun _ _ => scanBound_stepInvariant.of_step

/-! ### The error registers (R16, R180, R181) -/

/-- Every reason the core raises belongs to one of the four fatal kinds (R181). -/
theorem kindCode_reasonKind (r : Reason) :
    kindCode (reasonKind r) = 2 ∨ kindCode (reasonKind r) = 3 ∨ kindCode (reasonKind r) = 4 ∨
      kindCode (reasonKind r) = 7 := by
  cases r <;> decide

theorem kindCode_reasonKind_ne_zero (r : Reason) : kindCode (reasonKind r) ≠ 0 := by
  cases r <;> decide

theorem reasonCode_le (r : Reason) : (reasonCode r).toNat ≤ 0x0E := by
  cases r <;> decide

theorem reasonCode_ne_zero (r : Reason) : reasonCode r ≠ 0 := by
  cases r <;> decide

theorem errLegal_faultEntry (r : Reason) (pos : Nat) (s : State) : ErrLegal (faultEntry r pos s) := by
  have hkind := kindCode_reasonKind_ne_zero r
  refine ⟨.inr (kindCode_reasonKind r), reasonCode_le r, ?running, ?reason, ?outside⟩
  case running => exact iff_of_true rfl hkind
  case reason => exact iff_of_false hkind (reasonCode_ne_zero r)
  case outside => exact fun h => absurd h hkind

/-- Cleared error registers are legal outside `ERROR` (R16). -/
theorem errLegal_of_clear (hrun : s.run ≠ .error) (herr : s.err = .clear) : ErrLegal s := by
  unfold ErrLegal
  rw [herr]
  exact ⟨.inl rfl, Nat.zero_le _, iff_of_false hrun fun h => h rfl, iff_of_true rfl rfl, fun _ => ⟨rfl, rfl⟩⟩

/-- Legality depends on nothing but the error registers and on whether the core is in `ERROR`. -/
theorem errLegal_congr (herr : t.err = s.err) (hrun : t.run = .error ↔ s.run = .error) (hs : ErrLegal s) :
    ErrLegal t := by
  unfold ErrLegal
  rw [herr, hrun]
  exact hs

theorem errLegal_stepInvariant : StepInvariant ErrLegal where
  dropStart _ hs := hs
  update s t _ hs h := errLegal_congr (reach_err (.single h)) (by rw [reach_run (.single h)]) hs
  cursor _ _ _ _ hs := hs
  fault s r pos _ _ := errLegal_faultEntry r pos s
  halt s hrun hs := errLegal_congr (s := s) rfl (by rw [hrun, setRun_run]; decide) hs
  start _ _ _ := errLegal_of_clear (by rw [setRun_run]; decide) rfl

/-- Settles O51: only fault entry sets the error registers, with a fatal kind and its reason; START clears them. -/
theorem stepKeepsErrorRegistersLegal : Obligations.StepKeepsErrorRegistersLegal :=
  fun _ _ => errLegal_stepInvariant.of_step

/-! ### `OUT` and the warning flags of a running core (R15, R27) -/

theorem update_out (h : Update s t) : s.out <+: t.out := by
  cases h with
  | out r => exact List.prefix_append s.out [r]
  | _ => exact List.prefix_rfl

/-- What `OUT` held before a run of steps stays at its head. -/
theorem outPrefix_runInvariant (s₀ : State) : RunInvariant fun s => s₀.out <+: s.out where
  dropStart _ hs := hs
  update _ _ _ hs h := hs.trans (update_out h)
  cursor _ _ _ _ hs := hs
  fault _ _ _ _ hs := hs
  halt _ _ hs := hs

/-- Settles O55: an update only appends to `OUT`, and fault entry, the halt and the cursor leave it. -/
theorem outOnlyGrowsWhileRunning : Obligations.OutOnlyGrowsWhileRunning := by
  intro s t hrun h
  obtain ⟨recs, hrecs⟩ := (outPrefix_runInvariant s).of_step hrun List.prefix_rfl h
  exact ⟨recs, hrecs.symm⟩

/-- Every warning flag that is set in `s` is set in `t`. -/
def KeepsWarnings (s t : State) : Prop :=
  (s.wUnsup = true → t.wUnsup = true) ∧ (s.wNcomp = true → t.wNcomp = true)

theorem keepsWarnings_refl (s : State) : KeepsWarnings s s := ⟨id, id⟩

theorem update_keepsWarnings {s₀ : State} (hs : KeepsWarnings s₀ s) (h : Update s t) : KeepsWarnings s₀ t := by
  obtain ⟨hu, hn⟩ := hs
  cases h with
  | unsup => exact ⟨fun _ => rfl, hn⟩
  | ncomp => exact ⟨hu, fun _ => rfl⟩
  | _ => exact ⟨hu, hn⟩

theorem keepsWarnings_runInvariant (s₀ : State) : RunInvariant (KeepsWarnings s₀) where
  dropStart _ hs := hs
  update _ _ _ hs h := update_keepsWarnings hs h
  cursor _ _ _ _ hs := hs
  fault _ _ _ _ hs := hs
  halt _ _ hs := hs

/-- Settles O56: an update only ever sets a warning flag. -/
theorem warningFlagsAreSticky : Obligations.WarningFlagsAreSticky :=
  fun s _ hrun => (keepsWarnings_runInvariant s).of_step hrun (keepsWarnings_refl s)

end Sys2Proof.Machine
end

section
/-!
The host beside a running and a halted core (10_state.md R31; 20_memory.md R48), the state and the context that a reset
leaves (10_state.md R28, R29), and the DC element of a component that the tables do not have (R23, R24).
-/
namespace Sys2Proof.Machine

variable {s : State}

/-! ### The host -/

theorem hostExcluded_eq_false (hrun : s.run ≠ .run) (hreq : s.startReq = false) : hostExcluded s = false := by
  simp [hostExcluded, hrun, hreq]

/-- An excluded host has no write and no read, and its START is ignored (R48, R140). -/
theorem host_excluded (h : hostExcluded s = true) (a : Nat) (b : Byte) (n : Length) :
    hostMove (.writeIn a b) s = none ∧ hostMove (.writeLen n) s = none ∧ hostMove .start s = some s ∧
      hostReads s = none := by
  simp [hostMove, hostReads, h]

/-- A host that is not excluded writes `IN_LEN`, issues START and reads everything (R31, R221). -/
theorem host_admitted (h : hostExcluded s = false) (n : Length) :
    hostMove (.writeLen n) s = some { s with inLen := n } ∧ hostMove .start s = some { s with startReq := true } ∧
      hostReads s = some s := by
  simp [hostMove, hostReads, h]

theorem hostMove_writeIn (h : hostExcluded s = false) {a : Nat} (ha : a < Config.inCapacity) (b : Byte) :
    hostMove (.writeIn a b) s = some { s with inBuf := memWrite s.inBuf a b } := by
  simp [hostMove, h, Nat.not_le.2 ha]

theorem polledState_excluded (h : s.run = .run ∨ s.startReq = true) : polledState s = .run := by
  unfold polledState
  split
  · rfl
  · exact h.resolve_right ‹_›

theorem polledState_of_no_start (h : s.startReq = false) : polledState s = s.run := by
  simp [polledState, h]

/-- What the bytes of `IN` are after a byte was written. -/
theorem inAt_memWrite (hs : memWf s.inBuf) (a x : Nat) (b : Byte) :
    inAt { s with inBuf := memWrite s.inBuf a b } x = if a = x then b else inAt s x := by
  unfold inAt
  rw [memRead_write _ _ _ _ hs]
  split <;> rfl

/-- Settles O8: the exclusion begins with the pending START and ends with the halt. -/
theorem hostIsExcludedWhileRunning : Obligations.HostIsExcludedWhileRunning := by
  intro s a b n
  refine ⟨fun h => ?excluded, fun hrun hreq => ?admitted, fun hrun hreq ha hwf => ?write⟩
  case excluded =>
    obtain ⟨hin, hlen, hstart, hread⟩ := host_excluded (hostExcluded_iff.2 h) a b n
    exact ⟨hin, hlen, hstart, hread, polledState_excluded h⟩
  case admitted =>
    obtain ⟨hlen, hstart, hread⟩ := host_admitted (hostExcluded_eq_false hrun hreq) n
    exact ⟨hlen, hstart, hread, polledState_of_no_start hreq⟩
  case write =>
    refine ⟨_, hostMove_writeIn (hostExcluded_eq_false hrun hreq) ha b, rfl, ?_, fun x hx => ?_⟩
    · rw [inAt_memWrite hwf, if_pos rfl]
    · rw [inAt_memWrite hwf, if_neg hx.symm]

/-! ### What a reset leaves -/

theorem tabGet_fill_lt {α : Type} {n i : Nat} (v : α) (h : i < n) : tabGet (tabFill n v) i = some v := by
  rw [tabGet_fill, if_pos h]

/-- A halted core without a START stays as it is (R184, R191, R220). -/
theorem step_halted (hrun : s.run ≠ .run) (hreq : s.startReq = false) : step s = .next s := by
  obtain ⟨t, ht, hst⟩ := step_cases s
  cases hst with
  | start h => rw [hreq] at h; cases h
  | halted _ _ => exact ht
  | truncated _ h _ => exact absurd h hrun
  | executed _ _ h _ _ _ => exact absurd h hrun

/-- Settles O1: the tables of reset are filled tables and released slots, and no START is pending. -/
theorem resetLeavesTheTableOfReset : Obligations.ResetLeavesTheTableOfReset := by
  refine ⟨rfl, rfl, rfl, rfl, rfl, rfl, rfl, rfl, rfl, rfl, rfl, fun i hi => tabGet_fill_lt _ hi,
    fun k hk => ⟨tabGet_fill_lt _ hk, tabGet_fill_lt _ hk⟩, rfl, rfl, rfl, rfl, slotOf_released_valid,
    fun i hi => ⟨tabGet_fill_lt _ hi, tabGet_fill_lt _ hi⟩, rfl, fun n hn => tabGet_fill_lt _ hn,
    rfl, rfl, rfl, rfl, rfl, rfl, rfl, ?_⟩
  exact step_halted (by decide) rfl

/-- Every predictor of the empty context is 0 (R28, R125). -/
theorem predBound_of_empty (h : s.ctx = .empty) : PredBound s := by
  intro c v hv
  rw [h, DecodeContext.empty, tabGet_fill] at hv
  split at hv
  · cases hv
    decide
  · cases hv

/-- Settles O2: reset leaves empty memories, released tables, cursors and predictors at 0, no error. -/
theorem resetMeetsTheInvariants : Obligations.ResetMeetsTheInvariants :=
  ⟨⟨.nil, .nil⟩, tablesShaped_of_released rfl, by unfold CursorBound; decide, ⟨Nat.zero_le _, Nat.zero_le _⟩,
    predBound_of_empty rfl, errLegal_of_clear (by decide) rfl, fun _ => slotOf_released_valid⟩

/-- Settles O14: the context becomes the empty one, whose tables are filled with 0 and whose slots are released. -/
theorem contextResetClearsOnlyTheContext : Obligations.ContextResetClearsOnlyTheContext := by
  intro s
  rw [contextReset_ctx]
  exact ⟨rfl, rfl, rfl, rfl, rfl, fun i hi => tabGet_fill_lt _ hi,
    fun k hk => ⟨tabGet_fill_lt _ hk, tabGet_fill_lt _ hk⟩, rfl, rfl, rfl, rfl, slotOf_released_valid,
    fun i hi => ⟨tabGet_fill_lt _ hi, tabGet_fill_lt _ hi⟩⟩

/-! ### The component the tables do not have -/

theorem component_stop (h : 255 ≤ s.work.ci.toNat) : component.run s = .error (.fault .noComponent) s := by
  rw [component_run, if_neg (Nat.not_lt.2 h)]

/-- A DC element stores its symbol and stops at the first use of the component (log entry 10). -/
theorem dcBody_stop (size : Byte) (h : 255 ≤ s.work.ci.toNat) :
    (dcBody size).run s = .error (.fault .noComponent) (setWork (fun w => { w with size := size }) s) := by
  unfold dcBody
  rw [modify_bind_run]
  exact bind_error (component_stop h)

/-- Settles O42: component 255 is beyond the last entry of the tables. -/
theorem dcElementOfNoComponentStops : Obligations.DcElementOfNoComponentStops := by
  intro s size hci
  exact outcomeOf_fault (dcBody_stop size (by rw [hci]; decide))

end Sys2Proof.Machine
end

section
/-!
The input region (20_memory.md): what a bound-checked read of `IN` answers (R41, R42), the bytes a fetch sees, and that
no step writes `IN` or `IN_LEN` (R45, R50).
-/
namespace Sys2Proof.Machine

variable {s t : State}

/-! ### The bytes a fetch sees (R41) -/

/-- The window from `a` on is the bytes of `IN` at consecutive addresses, cut at `n` bytes and at `IN_LEN`. -/
theorem inWindow_eq_map_range' (s : State) (n a : Nat) :
    inWindow s n a = (List.range' a (min n (s.inLen.toNat - a))).map (inAt s) := by
  induction n generalizing a with
  | zero => rw [Nat.zero_min]; rfl
  | succ n ih =>
    by_cases inside : a < s.inLen.toNat
    · have count : min (n + 1) (s.inLen.toNat - a) = min n (s.inLen.toNat - (a + 1)) + 1 := by omega
      rw [inWindow_succ inside, ih, count, List.range'_succ, List.map_cons]
    · have count : min (n + 1) (s.inLen.toNat - a) = 0 := by omega
      rw [inWindow_eq_nil (Nat.not_lt.1 inside), count]
      rfl

/-- Settles O15: the reads are `inByte` and `inU16` inside and outside the bound; the window is a range of addresses. -/
theorem readsOfInAreBoundChecked : Obligations.ReadsOfInAreBoundChecked := by
  intro s r a
  refine ⟨inByte_ok, inByte_stop, fun h => ?bigEndian, inU16_stop_first, inU16_stop_second, fun n => ?window⟩
  case bigEndian => rw [inU16_ok h, be16_eq]
  case window =>
    rw [inWindow_eq_map_range', List.range'_eq_map_range, List.map_map]
    rfl

/-! ### The input along a step (R45, R50) -/

/-- `t` holds the input that `s` holds: the same `IN` and the same `IN_LEN`. -/
def SameInput (s t : State) : Prop := t.inBuf = s.inBuf ∧ t.inLen = s.inLen

theorem sameInput_refl (s : State) : SameInput s s := ⟨rfl, rfl⟩

theorem reach_sameInput {s₀ : State} (hs : SameInput s₀ s) (h : Reach s t) : SameInput s₀ t := by
  obtain ⟨hbuf, hlen⟩ := hs
  exact ⟨(reach_inBuf h).trans hbuf, (reach_inLen h).trans hlen⟩

/-- Every part of a step, START included, leaves the input of any earlier state as it was. -/
theorem sameInput_stepInvariant (s₀ : State) : StepInvariant (SameInput s₀) where
  dropStart _ hs := hs
  update _ _ _ hs h := reach_sameInput hs (.single h)
  cursor _ _ _ _ hs := hs
  fault _ _ _ _ hs := hs
  halt _ _ hs := hs
  start _ _ hs := hs

/-- Settles O54: the input a step begins with is kept by each of its parts. -/
theorem noStepWritesTheInput : Obligations.NoStepWritesTheInput :=
  fun s _ => (sameInput_stepInvariant s).of_step (sameInput_refl s)

end Sys2Proof.Machine
end

section
/-!
The three encoding spaces (30_encoding.md R61 to R77): what the decoder of the marker space answers for each shape of a
word, and which shapes it accepts; that a code read from a tree leads back to its symbol; and the words of the spec.
-/
namespace Sys2Proof.Machine

/-! ### The marker space (R61 to R63, R69, R75) -/

theorem unsup_wf_iff (code : Byte) (len : Half) : (Instr.unsup code len).wf = true ↔ code ∉ knownCodes := by
  simp [Instr.wf]

theorem decode_badPrefix {b0 : Byte} (h : b0 ≠ 0xFF) (b1 : Byte) (rest : List Byte) :
    decode (b0 :: b1 :: rest) = .ok (.badPrefix b0 b1, rest) := by
  unfold decode
  exact if_pos h

/-- A marker that is neither SOI nor EOI is followed by its length field (R61, R141). -/
theorem decode_segment {code : Byte} (hsoi : code ≠ 0xD8) (heoi : code ≠ 0xD9) (hi lo : Byte) (rest : List Byte) :
    decode (0xFF :: code :: hi :: lo :: rest) = .ok (segmentOf code (be16 hi lo), rest) := by
  rw [decode, if_neg (not_not_intro rfl), if_neg hsoi, if_neg heoi]

/-- Without a length field such a marker is not answered (R185 (b)). -/
theorem decode_no_length {code : Byte} (hsoi : code ≠ 0xD8) (heoi : code ≠ 0xD9) :
    decode [0xFF, code] = .error .noLengthHigh := by
  rw [decode, if_neg (not_not_intro rfl), if_neg hsoi, if_neg heoi]

theorem decode_half_length {code : Byte} (hsoi : code ≠ 0xD8) (heoi : code ≠ 0xD9) (hi : Byte) :
    decode [0xFF, code, hi] = .error .noLengthLow := by
  rw [decode, if_neg (not_not_intro rfl), if_neg hsoi, if_neg heoi]

/-- The same with the length field as the encoder lays it out. -/
theorem decode_segment_word {code : Byte} (hsoi : code ≠ 0xD8) (heoi : code ≠ 0xD9) (len : Half) (rest : List Byte) :
    decode ([0xFF, code, highByte len, lowByte len] ++ rest) = .ok (segmentOf code len, rest) := by
  have h := decode_segment hsoi heoi (highByte len) (lowByte len) rest
  rwa [be16_high_low] at h

/-- A code outside the marker table names an UNSUP segment (R61, R148). -/
theorem segmentOf_unknown {code : Byte} (h : code ∉ knownCodes) (len : Half) :
    segmentOf code len = .unsup code len := by
  simp only [knownCodes, List.mem_cons, not_or] at h
  obtain ⟨-, happ0, hdqt, hsof0, hdht, hsos, -⟩ := h
  rw [segmentOf, if_neg happ0, if_neg hdqt, if_neg hsof0, if_neg hdht, if_neg hsos]

/-- Settles O10: each row's own bytes select its branch of the decoder. -/
theorem markerDecodeOfEncodeIsTheInstruction : Obligations.MarkerDecodeOfEncodeIsTheInstruction := by
  intro i rest hwf hspace
  cases i with
  | soi => rfl
  | eoi => rfl
  | app0 len => exact decode_segment_word (by decide) (by decide) len rest
  | dqt len => exact decode_segment_word (by decide) (by decide) len rest
  | sof0 len => exact decode_segment_word (by decide) (by decide) len rest
  | dht len => exact decode_segment_word (by decide) (by decide) len rest
  | sos len => exact decode_segment_word (by decide) (by decide) len rest
  | unsup code len =>
    have unknown : code ∉ knownCodes := (unsup_wf_iff code len).1 hwf
    have hsoi : code ≠ 0xD8 := fun h => unknown (h ▸ by decide)
    have heoi : code ≠ 0xD9 := fun h => unknown (h ▸ by decide)
    have decoded := decode_segment_word hsoi heoi len rest
    rwa [segmentOf_unknown unknown len] at decoded
  | badPrefix b0 b1 => exact decode_badPrefix (bne_iff_ne.1 hwf) b1 rest
  | stuff => cases hspace
  | dcElem size => cases hspace
  | acElem size => cases hspace
  | eob => cases hspace

/-- The words that the decoder of the marker space accepts, each with what it answers. -/
theorem decode_cases {bytes rest : List Byte} {i : Instr} (h : decode bytes = .ok (i, rest)) :
    (∃ b0 b1, b0 ≠ 0xFF ∧ bytes = b0 :: b1 :: rest ∧ i = .badPrefix b0 b1) ∨
    (bytes = 0xFF :: 0xD8 :: rest ∧ i = .soi) ∨
    (bytes = 0xFF :: 0xD9 :: rest ∧ i = .eoi) ∨
    ∃ code hi lo, code ≠ 0xD8 ∧ code ≠ 0xD9 ∧ bytes = 0xFF :: code :: hi :: lo :: rest ∧
      i = segmentOf code (be16 hi lo) := by
  match bytes, h with
  | [], h => cases h
  | [_], h => cases h
  | b0 :: b1 :: tail, h =>
    by_cases hprefix : b0 = 0xFF
    case neg =>
      rw [decode_badPrefix hprefix] at h
      cases h
      exact .inl ⟨b0, b1, hprefix, rfl, rfl⟩
    subst hprefix
    by_cases hsoi : b1 = 0xD8
    · subst hsoi
      cases h
      exact .inr (.inl ⟨rfl, rfl⟩)
    by_cases heoi : b1 = 0xD9
    · subst heoi
      cases h
      exact .inr (.inr (.inl ⟨rfl, rfl⟩))
    match tail, h with
    | [], h =>
      rw [decode_no_length hsoi heoi] at h
      cases h
    | [_], h =>
      rw [decode_half_length hsoi heoi] at h
      cases h
    | hi :: lo :: _, h =>
      rw [decode_segment hsoi heoi] at h
      cases h
      exact .inr (.inr (.inr ⟨b1, hi, lo, hsoi, heoi, rfl, rfl⟩))

theorem encode_segmentOf (code : Byte) (len : Half) :
    encode (segmentOf code len) = [0xFF, code, highByte len, lowByte len] := by
  unfold segmentOf
  split_ifs with happ0 hdqt hsof0 hdht hsos
  · rw [happ0]; rfl
  · rw [hdqt]; rfl
  · rw [hsof0]; rfl
  · rw [hdht]; rfl
  · rw [hsos]; rfl
  · rfl

/-- A segment is well-formed: UNSUP is answered only where no row of the marker table has the code. -/
theorem segmentOf_wf {code : Byte} (hsoi : code ≠ 0xD8) (heoi : code ≠ 0xD9) (len : Half) :
    (segmentOf code len).wf = true := by
  unfold segmentOf
  split_ifs with happ0 hdqt hsof0 hdht hsos
  case neg =>
    refine (unsup_wf_iff code len).2 ?_
    simp only [knownCodes, List.mem_cons, List.not_mem_nil, or_false, not_or]
    exact ⟨hsoi, happ0, hdqt, hsof0, hdht, hsos, heoi⟩
  all_goals rfl

/-- Settles O11: every accepted word is the encoding of the answer; an accepted code outside the table is UNSUP's. -/
theorem markerDecodeIsUnambiguous : Obligations.MarkerDecodeIsUnambiguous := by
  intro bytes rest i h
  have hspace := decode_space h
  obtain ⟨b0, b1, hprefix, rfl, rfl⟩ | ⟨rfl, rfl⟩ | ⟨rfl, rfl⟩ | ⟨code, hi, lo, hsoi, heoi, rfl, rfl⟩ :=
    decode_cases h
  · exact ⟨bne_iff_ne.2 hprefix, hspace, rfl⟩
  · exact ⟨rfl, hspace, rfl⟩
  · exact ⟨rfl, hspace, rfl⟩
  · refine ⟨segmentOf_wf hsoi heoi _, hspace, ?_⟩
    rw [encode_segmentOf, highByte_be16, lowByte_be16]
    rfl

/-! ### The scan spaces (R70 to R72) -/

/-- Walking a tree along the code of a symbol ends at that symbol and leaves the bits after the code (R72). -/
theorem walkTree_codeOf {t : Tree} {symbol : Byte} {code : List Bool} (h : codeOf t symbol = some code)
    (rest : List Bool) : walkTree t (code ++ rest) = .ok (symbol, rest) := by
  induction t generalizing code with
  | null => cases h
  | leaf s =>
    rw [codeOf] at h
    split at h
    case isTrue heq => cases h; rw [heq]; rfl
    case isFalse => cases h
  | node l r ihl ihr =>
    rw [codeOf] at h
    split at h
    case h_1 path hpath =>
      cases h
      exact ihl hpath
    case h_2 =>
      obtain ⟨path, hpath, rfl⟩ := Option.map_eq_some_iff.1 h
      exact ihr hpath

/-- An element's bits are the code of a symbol that stands for the element at its position (R71). -/
theorem encodeBits_cases {t : Tree} {i : Instr} {pos : ElemPos} {code : List Bool} (hwf : i.wf = true)
    (h : encodeBits t i = some (pos, code)) : ∃ symbol, codeOf t symbol = some code ∧ elementOf pos symbol = i := by
  cases i with
  | dcElem size =>
    obtain ⟨_, hcode, hpair⟩ := Option.map_eq_some_iff.1 h
    cases hpair
    exact ⟨size, hcode, rfl⟩
  | acElem size =>
    obtain ⟨_, hcode, hpair⟩ := Option.map_eq_some_iff.1 h
    cases hpair
    exact ⟨size, hcode, if_neg (bne_iff_ne.1 hwf)⟩
  | eob =>
    obtain ⟨_, hcode, hpair⟩ := Option.map_eq_some_iff.1 h
    cases hpair
    exact ⟨0, hcode, rfl⟩
  | _ => cases h

/-- Settles O12: the walk along a code ends at its symbol, whose element is the encoded one; the stuffed pair selects
its own branch of the region's decoder. -/
theorem scanDecodeOfEncodeIsTheElement : Obligations.ScanDecodeOfEncodeIsTheElement := by
  refine ⟨fun t i pos code rest hwf h => ?_, fun rest => rfl⟩
  obtain ⟨symbol, hcode, helem⟩ := encodeBits_cases hwf h
  rw [decodeBits, walkTree_codeOf hcode, ← helem]

/-- Settles O9: closed words, which the decoders of the three spaces run on. -/
theorem wordsOfTheSpecDecode : Obligations.WordsOfTheSpecDecode :=
  ⟨rfl, rfl, rfl, rfl, rfl, rfl, rfl, rfl, rfl, rfl, rfl, rfl, rfl, rfl, rfl⟩

end Sys2Proof.Machine
end

section
/-!
The Bitstream Reader and the byte-stuffing stripper (40_bitstream_reader.md): what READ_BITS answers and raises (R90), and
what DESTUFF and its stuffed pair leave in `SCAN` (R91), read against the region at the head of a byte list (R70).
-/
namespace Sys2Proof.Machine

variable {s : State}

/-! ### READ_BITS (R90) -/

/-- The accumulator of READ_BITS is the number that the field's bits spell, cut to the width of `ACC`. -/
theorem accumulate_bitsLeft {n : Nat} (h : s.bitOff.toNat + n ≤ 8 * s.scanLen.toNat) :
    accumulate s n s.bitOff.toNat 0 = BitVec.ofNat 16 (bitsValue ((bitsLeft s).take n)) := by
  rw [bitsLeft_take s h, accumulate_eq]

/-- A field of at most 16 bits fits `ACC`. -/
theorem bitsValue_take_lt {n : Nat} (bits : List Bool) (hn : n ≤ 16) : bitsValue (bits.take n) < 2 ^ 16 :=
  (bitsValue_lt _).trans_le (Nat.pow_le_pow_right (by decide) ((List.length_take_le n bits).trans hn))

/-- Settles O16: the accumulator holds the bits of the field, none of which is cut; the bound check covers the whole
field. -/
theorem readBitsAssemblesMsbFirst : Obligations.ReadBitsAssemblesMsbFirst := by
  intro s count _ hcount
  refine ⟨fun inside => ?_, readBits_stop⟩
  rw [readBits_ok inside, accumulate_bitsLeft inside, BitVec.toNat_ofNat,
    Nat.mod_eq_of_lt (bitsValue_take_lt _ hcount)]
  rfl

/-! ### STUFF (R70, R91) -/

theorem exec_stuff (s : State) : exec .stuff s = .next (storeScan 0xFF 2 s) := rfl

/-- Settles O38: the pair is one store at the cursor of `SCAN`. -/
theorem stuffStoresOneDataByte : Obligations.StuffStoresOneDataByte := by
  intro s hwf
  refine ⟨_, exec_stuff s, ?stored, fun i hi => ?others, rfl⟩
  case stored => rw [scanAt_storeScan _ _ _ _ hwf, if_pos rfl]
  case others => rw [scanAt_storeScan _ _ _ _ hwf, if_neg hi.symm]

/-! ### The bytes of a region (R70) -/

theorem inBytesFrom_eq_map_range' (s : State) (a : Nat) :
    inBytesFrom s a = (List.range' a (s.inLen.toNat - a)).map (inAt s) := by
  rw [inBytesFrom, List.range'_eq_map_range, List.map_map]
  rfl

theorem inBytesFrom_length (s : State) (a : Nat) : (inBytesFrom s a).length = s.inLen.toNat - a := by
  simp [inBytesFrom]

theorem inBytesFrom_drop (s : State) (a k : Nat) : (inBytesFrom s a).drop k = inBytesFrom s (a + k) := by
  rw [inBytesFrom_eq_map_range', inBytesFrom_eq_map_range', ← List.map_drop, List.drop_range', Nat.mul_one,
    Nat.sub_sub]

/-- A fetch window is the first bytes of what is left of `IN`. -/
theorem inWindow_eq_take (s : State) (n a : Nat) : inWindow s n a = (inBytesFrom s a).take n := by
  rw [inWindow_eq_map_range', List.range'_eq_map_range, List.map_map, inBytesFrom, ← List.map_take, List.take_range]
  rfl

/-- What stands at the head of a byte list that a terminated region begins: the `FF` that ends it, a stuffed pair, or a
byte that stands for itself. -/
inductive RegionHead : List Byte → List Byte → Nat → Prop where
  | stop {b : Byte} (rest : List Byte) (hb : b ≠ 0x00) : RegionHead (0xFF :: b :: rest) [] 0
  | stuffed {rest data : List Byte} {n : Nat} (h : refRegion rest = some (data, n)) :
      RegionHead (0xFF :: 0x00 :: rest) (0xFF :: data) (n + 2)
  | data {b : Byte} {rest data : List Byte} {n : Nat} (hb : b ≠ 0xFF) (h : refRegion rest = some (data, n)) :
      RegionHead (b :: rest) (b :: data) (n + 1)

theorem refRegion_head {bytes data : List Byte} {n : Nat} (h : refRegion bytes = some (data, n)) :
    RegionHead bytes data n := by
  unfold refRegion at h
  split at h
  case h_1 => cases h
  case h_2 => cases h
  case h_3 b b2 rest =>
    split at h
    case isFalse hb =>
      obtain ⟨_, hrest, hpair⟩ := Option.map_eq_some_iff.1 h
      cases hpair
      exact .data hb hrest
    case isTrue hb =>
      subst hb
      split at h
      case isFalse hb2 => cases h; exact .stop rest hb2
      case isTrue hb2 =>
        obtain ⟨_, hrest, hpair⟩ := Option.map_eq_some_iff.1 h
        cases hpair
        subst hb2
        exact .stuffed hrest

/-! ### The DESTUFF loop (R91) -/

section
variable {b : Byte} {rest : List Byte}

theorem destuffLoop_data (fuel : Nat) (h : inBytesFrom s s.work.regionPos = b :: rest) (hb : b ≠ 0xFF) :
    (destuffLoop (fuel + 1)).run s = (destuffLoop fuel).run (storeScan b 1 s) := by
  have item : decodeRegion (inWindow s 2 s.work.regionPos) = .ok (.data b, rest.take 1) := by
    rw [inWindow_eq_take, h]
    exact if_pos hb
  rw [destuffLoop, get_bind_run, item]
  rfl

theorem destuffLoop_stuffed (fuel : Nat) (h : inBytesFrom s s.work.regionPos = 0xFF :: 0x00 :: rest) :
    (destuffLoop (fuel + 1)).run s = (destuffLoop fuel).run (storeScan 0xFF 2 s) := by
  have item : decodeRegion (inWindow s 2 s.work.regionPos) = .ok (.instr .stuff, []) := by
    rw [inWindow_eq_take, h]
    rfl
  rw [destuffLoop, get_bind_run, item]
  rfl

theorem destuffLoop_stop (fuel : Nat) (h : inBytesFrom s s.work.regionPos = 0xFF :: b :: rest) (hb : b ≠ 0x00) :
    (destuffLoop (fuel + 1)).run s = .ok () s := by
  have item : decodeRegion (inWindow s 2 s.work.regionPos) = .ok (.stop, [0xFF, b]) := by
    rw [inWindow_eq_take, h]
    exact if_neg hb
  rw [destuffLoop, get_bind_run, item]
  rfl

end

/-- The state after a region of `n` bytes that stand for `data`: the data bytes at the cursor of `SCAN`, and both
cursors moved past them. -/
def storeRegion (data : List Byte) (n : Nat) (s : State) : State :=
  setWork (fun w => { w with regionLen := w.regionLen + data.length, regionPos := w.regionPos + n })
    { s with scan := memLoad s.scan s.work.regionLen data }

theorem storeRegion_nil (s : State) : storeRegion [] 0 s = s := rfl

/-- One item stored before the others. -/
theorem storeRegion_storeScan (b : Byte) (step : Nat) (data : List Byte) (n : Nat) (s : State) :
    storeRegion data n (storeScan b step s) = storeRegion (b :: data) (n + step) s := by
  simp only [storeRegion, storeScan, setWork, memLoad, List.length_cons, Nat.add_assoc, Nat.add_comm 1, Nat.add_comm step]

theorem scanAt_storeRegion (data : List Byte) (n i : Nat) (h : memWf s.scan) :
    scanAt (storeRegion data n s) i =
      if s.work.regionLen ≤ i ∧ i < s.work.regionLen + data.length then
        data[i - s.work.regionLen]?.getD (Config.unwrittenScan i)
      else scanAt s i := by
  have hr := memRead_load s.scan s.work.regionLen i data h
  show (memRead (memLoad s.scan s.work.regionLen data) i).getD _ = _
  rw [hr]
  split <;> rfl

/-- The loop on a terminated region stores its data bytes and ends at the `FF` that ends it. -/
theorem destuffLoop_region {fuel n : Nat} {data : List Byte} (hfuel : (inBytesFrom s s.work.regionPos).length ≤ fuel)
    (h : refRegion (inBytesFrom s s.work.regionPos) = some (data, n)) :
    (destuffLoop fuel).run s = .ok () (storeRegion data n s) := by
  induction fuel generalizing s data n with
  | zero =>
    rw [List.length_eq_zero_iff.1 (Nat.le_zero.1 hfuel)] at h
    cases h
  | succ fuel ih =>
    have after (b : Byte) (step : Nat) : inBytesFrom (storeScan b step s) (storeScan b step s).work.regionPos =
        (inBytesFrom s s.work.regionPos).drop step := (inBytesFrom_drop s _ step).symm
    have head := refRegion_head h
    generalize hbytes : inBytesFrom s s.work.regionPos = bytes at hfuel after head
    cases head with
    | stop rest hb => rw [storeRegion_nil, destuffLoop_stop fuel hbytes hb]
    | stuffed hrest =>
      rw [destuffLoop_stuffed fuel hbytes, ← storeRegion_storeScan]
      refine ih ?_ ?_ <;> rw [after]
      · exact (Nat.le_succ _).trans (Nat.le_of_succ_le_succ hfuel)
      · exact hrest
    | data hb hrest =>
      rw [destuffLoop_data fuel hbytes hb, ← storeRegion_storeScan]
      refine ih ?_ ?_ <;> rw [after]
      · exact Nat.le_of_succ_le_succ hfuel
      · exact hrest

/-! ### DESTUFF (R91) -/

/-- The state in which DESTUFF enters its loop: the cursors at `e0` and at index 0. -/
def atRegion (e0 : Nat) (s : State) : State := setWork (fun w => { w with regionPos := e0, regionLen := 0 }) s

@[simp] theorem atRegion_regionLen (e0 : Nat) (s : State) : (atRegion e0 s).work.regionLen = 0 := rfl
@[simp] theorem scanAt_atRegion (e0 i : Nat) (s : State) : scanAt (atRegion e0 s) i = scanAt s i := rfl

/-- The state DESTUFF leaves: the region stored from index 0 on, and its length in `SCAN_LEN`. -/
def destuffed (e0 : Nat) (data : List Byte) (n : Nat) (s : State) : State :=
  { storeRegion data n (atRegion e0 s) with scanLen := BitVec.ofNat 32 data.length }

section
variable {e0 n : Nat} {data : List Byte}

theorem destuffLoop_from (h : refRegion (inBytesFrom s e0) = some (data, n)) :
    (destuffLoop (s.inLen.toNat - e0)).run (atRegion e0 s) = .ok () (storeRegion data n (atRegion e0 s)) :=
  destuffLoop_region (inBytesFrom_length s e0).le h

/-- DESTUFF of a terminated region answers the address of the `FF` that ends it. -/
theorem destuff_run (h : refRegion (inBytesFrom s e0) = some (data, n)) :
    (destuff e0).run s = .ok (e0 + n) (destuffed e0 data n s) := by
  have hrun := destuff_ok (destuffLoop_from h)
  have count : (storeRegion data n (atRegion e0 s)).work.regionLen = data.length := Nat.zero_add _
  rwa [count] at hrun

/-- The data bytes of a region inside `IN` are fewer than `IN_LEN`. -/
theorem regionData_length_lt (h : refRegion (inBytesFrom s e0) = some (data, n)) : data.length < s.inLen.toNat := by
  have hrun := destuffLoop_from h
  have inside : e0 + n < s.inLen.toNat := destuffLoop_inside hrun
  rcases ends_destuffLoop_region (s.inLen.toNat - e0) with ⟨_, u, hu, _, _, hlen⟩ | ⟨_, _, _, hu, _⟩
  · rw [hrun] at hu
    cases hu
    have stored : 0 + data.length + e0 ≤ 0 + (e0 + n) := hlen
    omega
  · rw [hrun] at hu
    cases hu

theorem scanAt_destuffed (hwf : memWf s.scan) (i : Nat) :
    scanAt (destuffed e0 data n s) i = data[i]?.getD (scanAt s i) := by
  refine (scanAt_storeRegion (s := atRegion e0 s) data n i hwf).trans ?_
  by_cases hi : i < data.length
  · simp [hi]
  · simp [hi]

theorem scanBytes_destuffed (hwf : memWf s.scan) (hlen : data.length < 2 ^ 32) :
    scanBytes (destuffed e0 data n s) = data := by
  have count : (destuffed e0 data n s).scanLen.toNat = data.length := Nat.mod_eq_of_lt hlen
  refine List.ext_getElem (by rw [scanBytes_length, count]) fun i _ hi => ?_
  simp [scanBytes, scanAt_destuffed hwf, hi]

end

/-- Settles O17: the loop stores the data bytes of the region from index 0 on, and there are fewer of them than
`IN_LEN`, so that `SCAN_LEN` holds their number. -/
theorem destuffLeavesTheDataBytes : Obligations.DestuffLeavesTheDataBytes := by
  intro s e0 data n hwf hregion
  refine ⟨_, destuff_run hregion, ?bytes, fun i hi => ?beyond, ?frame⟩
  case bytes => exact scanBytes_destuffed hwf ((regionData_length_lt hregion).trans s.inLen.isLt)
  case beyond => rw [scanAt_destuffed hwf, List.getElem?_eq_none hi, Option.getD_none]
  case frame => simp [destuffed, storeRegion, atRegion, setWork]

end Sys2Proof.Machine
end

section
/-!
The release of the Huffman tables at a halt (41_huffman_table.md R105; 60_exceptions.md R183; 70_reset_and_hazards.md
R222), as an invariant of every step.
-/
namespace Sys2Proof.Machine

variable {s : State}

/-- Of a running core the invariant asks nothing. -/
theorem haltReleased_of_run (hrun : s.run = .run) : HaltReleased s := fun halted => absurd hrun halted

theorem haltReleased_of_released (h : s.ctx.ht = .released) : HaltReleased s := by
  intro _ cls sel
  rw [h, slotOf_released_valid]

theorem haltReleased_stepInvariant : StepInvariant HaltReleased where
  dropStart _ hs := hs
  update _ _ hrun _ h := haltReleased_of_run ((reach_run (.single h)).trans hrun)
  cursor _ _ hrun _ _ := haltReleased_of_run hrun
  fault _ _ _ _ _ := haltReleased_of_released rfl
  halt _ _ _ := haltReleased_of_released rfl
  start _ _ _ := haltReleased_of_run rfl

/-- Settles O52: fault entry and the halt of EOI release the tables, and every other part of a step that writes a slot
leaves the core running. -/
theorem stepKeepsHaltedTablesReleased : Obligations.StepKeepsHaltedTablesReleased :=
  fun _ _ => haltReleased_stepInvariant.of_step

end Sys2Proof.Machine
end

section
/-!
The Canonical Huffman Table (41_huffman_table.md): what HT_LOOKUP answers and raises, read against a walk over the bits
left of `SCAN` (R103); where HT_INSERT places a symbol, and when it finds no place (R101, R102, R104).
-/
namespace Sys2Proof.Machine

variable {s : State}

/-! ### How many bits a walk reads (R103) -/

section
variable {t : Tree} {bits : List Bool}

theorem codeBitsRead_le (t : Tree) (bits : List Bool) : codeBitsRead t bits ≤ bits.length := by
  induction bits generalizing t with
  | nil => cases t <;> exact Nat.le_refl 0
  | cons b bits ih =>
    cases t with
    | null => exact Nat.zero_le _
    | leaf x => exact Nat.zero_le _
    | node l r => exact Nat.succ_le_succ (ih _)

theorem walkTree_node_cons (l r : Tree) (b : Bool) (bits : List Bool) :
    walkTree (.node l r) (b :: bits) = walkTree (if b then r else l) bits := by
  cases b <;> rfl

/-- A walk that ends at a leaf has read all but the bits after the code. -/
theorem codeBitsRead_of_ok {symbol : Byte} {rest : List Bool} (h : walkTree t bits = .ok (symbol, rest)) :
    codeBitsRead t bits = bits.length - rest.length := by
  suffices codeBitsRead t bits + rest.length = bits.length by omega
  induction bits generalizing t with
  | nil => cases t <;> cases h; rfl
  | cons b bits ih =>
    cases t with
    | null => cases h
    | leaf x => cases h; exact Nat.zero_add _
    | node l r =>
      rw [walkTree_node_cons] at h
      have := ih h
      rw [codeBitsRead, List.length_cons]
      omega

theorem codeBitsRead_of_outOfBits (h : walkTree t bits = .error .outOfBits) : codeBitsRead t bits = bits.length := by
  induction bits generalizing t with
  | nil => cases t <;> cases h; rfl
  | cons b bits ih =>
    cases t with
    | null => cases h
    | leaf x => cases h
    | node l r =>
      rw [walkTree_node_cons] at h
      rw [codeBitsRead, ih h, List.length_cons]

/-- A walk below the root that ends at a null child: the bits read lead to it, and one bit fewer to the internal node
above it. -/
theorem walkTree_of_notACode (h : walkTree t bits = .error .notACode) (hroot : t ≠ .null) :
    1 ≤ codeBitsRead t bits ∧ walkTree t (bits.take (codeBitsRead t bits)) = .error .notACode ∧
      walkTree t (bits.take (codeBitsRead t bits - 1)) = .error .outOfBits := by
  induction bits generalizing t with
  | nil =>
    cases t with
    | null => exact absurd rfl hroot
    | leaf x => cases h
    | node l r => cases h
  | cons b bits ih =>
    cases t with
    | null => exact absurd rfl hroot
    | leaf x => cases h
    | node l r =>
      rw [walkTree_node_cons] at h
      rw [codeBitsRead, Nat.add_sub_cancel, List.take_succ_cons, walkTree_node_cons]
      by_cases hchild : (if b then r else l) = .null
      · rw [hchild, codeBitsRead]
        exact ⟨Nat.le_refl 1, rfl, rfl⟩
      · obtain ⟨hpos, hcode, hinner⟩ := ih h hchild
        refine ⟨Nat.le_add_left 1 _, hcode, ?_⟩
        rw [← Nat.sub_add_cancel hpos, List.take_succ_cons, walkTree_node_cons]
        exact hinner

end

/-! ### The lookup as a walk over the bits left (R103) -/

/-- The state after `n` bits were read one by one: `BITOFF` past them, `ACC` with what the last read left. -/
def afterBits (n : Nat) (acc : BitVec 16) (s : State) : State :=
  setBitOff (s.bitOff.toNat + n) (setWork (fun w => { w with acc := acc }) s)

theorem afterBits_zero (s : State) : afterBits 0 s.work.acc s = s := by
  simp [afterBits, setBitOff, setWork]

/-- Bits that are left can be passed without a cut of `BITOFF` (R13). -/
theorem afterBits_bitOff {n : Nat} (h : n ≤ (bitsLeft s).length) (acc : BitVec 16) :
    (afterBits n acc s).bitOff.toNat = s.bitOff.toNat + n := by
  rw [bitsLeft_length] at h
  have hlen := s.scanLen.isLt
  have hbit := s.bitOff.isLt
  exact Nat.mod_eq_of_lt (by omega)

theorem afterBits_afterBits {m : Nat} (h : m ≤ (bitsLeft s).length) (n : Nat) (acc acc' : BitVec 16) :
    afterBits n acc' (afterBits m acc s) = afterBits (n + m) acc' s := by
  have hbit := afterBits_bitOff h acc
  rw [afterBits, hbit, Nat.add_assoc, Nat.add_comm m]
  rfl

/-- A bit is left exactly where READ_BITS of one bit is in bounds, and it is the bit at `BITOFF`. -/
theorem bitsLeft_cons {b : Bool} {bits : List Bool} (h : bitsLeft s = b :: bits) :
    s.bitOff.toNat + 1 ≤ 8 * s.scanLen.toNat ∧ scanBit s s.bitOff.toNat = b ∧
      ∀ acc, bitsLeft (afterBits 1 acc s) = bits := by
  have hlen := bitsLeft_length s
  rw [h, List.length_cons] at hlen
  have inside : s.bitOff.toNat + 1 ≤ 8 * s.scanLen.toNat := by omega
  refine ⟨inside, ?_, fun acc => ?_⟩
  · have first := bitsLeft_take s inside
    rw [h] at first
    exact (List.head_eq_of_cons_eq first).symm
  · have hrest : bitsLeft (afterBits 1 acc s) = (bitsLeft s).drop 1 := bitsLeft_advance rfl rfl inside
    rwa [h] at hrest

theorem bitsLeft_nil (h : bitsLeft s = []) : 8 * s.scanLen.toNat < s.bitOff.toNat + 1 := by
  have hlen := bitsLeft_length s
  rw [h, List.length_nil] at hlen
  omega

/-- How the loop of HT_LOOKUP ends in the state `t` after the bits of a walk: as the walk does, with fault entry at the
cursor where the walk finds no symbol (R103). -/
def lookupEnd : Except CodeError (Byte × List Bool) → State → EStateM.Result Stop State Byte
  | .ok (symbol, _), t => .ok symbol t
  | .error .notACode, t => .error .raised (faultEntry .lookupNull t.bitOff.toNat t)
  | .error .outOfBits, t => .error .raised (faultEntry .scanBits t.bitOff.toNat t)

/-- The loop of HT_LOOKUP is the walk down the tree over the bits left. -/
theorem lookupFrom_run (t : Tree) (s : State) :
    ∃ acc, (lookupFrom t).run s =
      lookupEnd (walkTree t (bitsLeft s)) (afterBits (codeBitsRead t (bitsLeft s)) acc s) := by
  induction t generalizing s with
  | null => exact ⟨s.work.acc, by rw [codeBitsRead, afterBits_zero]; rfl⟩
  | leaf symbol => exact ⟨s.work.acc, by rw [codeBitsRead, afterBits_zero]; rfl⟩
  | node l r ihl ihr =>
    cases hbits : bitsLeft s with
    | nil => exact ⟨s.work.acc, by rw [codeBitsRead, afterBits_zero, lookupFrom_node_stop (bitsLeft_nil hbits)]; rfl⟩
    | cons b bits =>
      obtain ⟨inside, hbit, hrest⟩ := bitsLeft_cons hbits
      have child : ∀ u, ∃ acc, (lookupFrom (if b then r else l)).run u =
          lookupEnd (walkTree (if b then r else l) (bitsLeft u))
            (afterBits (codeBitsRead (if b then r else l) (bitsLeft u)) acc u) := by
        cases b with
        | false => exact ihl
        | true => exact ihr
      obtain ⟨acc, hacc⟩ := child (afterBits 1 ((BitVec.ofBool b).setWidth 16) s)
      rw [hrest, afterBits_afterBits (by simp [hbits])] at hacc
      refine ⟨acc, ?_⟩
      rw [lookupFrom_node_ok inside, hbit, walkTree_node_cons, codeBitsRead]
      exact hacc

/-- Settles O18: a valid slot's lookup is the walk down its tree, and the test of `VALID` comes before any bit. -/
theorem lookupWalksTheTree : Obligations.LookupWalksTheTree := by
  intro s cls sel
  refine ⟨htLookup_invalid, fun hvalid => ?_⟩
  obtain ⟨acc, hrun⟩ := lookupFrom_run (slotOf s.ctx.ht cls sel).tree s
  rw [← htLookup_valid hvalid] at hrun
  have hpos := afterBits_bitOff (codeBitsRead_le (slotOf s.ctx.ht cls sel).tree (bitsLeft s)) acc
  refine ⟨fun symbol rest h => ⟨acc, ?found⟩, fun h hroot => ?null, fun h => ⟨acc, ?ended⟩⟩
  case found =>
    rw [hrun, h, codeBitsRead_of_ok h]
    rfl
  case null =>
    obtain ⟨hone, hcode, hinner⟩ := walkTree_of_notACode h hroot
    refine ⟨_, acc, hone, hcode, hinner, ?_⟩
    rw [hrun, h, ← hpos]
    rfl
  case ended =>
    rw [← codeBitsRead_of_outOfBits h, hrun, h, ← hpos]
    rfl

/-! ### The places of a code length, filled from the left (R101, R102) -/

/-- A subtree with `rem` levels down to the current code length, whose first `n` places at that level lie under leaves
and whose others are free: the tree that insertions of ascending lengths leave. -/
inductive Packed : Nat → Nat → Tree → Prop where
  | null (rem : Nat) : Packed rem 0 .null
  | leaf (rem : Nat) (symbol : Byte) : Packed rem (2 ^ rem) (.leaf symbol)
  | left {rem n : Nat} {l : Tree} (hl : Packed rem n l) : Packed (rem + 1) n (.node l .null)
  | right {rem n : Nat} {l r : Tree} (hl : Packed rem (2 ^ rem) l) (hr : Packed rem n r) :
      Packed (rem + 1) (2 ^ rem + n) (.node l r)

theorem packed_clearedTree : Packed 1 0 clearedTree := .left (.null 0)

/-- A level further down has twice the places. -/
theorem Packed.deeper {rem n : Nat} {t : Tree} (h : Packed rem n t) : Packed (rem + 1) (2 * n) t := by
  induction h with
  | null rem => exact .null _
  | leaf rem symbol =>
    rw [← Nat.pow_succ']
    exact .leaf _ symbol
  | left _ ih => exact .left ih
  | right _ _ ihl ihr =>
    rw [Nat.mul_add, ← Nat.pow_succ']
    rw [← Nat.pow_succ'] at ihl
    exact .right ihl ihr

/-- The places in use, seen at a longer code length: the shift of R72. -/
theorem Packed.at_length {len₀ len n : Nat} {t : Tree} (h : Packed len₀ n t) (hle : len₀ ≤ len) :
    Packed len (n * 2 ^ (len - len₀)) t := by
  induction len, hle using Nat.le_induction with
  | base => rwa [Nat.sub_self, Nat.pow_zero, Nat.mul_one]
  | succ len hle ih =>
    rw [Nat.succ_sub hle, Nat.pow_succ', Nat.mul_left_comm]
    exact ih.deeper

/-! ### The bits of a code -/

theorem codeBits_succ (len code : Nat) : codeBits (len + 1) code = code.testBit len :: codeBits len code := by
  rw [codeBits, Nat.testBit_eq_decide_div_mod_eq]
  rfl

theorem codeBits_two_pow_add {len i : Nat} (h : len ≤ i) (code : Nat) :
    codeBits len (2 ^ i + code) = codeBits len code := by
  induction len with
  | zero => rfl
  | succ len ih =>
    rw [codeBits_succ, codeBits_succ, Nat.testBit_two_pow_add_gt h, ih (Nat.le_of_succ_le h)]

/-! ### Where an insertion places a symbol (R101, R104) -/

/-- A code leads to a symbol: the walk over it ends at the symbol's leaf, whatever bits follow. -/
def LeadsTo (t : Tree) (code : List Bool) (symbol : Byte) : Prop :=
  ∀ rest, walkTree t (code ++ rest) = .ok (symbol, rest)

/-- A code in the lower half of the places goes left. -/
theorem leadsTo_left {rem n : Nat} {l : Tree} {symbol : Byte} (hn : n < 2 ^ rem)
    (h : LeadsTo l (codeBits rem n) symbol) (r : Tree) : LeadsTo (.node l r) (codeBits (rem + 1) n) symbol := by
  intro rest
  rw [codeBits_succ, Nat.testBit_lt_two_pow hn, List.cons_append, walkTree_node_cons]
  exact h rest

/-- A code in the upper half of the places goes right. -/
theorem leadsTo_right {rem n : Nat} {r : Tree} {symbol : Byte} (hn : n < 2 ^ rem)
    (h : LeadsTo r (codeBits rem n) symbol) (l : Tree) :
    LeadsTo (.node l r) (codeBits (rem + 1) (2 ^ rem + n)) symbol := by
  intro rest
  rw [codeBits_succ, Nat.testBit_two_pow_add_eq, Nat.testBit_lt_two_pow hn, codeBits_two_pow_add (Nat.le_refl rem),
    List.cons_append, walkTree_node_cons]
  exact h rest

/-- What an insertion at the level of `rem` does to a tree with `n` places in use: it takes place `n`, or all places are
in use and it fails. -/
inductive Inserted (symbol : Byte) (rem n : Nat) : Option Tree → Prop where
  | placed {u : Tree} (hn : n < 2 ^ rem) (hu : Packed rem (n + 1) u) (hcode : LeadsTo u (codeBits rem n) symbol) :
      Inserted symbol rem n (some u)
  | full (hn : n = 2 ^ rem) : Inserted symbol rem n none

/-- An empty subtree takes the symbol at its leftmost place. -/
theorem tryInsert_null_placed (symbol : Byte) (rem : Nat) :
    ∃ u, tryInsert symbol rem .null = some u ∧ Packed rem 1 u ∧ LeadsTo u (codeBits rem 0) symbol := by
  induction rem with
  | zero => exact ⟨.leaf symbol, rfl, .leaf 0 symbol, fun _ => rfl⟩
  | succ rem ih =>
    obtain ⟨u, hins, hu, hcode⟩ := ih
    exact ⟨.node u .null, by rw [tryInsert, hins], .left hu, leadsTo_left (Nat.two_pow_pos rem) hcode .null⟩

/-- An insertion takes the first free place of its code length, or there is none. -/
theorem tryInsert_inserted {rem n : Nat} {t : Tree} (h : Packed rem n t) (symbol : Byte) :
    Inserted symbol rem n (tryInsert symbol rem t) := by
  induction h with
  | null rem =>
    obtain ⟨u, hins, hu, hcode⟩ := tryInsert_null_placed symbol rem
    rw [hins]
    exact .placed (Nat.two_pow_pos rem) hu hcode
  | leaf rem x => cases rem <;> exact .full rfl
  | @left rem n l hl ih =>
    rw [tryInsert]
    generalize tryInsert symbol rem l = answer at ih
    cases ih with
    | placed hn hu hcode =>
      exact .placed (hn.trans (Nat.pow_lt_pow_succ (by decide))) (.left hu) (leadsTo_left hn hcode .null)
    | full hn =>
      subst hn
      obtain ⟨u, hins, hu, hcode⟩ := tryInsert_null_placed symbol rem
      rw [hins]
      exact .placed (Nat.pow_lt_pow_succ (by decide)) (.right hl hu) (leadsTo_right (Nat.two_pow_pos rem) hcode l)
  | @right rem n l r hl _ ihl ihr =>
    rw [tryInsert]
    generalize tryInsert symbol rem l = answer at ihl
    cases ihl with
    | placed hn _ _ => exact absurd hn (Nat.lt_irrefl _)
    | full _ =>
      generalize tryInsert symbol rem r = answer at ihr
      cases ihr with
      | placed hn hu hcode =>
        refine .placed ?_ (.right hl hu) (leadsTo_right hn hcode l)
        rw [Nat.pow_succ]
        omega
      | full hn =>
        refine .full ?_
        rw [hn, Nat.pow_succ, Nat.mul_two]

/-- An insertion that succeeds leaves every leaf where it was. -/
theorem walkTree_tryInsert {symbol x : Byte} {rem : Nat} {t u : Tree} {bits rest : List Bool}
    (hu : tryInsert symbol rem t = some u) (h : walkTree t bits = .ok (x, rest)) : walkTree u bits = .ok (x, rest) := by
  induction bits generalizing rem t u with
  | nil =>
    cases t with
    | null => cases h
    | leaf y => cases rem <;> cases hu
    | node l r => cases h
  | cons b bits ih =>
    cases t with
    | null => cases h
    | leaf y => cases rem <;> cases hu
    | node l r =>
      cases rem with
      | zero => cases hu
      | succ rem =>
        rw [walkTree_node_cons] at h
        rcases tryInsert_node hu with ⟨l', hl', rfl⟩ | ⟨_, r', hr', rfl⟩
        · rw [walkTree_node_cons]
          cases b with
          | false => exact ih hl' h
          | true => exact h
        · rw [walkTree_node_cons]
          cases b with
          | false => exact h
          | true => exact ih hr' h

/-! ### Insertion after insertion (R102, R104) -/

section
variable {t u : Tree} {pairs : List (Nat × Byte)}

/-- A list of insertions that all succeed: the first does, and the others do in the tree it leaves. -/
theorem insertAll_cons_ok {len : Nat} {symbol : Byte} (h : insertAll t ((len, symbol) :: pairs) = .ok u) :
    ∃ t', tryInsert symbol len t = some t' ∧ insertAll t' pairs = .ok u := by
  rw [insertAll] at h
  split at h
  case h_1 => cases h
  case h_2 t' ht' =>
    refine ⟨t', ht', ?_⟩
    split at h
    case h_1 v hv => rw [hv, h]
    case h_2 => cases h

theorem walkTree_insertAll {x : Byte} {bits rest : List Bool} (hu : insertAll t pairs = .ok u)
    (h : walkTree t bits = .ok (x, rest)) : walkTree u bits = .ok (x, rest) := by
  induction pairs generalizing t with
  | nil => cases hu; exact h
  | cons p pairs ih =>
    obtain ⟨t', ht', hrest⟩ := insertAll_cons_ok hu
    exact ih hrest (walkTree_tryInsert ht' h)

/-- The first insertion of a list takes the first free place at its length. -/
theorem insertAll_cons_placed {len₀ next len : Nat} {symbol : Byte} (ht : Packed len₀ next t) (hle : len₀ ≤ len)
    (h : insertAll t ((len, symbol) :: pairs) = .ok u) :
    ∃ t', insertAll t' pairs = .ok u ∧ Packed len (next * 2 ^ (len - len₀) + 1) t' ∧
      LeadsTo t' (codeBits len (next * 2 ^ (len - len₀))) symbol := by
  obtain ⟨t', ht', hrest⟩ := insertAll_cons_ok h
  have hins := tryInsert_inserted (ht.at_length hle) symbol
  rw [ht'] at hins
  cases hins with
  | placed _ hpacked hcode => exact ⟨t', hrest, hpacked, hcode⟩

/-- Each symbol inserted stands at its canonical code. -/
theorem insertAll_canonical {len₀ next i len code : Nat} {symbol : Byte} (ht : Packed len₀ next t)
    (hasc : (len₀ :: pairs.map (·.1)).Pairwise (· ≤ ·)) (hu : insertAll t pairs = .ok u)
    (hcode : (canonicalCodes len₀ next (pairs.map (·.1)))[i]? = some (len, code))
    (hsymbol : pairs[i]? = some (len, symbol)) : LeadsTo u (codeBits len code) symbol := by
  induction pairs generalizing t len₀ next i with
  | nil => cases hsymbol
  | cons p pairs ih =>
    obtain ⟨len₁, symbol₁⟩ := p
    obtain ⟨hfirst, hasc'⟩ := List.pairwise_cons.1 hasc
    obtain ⟨t', hrest, ht', hplaced⟩ := insertAll_cons_placed ht (hfirst len₁ List.mem_cons_self) hu
    cases i with
    | zero =>
      cases hcode
      cases hsymbol
      exact fun rest => walkTree_insertAll hrest (hplaced rest)
    | succ i => exact ih ht' hasc' hrest hcode hsymbol

/-- The places in use at a length that no inserted length exceeds: those in use before, and `2 ^ (len - l)` of each
length `l` inserted. -/
theorem insertAll_packed {len₀ next len : Nat} (ht : Packed len₀ next t)
    (hasc : (len₀ :: pairs.map (·.1)).Pairwise (· ≤ ·)) (hle : len₀ ≤ len) (hpairs : ∀ p ∈ pairs, p.1 ≤ len)
    (hu : insertAll t pairs = .ok u) :
    Packed len (next * 2 ^ (len - len₀) + (pairs.map fun p => 2 ^ (len - p.1)).sum) u := by
  induction pairs generalizing t len₀ next with
  | nil => cases hu; exact ht.at_length hle
  | cons p pairs ih =>
    obtain ⟨len₁, symbol₁⟩ := p
    obtain ⟨hfirst, hasc'⟩ := List.pairwise_cons.1 hasc
    obtain ⟨hle₁, hpairs'⟩ := List.forall_mem_cons.1 hpairs
    have hle₀ : len₀ ≤ len₁ := hfirst len₁ List.mem_cons_self
    obtain ⟨t', hrest, ht', _⟩ := insertAll_cons_placed ht hle₀ hu
    have hpacked := ih ht' hasc' hle₁ hpairs' hrest
    have hshift : len₁ - len₀ + (len - len₁) = len - len₀ := by omega
    rwa [Nat.add_mul, Nat.one_mul, Nat.mul_assoc, ← Nat.pow_add, hshift, Nat.add_assoc, ← List.sum_cons] at hpacked

end

/-- Lengths of at least 1 that ascend do so after the length 1 of the cleared tree. -/
theorem pairwise_one_cons {pairs : List (Nat × Byte)} (hasc : (pairs.map (·.1)).Pairwise (· ≤ ·))
    (hpos : ∀ p ∈ pairs, 1 ≤ p.1) : (1 :: pairs.map (·.1)).Pairwise (· ≤ ·) :=
  List.pairwise_cons.2 ⟨List.forall_mem_map.2 hpos, hasc⟩

/-- Settles O19: the `i`-th insertion takes the first free place of its length, whose number is the canonical code, and
the later insertions leave it there. -/
theorem builtCodesAreCanonical : Obligations.BuiltCodesAreCanonical := by
  intro pairs t hasc hpos hbuilt i len code symbol rest hcode hsymbol
  exact insertAll_canonical packed_clearedTree (pairwise_one_cons hasc hpos) hbuilt hcode hsymbol rest

/-- Settles O20: an insertion fails exactly where every place of its length is in use. -/
theorem insertFailsExactlyWhenOversubscribed : Obligations.InsertFailsExactlyWhenOversubscribed := by
  intro pairs t len symbol hasc hpairs hlen hbuilt
  have hpacked := insertAll_packed packed_clearedTree (pairwise_one_cons hasc fun p hp => (hpairs p hp).1) hlen
    (fun p hp => (hpairs p hp).2) hbuilt
  rw [Nat.zero_mul, Nat.zero_add] at hpacked
  have hins := tryInsert_inserted hpacked symbol
  generalize tryInsert symbol len t = answer at hins
  cases hins with
  | placed hn _ _ => exact iff_of_false (by simp) hn.ne
  | full hn => exact iff_of_true rfl hn

end Sys2Proof.Machine
end

section
/-!
The DC/AC Value Decoder (42_coefficient_decoder.md): the sign rule of EXTEND (R120), and the bound of the predictors
(R125) as an invariant of every step.
-/
namespace Sys2Proof.Machine

variable {s t : State}

/-! ### The predictors (R125) -/

/-- A decoded difference is written to one predictor; the others keep their bound, or all become 0. -/
theorem update_predBound (hs : PredBound s) (h : Update s t) : PredBound t := by
  cases h with
  | pred c diff hdiff =>
    intro i v hv
    rw [setCtx_ctx, tabGet_set] at hv
    split at hv
    · cases hv
      exact hdiff
    · exact hs i v hv
  | fields f _ hpred =>
    unfold PredBound
    rw [setCtx_ctx, hpred]
    exact hs
  | reset => exact predBound_of_empty rfl
  | _ => exact hs

theorem predBound_stepInvariant : StepInvariant PredBound where
  dropStart _ hs := hs
  update _ _ _ hs h := update_predBound hs h
  cursor _ _ _ _ hs := hs
  fault _ _ _ _ hs := hs
  halt _ _ hs := hs
  start _ _ _ := predBound_of_empty rfl

/-- Settles O50: a predictor is written with a decoded difference or with 0, and with nothing else. -/
theorem stepKeepsPredictorsSmall : Obligations.StepKeepsPredictorsSmall :=
  fun _ _ => predBound_stepInvariant.of_step

/-! ### EXTEND (R120) -/

section
variable {size v w : Nat}

/-- With its most significant bit set a magnitude stands for itself. -/
theorem extend_of_msb (h : 2 ^ (size - 1) ≤ v) : extend v size = v := if_pos h

/-- Without it a magnitude stands for a negative number. -/
theorem extend_of_no_msb (h : v < 2 ^ (size - 1)) : extend v size = (v : Int) - (2 ^ size - 1) :=
  if_neg (Nat.not_le.2 h)

/-- The magnitudes of a size are twice as many as those without the most significant bit. -/
theorem two_pow_size (h : 1 ≤ size) : 2 ^ size = 2 * 2 ^ (size - 1) := by
  rw [Nat.mul_comm, Nat.two_pow_pred_mul_two h]

theorem two_pow_size_int (h : 1 ≤ size) : (2 : Int) ^ size = 2 * ((2 ^ (size - 1) : Nat) : Int) := by
  exact_mod_cast two_pow_size h

/-- A magnitude of `size` bits stands for a number of `size` bits and a sign that is not 0. -/
theorem extend_range (hsize : 1 ≤ size) (hv : v < 2 ^ size) :
    extend v size ≠ 0 ∧ -(2 ^ size : Int) < extend v size ∧ extend v size < 2 ^ size := by
  have half_pos : 0 < 2 ^ (size - 1) := Nat.two_pow_pos _
  rw [two_pow_size hsize] at hv
  rw [two_pow_size_int hsize]
  rcases Nat.lt_or_ge v (2 ^ (size - 1)) with negative | positive
  · rw [extend_of_no_msb negative, two_pow_size_int hsize]
    omega
  · rw [extend_of_msb positive]
    omega

/-- EXTEND keeps the order of the magnitudes: the negative numbers come first. -/
theorem extend_lt_extend (hsize : 1 ≤ size) (h : w < v) : extend w size < extend v size := by
  rcases Nat.lt_or_ge w (2 ^ (size - 1)) with wneg | wpos
  · rw [extend_of_no_msb wneg, two_pow_size_int hsize]
    rcases Nat.lt_or_ge v (2 ^ (size - 1)) with vneg | vpos
    · rw [extend_of_no_msb vneg, two_pow_size_int hsize]
      omega
    · rw [extend_of_msb vpos]
      omega
  · rw [extend_of_msb wpos, extend_of_msb (wpos.trans h.le)]
    exact_mod_cast h

end

/-- Settles O21: the two clauses are the branches of EXTEND, the magnitudes below the half go to the negative numbers and
the others to the positive ones. -/
theorem extendFollowsTheSignRule : Obligations.ExtendFollowsTheSignRule := by
  intro size v hsize hmax hv
  obtain ⟨nonzero, above, below⟩ := extend_range hsize hv
  have fits : v < 2 ^ 16 := hv.trans_le (Nat.pow_le_pow_right (by decide) hmax)
  exact ⟨extend_of_msb, extend_of_no_msb, nonzero, above, below, toInt_extend hmax fits,
    fun _ => extend_lt_extend hsize⟩

end Sys2Proof.Machine
end

section
/-!
The elements of the bit stream (42_coefficient_decoder.md R121, R122, R124): the value of an element against the reference
reading of the bits left, and what DC_ELEM, AC_ELEM and EOB do with it.
-/
namespace Sys2Proof.Machine

variable {s t : State} {size : Byte} {v : Coef}

/-! ### The reference value of an element -/

section
variable {bits rest : List Bool}

/-- A symbol with magnitude bits is not 0. -/
theorem size_ne_zero {n : Nat} (h : n < size.toNat) : size ≠ 0 := by
  rintro rfl
  exact absurd h (Nat.not_lt_zero n)

theorem refValue_sizeRange (h : 16 < size.toNat) : refValue size bits = .error ⟨7, 0x0E, bits.length⟩ := by
  rw [refValue, if_neg (size_ne_zero h), if_pos h]

theorem refValue_scanBits (hne : size ≠ 0) (h16 : size.toNat ≤ 16) (h : bits.length < size.toNat) :
    refValue size bits = .error ⟨2, 0x04, bits.length⟩ := by
  rw [refValue, if_neg hne, if_neg (Nat.not_lt.2 h16), if_pos h]

/-- The value is EXTEND of the magnitude bits (R73, R120). -/
theorem refValue_magnitude (hne : size ≠ 0) (h16 : size.toNat ≤ 16) (h : size.toNat ≤ bits.length) :
    refValue size bits =
      .ok (BitVec.ofInt 32 (extend (bitsValue (bits.take size.toNat)) size.toNat), bits.drop size.toNat) := by
  rw [refValue, if_neg hne, if_neg (Nat.not_lt.2 h16), if_neg (Nat.not_lt.2 h)]
  rfl

end

/-! ### The value of an element (R121, R122) -/

/-- What is left after `m` bits were read (R93). -/
theorem bitsLeft_afterBits {m : Nat} (h : m ≤ (bitsLeft s).length) (acc : BitVec 16) :
    bitsLeft (afterBits m acc s) = (bitsLeft s).drop m := by
  rw [bitsLeft, afterBits_bitOff h, bitsLeft, List.drop_drop]
  rfl

/-- `SIZE <- size`, the first write of every element. -/
def storeSize (size : Byte) (s : State) : State := setWork (fun w => { w with size := size }) s

/-- What an element leaves in `ACC`: its magnitude, or what was there where it has no magnitude bits. -/
def magnitudeAcc (size : Byte) (s : State) : BitVec 16 :=
  if size = 0 then s.work.acc else BitVec.ofNat 16 (bitsValue ((bitsLeft s).take size.toNat))

/-- SizeRange comes before any magnitude bit (R185 (g)). -/
theorem elementValue_sizeRange (h : 16 < size.toNat) :
    (elementValue size).run s = .error .raised (errorState 7 0x0E s.bitOff.toNat s) := by
  rw [elementValue, if_neg (size_ne_zero h), if_pos h]
  rfl

theorem elementValue_scanBits (hne : size ≠ 0) (h16 : size.toNat ≤ 16)
    (h : 8 * s.scanLen.toNat < s.bitOff.toNat + size.toNat) :
    (elementValue size).run s = .error .raised (errorState 2 0x04 s.bitOff.toNat s) := by
  rw [elementValue, if_neg hne, if_neg (Nat.not_lt.2 h16), bind_error (takeBits_stop h)]
  rfl

theorem elementValue_magnitude (hne : size ≠ 0) (h16 : size.toNat ≤ 16)
    (h : s.bitOff.toNat + size.toNat ≤ 8 * s.scanLen.toNat) :
    (elementValue size).run s =
      .ok (BitVec.ofInt 32 (extend (bitsValue ((bitsLeft s).take size.toNat)) size.toNat))
        (afterBits size.toNat (magnitudeAcc size s) s) := by
  rw [elementValue, if_neg hne, if_neg (Nat.not_lt.2 h16), bind_ok (takeBits_ok h), accumulate_bitsLeft h,
    BitVec.toNat_ofNat, Nat.mod_eq_of_lt (bitsValue_take_lt _ h16), magnitudeAcc, if_neg hne]
  rfl

/-- What an element's value can be: a value whose bits are left, or a fault before any bit is read; in each case the
answer of the reference reading and the run of the machine. -/
inductive ValueCase (size : Byte) (s : State) : Except BitFault (Coef × List Bool) → EStateM.Result Stop State Coef → Prop
  where
  | value (v : Coef) (inside : size.toNat ≤ (bitsLeft s).length) :
      ValueCase size s (.ok (v, (bitsLeft s).drop size.toNat)) (.ok v (afterBits size.toNat (magnitudeAcc size s) s))
  | fault (kind : BitVec 3) (reason : BitVec 8) :
      ValueCase size s (.error ⟨kind, reason, (bitsLeft s).length⟩)
        (.error .raised (errorState kind reason s.bitOff.toNat s))

/-- The machine reads the value that the reference reading gives, or faults as it does, before any bit. -/
theorem elementValue_cases (size : Byte) (s : State) :
    ValueCase size s (refValue size (bitsLeft s)) ((elementValue size).run s) := by
  by_cases hzero : size = 0
  · subst hzero
    have h := ValueCase.value (size := 0) (s := s) 0 (Nat.zero_le _)
    have same : afterBits (0 : Byte).toNat (magnitudeAcc 0 s) s = s := afterBits_zero s
    rw [same] at h
    exact h
  by_cases hrange : 16 < size.toNat
  · rw [refValue_sizeRange hrange, elementValue_sizeRange hrange]
    exact .fault 7 0x0E
  have h16 := Nat.not_lt.1 hrange
  have hpos : 0 < size.toNat := Nat.pos_of_ne_zero fun h => hzero (BitVec.eq_of_toNat_eq h)
  have hlen := bitsLeft_length s
  by_cases inside : s.bitOff.toNat + size.toNat ≤ 8 * s.scanLen.toNat
  · have present : size.toNat ≤ (bitsLeft s).length := by omega
    rw [refValue_magnitude hzero h16 present, elementValue_magnitude hzero h16 inside]
    exact .value _ present
  · rw [refValue_scanBits hzero h16 (by omega), elementValue_scanBits hzero h16 (Nat.lt_of_not_le inside)]
    exact .fault 2 0x04

/-- A value that the reference reading gives is what the machine reads; its bits are the next ones. -/
theorem elementValue_ok {rest : List Bool} (h : refValue size (bitsLeft s) = .ok (v, rest)) :
    size.toNat ≤ (bitsLeft s).length ∧ rest = (bitsLeft s).drop size.toNat ∧
      (elementValue size).run s = .ok v (afterBits size.toNat (magnitudeAcc size s) s) := by
  have cases := elementValue_cases size s
  rw [h] at cases
  generalize (elementValue size).run s = run at cases
  cases cases with
  | value _ present => exact ⟨present, rfl, rfl⟩

/-! ### AC_ELEM, DC_ELEM, EOB -/

theorem acBody_ok (h : (elementValue size).run (storeSize size s) = .ok v t) :
    (acBody size).run s = .ok () (setBlk (zz t.work.k.toNat) v t) := by
  rw [acBody, modify_bind_run]
  exact bind_ok h

theorem acBody_error {e : Stop} (h : (elementValue size).run (storeSize size s) = .error e t) :
    (acBody size).run s = .error e t := by
  rw [acBody, modify_bind_run]
  exact bind_error h

theorem component_ok (h : s.work.ci.toNat < 255) : component.run s = .ok s.work.ci.toNat s := by
  rw [component_run, if_pos h]

/-- What a DC element makes of its difference, for a component with predictor `p` (R121, R124). -/
def storeDifference (c : Nat) (p diff : Coef) (s : State) : State :=
  setCtx (fun x => { x with pred := tabSet x.pred c diff }) (setBlk 0 (p + diff) s)

theorem dcBody_ok (hci : s.work.ci.toNat < 255) (h : (elementValue size).run (storeSize size s) = .ok v t) :
    (dcBody size).run s =
      .ok () (storeDifference s.work.ci.toNat ((tabGet t.ctx.pred s.work.ci.toNat).getD 0) v t) := by
  rw [dcBody, modify_bind_run]
  exact (bind_ok (component_ok (s := storeSize size s) hci)).trans (bind_ok h)

theorem dcBody_error {e : Stop} (hci : s.work.ci.toNat < 255)
    (h : (elementValue size).run (storeSize size s) = .error e t) : (dcBody size).run s = .error e t := by
  rw [dcBody, modify_bind_run]
  exact (bind_ok (component_ok (s := storeSize size s) hci)).trans (bind_error h)

/-- A table has no entry at or beyond its number of entries. -/
theorem lt_of_tabGet {α : Type} {n i : Nat} {t : Tab α n} {x : α} (h : tabGet t i = some x) : i < n := by
  by_contra hn
  rw [tabGet_eq_none t (Nat.not_lt.1 hn)] at h
  cases h

/-- The state after the value of an element was read: `SIZE` and `ACC` written, `BITOFF` past the magnitude bits. -/
def afterValue (size : Byte) (s : State) : State := afterBits size.toNat (magnitudeAcc size s) (storeSize size s)

theorem bitsLeft_afterValue (h : size.toNat ≤ (bitsLeft s).length) :
    bitsLeft (afterValue size s) = (bitsLeft s).drop size.toNat := bitsLeft_afterBits (s := storeSize size s) h _

section
variable {p diff : Coef} {rest : List Bool}

/-- A DC element whose value the reference reading gives, for a component of the tables. -/
theorem exec_dcElem (hp : tabGet s.ctx.pred s.work.ci.toNat = some p)
    (hvalue : refValue size (bitsLeft s) = .ok (diff, rest)) :
    exec (.dcElem size) s = .next (storeDifference s.work.ci.toNat p diff (afterValue size s)) := by
  obtain ⟨-, -, hrun⟩ := elementValue_ok (s := storeSize size s) hvalue
  have pred : tabGet (afterValue size s).ctx.pred s.work.ci.toNat = some p := hp
  have stored := dcBody_ok (t := afterValue size s) (lt_of_tabGet hp) hrun
  rw [pred] at stored
  exact outcomeOf_ok stored

theorem exec_acElem (hvalue : refValue size (bitsLeft s) = .ok (v, rest)) :
    exec (.acElem size) s = .next (setBlk (zz s.work.k.toNat) v (afterValue size s)) := by
  obtain ⟨-, -, hrun⟩ := elementValue_ok (s := storeSize size s) hvalue
  exact outcomeOf_ok (acBody_ok hrun)

end

/-- Settles O39: the value is the reference one, and the predictor it is added to is the component's. -/
theorem dcElementAddsTheDifference : Obligations.DcElementAddsTheDifference :=
  fun _ _ _ _ _ hp hvalue => exec_dcElem hp hvalue

/-- Settles O40: the value is the reference one, and `K` is as it was when the element was fetched. -/
theorem acElementStoresAtZigZag : Obligations.AcElementStoresAtZigZag :=
  fun _ _ _ _ hvalue => exec_acElem hvalue

/-- Settles O41: the value is read before anything but `SIZE` is written, and it faults at `BITOFF`. -/
theorem elementFaultsKeepTheBlock : Obligations.ElementFaultsKeepTheBlock := by
  intro s size t
  refine ⟨fun hrange => ?sizeRange, fun hpos h16 hbits => ?scanBits⟩
  case sizeRange =>
    have fault := elementValue_sizeRange (s := storeSize size s) hrange
    exact ⟨outcomeOf_raised (acBody_error fault), fun hci => outcomeOf_raised (dcBody_error hci fault)⟩
  case scanBits =>
    have fault := elementValue_scanBits (s := storeSize size s) (size_ne_zero hpos) h16 hbits
    exact ⟨outcomeOf_raised (acBody_error fault), fun hci => outcomeOf_raised (dcBody_error hci fault)⟩

/-- Settles O45: the first element leaves its difference as the predictor, and the bits after it, to the second. -/
theorem predictorHoldsTheLastDifference : Obligations.PredictorHoldsTheLastDifference := by
  intro s size1 size2 d1 d2 rest1 rest2 hci hvalue1 hvalue2
  obtain ⟨p, hp⟩ := tabGet_isSome s.ctx.pred hci
  obtain ⟨present, hrest, -⟩ := elementValue_ok hvalue1
  let t := storeDifference s.work.ci.toNat p d1 (afterValue size1 s)
  have hpred : tabGet t.ctx.pred t.work.ci.toNat = some d1 := tabGet_set_self _ _ hci
  have hbits : bitsLeft t = rest1 := (bitsLeft_afterValue present).trans hrest.symm
  rw [← hbits] at hvalue2
  exact ⟨t, _, exec_dcElem hp hvalue1, exec_dcElem hpred hvalue2, tabGet_set_self _ _ (by decide),
    tabGet_set_self _ _ hci⟩

/-- Settles O43: EOB is the write of `SIZE`. -/
theorem eobLeavesTheBlock : Obligations.EobLeavesTheBlock := fun _ => rfl

end Sys2Proof.Machine
end

section
/-!
One coded block (42_coefficient_decoder.md R123): DECODE_DC and DECODE_AC element by element, held to the reference reading
of the bits left, its fault included.
-/
namespace Sys2Proof.Machine

variable {s t u : State} {c m : Nat} {p : Coef} {k : Selectors}

/-! ### The reads of the bit stream (R103, R121, R122) -/

/-- A walk that ends at a leaf leaves the bits after those it read. -/
theorem walkTree_rest {tree : Tree} {bits rest : List Bool} {symbol : Byte}
    (h : walkTree tree bits = .ok (symbol, rest)) : rest = bits.drop (codeBitsRead tree bits) := by
  induction bits generalizing tree with
  | nil => cases tree <;> cases h; rfl
  | cons b bits ih =>
    cases tree with
    | null => cases h
    | leaf x => cases h; rfl
    | node l r =>
      rw [walkTree_node_cons] at h
      rw [codeBitsRead, List.drop_succ_cons]
      exact ih h

/-- The two ways of a read of the bit stream, `m` bits of it read: in each the answer of the reference reading and the
run of the machine. -/
inductive ReadCase {α : Type} (s : State) : Except BitFault (α × List Bool) → EStateM.Result Stop State α → Prop where
  | answer (m : Nat) (a : α) (acc : BitVec 16) (inside : m ≤ (bitsLeft s).length) :
      ReadCase s (.ok (a, (bitsLeft s).drop m)) (.ok a (afterBits m acc s))
  | fault (m : Nat) (kind : BitVec 3) (reason : BitVec 8) (acc : BitVec 16) (inside : m ≤ (bitsLeft s).length) :
      ReadCase s (.error ⟨kind, reason, (bitsLeft s).length - m⟩)
        (.error .raised (errorState kind reason (s.bitOff.toNat + m) (afterBits m acc s)))

/-- A fault before any bit is read. -/
theorem readCase_fault_at_once {α : Type} (s : State) (kind : BitVec 3) (reason : BitVec 8) :
    ReadCase (α := α) s (.error ⟨kind, reason, (bitsLeft s).length⟩)
      (.error .raised (errorState kind reason s.bitOff.toNat s)) := by
  have fault := ReadCase.fault (α := α) (s := s) 0 kind reason s.work.acc (Nat.zero_le _)
  rw [afterBits_zero] at fault
  exact fault

/-- The value of an element is such a read. -/
theorem elementValue_read (size : Byte) (s : State) :
    ReadCase s (refValue size (bitsLeft s)) ((elementValue size).run s) := by
  have value := elementValue_cases size s
  generalize refValue size (bitsLeft s) = answer at value ⊢
  generalize (elementValue size).run s = run at value ⊢
  cases value with
  | value v inside => exact .answer size.toNat v _ inside
  | fault kind reason => exact readCase_fault_at_once s kind reason

/-- The loop of HT_LOOKUP reads the code that the reference reading does. -/
theorem lookupFrom_read (tree : Tree) (s : State) :
    ReadCase s (refCode (some tree) (bitsLeft s)) ((lookupFrom tree).run s) := by
  obtain ⟨acc, hrun⟩ := lookupFrom_run tree s
  have hread := codeBitsRead_le tree (bitsLeft s)
  have hpos := afterBits_bitOff hread acc
  rw [hrun, refCode]
  cases hwalk : walkTree tree (bitsLeft s) with
  | ok found =>
    obtain ⟨symbol, rest⟩ := found
    rw [walkTree_rest hwalk]
    exact .answer _ symbol acc hread
  | error e =>
    cases e with
    | notACode =>
      rw [lookupEnd, hpos]
      exact .fault _ 3 0x0A acc hread
    | outOfBits =>
      have hall : (bitsLeft s).length - codeBitsRead tree (bitsLeft s) = 0 := by
        rw [codeBitsRead_of_outOfBits hwalk, Nat.sub_self]
      have fault := ReadCase.fault (α := Byte) _ 2 0x04 acc hread
      rw [hall] at fault
      rw [lookupEnd, hpos]
      exact fault

theorem htLookup_read (cls : TabClass) (sel : BitVec 1) (s : State) :
    ReadCase s (refCode (treeOf s.ctx.ht cls sel) (bitsLeft s)) ((htLookup cls sel).run s) := by
  cases hvalid : (slotOf s.ctx.ht cls sel).valid with
  | true =>
    rw [htLookup_valid hvalid, treeOf, if_pos hvalid]
    exact lookupFrom_read _ s
  | false =>
    rw [htLookup_invalid hvalid, treeOf, hvalid]
    exact readCase_fault_at_once s 3 0x09

/-- The selector of a class in an entry of `SEL` (R23). -/
def classSelector (k : Selectors) : TabClass → BitVec 1
  | .dc => k.dc
  | .ac => k.ac

/-- Component `CI` is one of the tables, with selectors `k` and predictor `p`. -/
structure AtComponent (s : State) (k : Selectors) (p : Coef) : Prop where
  sel : tabGet s.ctx.sel s.work.ci.toNat = some k
  pred : tabGet s.ctx.pred s.work.ci.toNat = some p

theorem AtComponent.ci_lt (h : AtComponent s k p) : s.work.ci.toNat < 255 := lt_of_tabGet h.sel

/-- What a block's reads and writes keep of it; a DC element makes its difference the predictor. -/
theorem AtComponent.afterBits (h : AtComponent s k p) (m : Nat) (acc : BitVec 16) :
    AtComponent (afterBits m acc s) k p := ⟨h.sel, h.pred⟩

theorem AtComponent.storeSize (h : AtComponent s k p) (size : Byte) : AtComponent (storeSize size s) k p :=
  ⟨h.sel, h.pred⟩

theorem AtComponent.setBlk (h : AtComponent s k p) (n : Nat) (v : Coef) : AtComponent (setBlk n v s) k p :=
  ⟨h.sel, h.pred⟩

theorem AtComponent.storeDifference (h : AtComponent s k p) (diff : Coef) :
    AtComponent (storeDifference s.work.ci.toNat p diff s) k diff := ⟨h.sel, tabGet_set_self _ _ h.ci_lt⟩

theorem selectorOf_run (h : AtComponent s k p) (cls : TabClass) : (selectorOf cls).run s = .ok (classSelector k cls) s := by
  rw [selectorOf, bind_ok (component_ok h.ci_lt), get_bind_run, h.sel]
  cases cls <;> rfl

/-- An element is fetched from the table that its component selects. -/
theorem fetchElement_read (h : AtComponent s k p) (cls : TabClass) :
    ReadCase s (refCode (treeOf s.ctx.ht cls (classSelector k cls)) (bitsLeft s)) ((fetchElement cls).run s) := by
  rw [fetchElement, bind_ok (selectorOf_run h cls)]
  exact htLookup_read cls _ s

/-! ### What a part of a block can change -/

/-- The state with the block, the predictor of component `c`, the bit cursor `m` bits further and the working registers
written. -/
def decoded (c : Nat) (blk : Tab Coef Config.blockSize) (p : Coef) (m : Nat) (w : WorkRegs) (s : State) : State :=
  { s with
    blk := blk
    ctx := { s.ctx with pred := tabSet s.ctx.pred c p }
    bitOff := BitVec.ofNat 36 (s.bitOff.toNat + m)
    work := w }

/-- Working registers that stand at the same block: the registers a block's decoding does not write (R26). -/
structure SameBlock (w w' : WorkRegs) : Prop where
  ci : w'.ci = w.ci
  bx : w'.bx = w.bx
  row : w'.row = w.row

/-- `t` is `s` after `m` bits of the block of component `c` were read. -/
inductive Reads (c m : Nat) (s : State) : State → Prop where
  | intro (blk : Tab Coef Config.blockSize) (p : Coef) (w : WorkRegs) (inside : m ≤ (bitsLeft s).length)
      (same : SameBlock s.work w) : Reads c m s (decoded c blk p m w s)

theorem bitOff_decoded (h : m ≤ (bitsLeft s).length) (blk : Tab Coef Config.blockSize) (w : WorkRegs) :
    (decoded c blk p m w s).bitOff.toNat = s.bitOff.toNat + m := afterBits_bitOff h 0

theorem bitsLeft_decoded (h : m ≤ (bitsLeft s).length) (blk : Tab Coef Config.blockSize) (w : WorkRegs) :
    bitsLeft (decoded c blk p m w s) = (bitsLeft s).drop m := bitsLeft_afterBits h 0

theorem Reads.inside (h : Reads c m s t) : m ≤ (bitsLeft s).length := by
  cases h with | intro _ _ _ inside _ => exact inside

theorem Reads.bitOff (h : Reads c m s t) : t.bitOff.toNat = s.bitOff.toNat + m := by
  cases h with | intro _ _ _ inside _ => exact bitOff_decoded inside _ _

theorem Reads.bitsLeft (h : Reads c m s t) : bitsLeft t = (Machine.bitsLeft s).drop m := by
  cases h with | intro _ _ _ inside _ => exact bitsLeft_decoded inside _ _

theorem Reads.trans {n : Nat} (h : Reads c m s t) (g : Reads c n t u) : Reads c (m + n) s u := by
  have hbits := h.bitsLeft
  have hpos := h.bitOff
  have hin := h.inside
  cases h with
  | intro blk p w _ same =>
  cases g with
  | intro blk' p' w' inside' same' =>
    have total : m + n ≤ (Machine.bitsLeft s).length := by
      rw [hbits, List.length_drop] at inside'
      omega
    have whole : decoded c blk' p' n w' (decoded c blk p m w s) = decoded c blk' p' (m + n) w' s := by
      rw [decoded, hpos, Nat.add_assoc]
      simp only [decoded, tabSet_set]
    rw [whole]
    exact .intro blk' p' w' total ⟨same'.ci.trans same.ci, same'.bx.trans same.bx, same'.row.trans same.row⟩

theorem tabSet_getD {α : Type} {n : Nat} (t : Tab α n) (i : Nat) (x : α) : tabSet t i ((tabGet t i).getD x) = t := by
  refine tab_ext fun j => ?_
  rw [tabGet_set]
  split
  case isTrue h =>
    obtain ⟨rfl, hi⟩ := h
    obtain ⟨y, hy⟩ := tabGet_isSome t hi
    rw [hy, Option.getD_some]
  case isFalse => rfl

/-- The state itself, as one whose predictor and bit cursor were written with what they held. -/
theorem decoded_self (c : Nat) (blk : Tab Coef Config.blockSize) (w : WorkRegs) (s : State) :
    decoded c blk ((tabGet s.ctx.pred c).getD 0) 0 w s = { s with blk := blk, work := w } := by
  simp [decoded, tabSet_getD]

/-- A write to the block and to working registers other than those that name the block reads nothing. -/
theorem reads_write (c : Nat) (blk : Tab Coef Config.blockSize) {w : WorkRegs} (same : SameBlock s.work w) :
    Reads c 0 s { s with blk := blk, work := w } := by
  rw [← decoded_self c blk w s]
  exact .intro blk _ w (Nat.zero_le _) same

theorem reads_refl (c : Nat) (s : State) : Reads c 0 s s := reads_write c s.blk ⟨rfl, rfl, rfl⟩

theorem reads_storeSize (c : Nat) (size : Byte) (s : State) : Reads c 0 s (storeSize size s) :=
  reads_write c s.blk ⟨rfl, rfl, rfl⟩

theorem reads_setBlk (c n : Nat) (v : Coef) (s : State) : Reads c 0 s (setBlk n v s) :=
  reads_write c (tabSet s.blk n v) ⟨rfl, rfl, rfl⟩

theorem reads_storeDifference (c : Nat) (p diff : Coef) (s : State) : Reads c 0 s (storeDifference c p diff s) := by
  have h := Reads.intro (c := c) (s := s) (tabSet s.blk 0 (p + diff)) diff s.work (Nat.zero_le _) ⟨rfl, rfl, rfl⟩
  rw [decoded, Nat.add_zero, BitVec.ofNat_toNat, BitVec.setWidth_eq] at h
  exact h

theorem reads_afterBits (c : Nat) (h : m ≤ (bitsLeft s).length) (acc : BitVec 16) : Reads c m s (afterBits m acc s) := by
  have read := Reads.intro (c := c) s.blk ((tabGet s.ctx.pred c).getD 0) { s.work with acc := acc } h
    ⟨rfl, rfl, rfl⟩
  rw [decoded, tabSet_getD] at read
  exact read

/-- How the decoding of a block, or of the rest of one, ends from `s` where the reference reading leaves `b`: with what
`b` says of the block and the predictor, and at the bit, or with the fault, that `b` says. -/
inductive BlockEnd (c : Nat) (s : State) (b : BlockRead) : EStateM.Result Stop State Unit → Prop where
  | done (m : Nat) (t : State) (read : Reads c m s t) (blk : t.blk = b.blk) (pred : tabGet t.ctx.pred c = some b.pred)
      (bits : b.bits = .ok ((bitsLeft s).drop m)) : BlockEnd c s b (.ok () t)
  | fault (m : Nat) (t : State) (kind : BitVec 3) (reason : BitVec 8) (read : Reads c m s t) (blk : t.blk = b.blk)
      (pred : tabGet t.ctx.pred c = some b.pred)
      (bits : b.bits = .error ⟨kind, reason, (bitsLeft s).length - m⟩) :
      BlockEnd c s b (.error .raised (errorState kind reason (s.bitOff.toNat + m) t))

/-- What was read before counts to the whole. -/
theorem BlockEnd.after {b : BlockRead} {r : EStateM.Result Stop State Unit} (h : Reads c m s t) (g : BlockEnd c t b r) :
    BlockEnd c s b r := by
  cases g with
  | done n u read blk pred bits =>
    rw [h.bitsLeft, List.drop_drop] at bits
    exact .done (m + n) u (h.trans read) blk pred bits
  | fault n u kind reason read blk pred bits =>
    rw [h.bitsLeft, List.length_drop, Nat.sub_sub] at bits
    rw [h.bitOff, Nat.add_assoc]
    exact .fault (m + n) u kind reason (h.trans read) blk pred bits

/-! ### The reference reading as a sequence of reads -/

/-- The rest of a block after a read: nothing more where it faults, else what its answer and the bits after it give. -/
def readThen {α : Type} (answer : Except BitFault (α × List Bool)) (blk : Tab Coef Config.blockSize) (p : Coef)
    (next : α → List Bool → BlockRead) : BlockRead :=
  match answer with
  | .error f => ⟨blk, p, .error f⟩
  | .ok (a, bits) => next a bits

theorem refAc_succ (tree : Option Tree) (p : Coef) (n : Nat) (blk : Tab Coef Config.blockSize) (bits : List Bool) :
    refAc tree p (n + 1) blk bits =
      readThen (refCode tree bits) blk p fun size bits =>
        if size = 0 then ⟨blk, p, .ok bits⟩
        else readThen (refValue size bits) blk p fun v bits => refAc tree p n (tabSet blk (zz (63 - n)) v) bits := by
  rw [refAc]
  cases refCode tree bits with
  | error f => rfl
  | ok found =>
    obtain ⟨size, rest⟩ := found
    simp only [readThen]
    cases refValue size rest <;> rfl

theorem refBlock_eq (dcTree acTree : Option Tree) (p : Coef) (bits : List Bool) :
    refBlock dcTree acTree p bits =
      readThen (refCode dcTree bits) (tabFill _ 0) p fun size bits =>
        readThen (refValue size bits) (tabFill _ 0) p fun diff bits =>
          refAc acTree diff 63 (tabSet (tabFill _ 0) 0 (p + diff)) bits := by
  rw [refBlock]
  cases refCode dcTree bits with
  | error f => rfl
  | ok found =>
    obtain ⟨size, rest⟩ := found
    simp only [readThen]
    cases refValue size rest <;> rfl

/-- A run that begins with a read ends as the reference reading does, if it ends with the read's fault, and goes on after
the read's answer as the reference reading goes on. -/
theorem BlockEnd.of_read {α : Type} {x : Prog α} {answer : Except BitFault (α × List Bool)}
    {next : α → List Bool → BlockRead} {r : EStateM.Result Stop State Unit}
    (read : ReadCase s answer (x.run s)) (hp : tabGet s.ctx.pred c = some p)
    (stops : ∀ e t, x.run s = .error e t → r = .error e t)
    (goesOn : ∀ m a acc, x.run s = .ok a (afterBits m acc s) →
      BlockEnd c (afterBits m acc s) (next a (bitsLeft (afterBits m acc s))) r) :
    BlockEnd c s (readThen answer s.blk p next) r := by
  generalize hrun : x.run s = run at read
  cases read with
  | fault m kind reason acc inside =>
    rw [stops _ _ hrun]
    exact .fault m _ kind reason (reads_afterBits c inside acc) rfl hp rfl
  | answer m a acc inside =>
    have rest := goesOn m a acc hrun
    rw [bitsLeft_afterBits inside] at rest
    exact rest.after (reads_afterBits c inside acc)

/-! ### DECODE_AC (R122) -/

/-- The AC elements from serialized position `64 - n` on, over the block read so far. -/
theorem decodeAcFrom_end {n : Nat} (hn : n ≤ 63) (h : AtComponent s k p) :
    BlockEnd s.work.ci.toNat s (refAc (treeOf s.ctx.ht .ac k.ac) p n s.blk (bitsLeft s))
      ((decodeAcFrom n (64 - n)).run s) := by
  induction n generalizing s with
  | zero => exact .done 0 s (reads_refl _ s) rfl h.pred rfl
  | succ n ih =>
    have position : (BitVec.ofNat 6 (64 - (n + 1))).toNat = 63 - n := by
      rw [BitVec.toNat_ofNat, Nat.mod_eq_of_lt (by omega)]
      omega
    have following : 64 - (n + 1) + 1 = 64 - n := by omega
    let s1 := setWork (fun w => { w with k := BitVec.ofNat 6 (64 - (n + 1)) }) s
    have at1 : AtComponent s1 k p := ⟨h.sel, h.pred⟩
    have atPosition : Reads s.work.ci.toNat 0 s s1 := reads_write _ s.blk ⟨rfl, rfl, rfl⟩
    rw [decodeAcFrom, modify_bind_run, following, refAc_succ]
    refine .after atPosition (.of_read (fetchElement_read at1 .ac) h.pred
      (fun e t hrun => bind_error hrun) fun m size acc hrun => ?_)
    rw [bind_ok hrun]
    refine .after (reads_storeSize _ size _) ?_
    by_cases heob : size = 0
    · subst heob
      exact .done 0 _ (reads_refl _ _) rfl h.pred rfl
    · rw [if_neg heob, if_neg heob]
      refine .of_read (elementValue_read size _) h.pred (fun e t hrun => bind_error (acBody_error hrun))
        fun m' v acc' hrun => ?_
      let s2 := afterBits m' acc' (storeSize size (afterBits m acc s1))
      have at2 : AtComponent s2 k p := ((at1.afterBits m acc).storeSize size).afterBits m' acc'
      have here : s2.work.k.toNat = 63 - n := position
      have stored := acBody_ok (t := s2) hrun
      rw [here] at stored
      rw [bind_ok stored]
      have rest := ih (Nat.le_of_succ_le hn) (at2.setBlk (zz (63 - n)) v)
      exact rest.after (reads_setBlk _ (zz (63 - n)) v s2)

/-! ### DECODE_BLOCK (R123) -/

/-- DECODE_BLOCK: the DC element over the cleared block, then the AC elements with the difference as the predictor. -/
theorem decodeBlock_end (h : AtComponent s k p) :
    BlockEnd s.work.ci.toNat s (refBlock (treeOf s.ctx.ht .dc k.dc) (treeOf s.ctx.ht .ac k.ac) p (bitsLeft s))
      (decodeBlock.run s) := by
  let s1 : State := { s with blk := tabFill _ 0 }
  have at1 : AtComponent s1 k p := ⟨h.sel, h.pred⟩
  have cleared : Reads s.work.ci.toNat 0 s s1 := reads_write _ (tabFill _ 0) ⟨rfl, rfl, rfl⟩
  rw [decodeBlock, modify_bind_run, decodeDc, bind_assoc_run, refBlock_eq]
  refine .after cleared (.of_read (fetchElement_read at1 .dc) h.pred
    (fun e t hrun => bind_error hrun) fun m size acc hrun => ?_)
  rw [bind_ok hrun]
  refine .after (reads_storeSize _ size _) (.of_read (elementValue_read size _) h.pred
    (fun e t hrun => bind_error (dcBody_error h.ci_lt hrun)) fun m' diff acc' hrun => ?_)
  let s2 := afterBits m' acc' (storeSize size (afterBits m acc s1))
  have at2 : AtComponent s2 k p := ((at1.afterBits m acc).storeSize size).afterBits m' acc'
  have stored := dcBody_ok (s := afterBits m acc s1) (t := s2) h.ci_lt hrun
  rw [show (afterBits m acc s1).work.ci = s2.work.ci from rfl, at2.pred] at stored
  rw [bind_ok stored]
  have rest := decodeAcFrom_end (Nat.le_refl 63) (at2.storeDifference diff)
  exact rest.after (reads_storeDifference _ p diff s2)

/-- A state that a block's reads lead to is determined by the block, the predictor and the working registers. -/
theorem Reads.eq_decoded (h : Reads c m s t) (hp : tabGet t.ctx.pred c = some p) :
    SameBlock s.work t.work ∧ t = decoded c t.blk p m t.work s := by
  have hc := lt_of_tabGet hp
  cases h with
  | intro blk p' w _ same =>
    rw [decoded, tabGet_set_self _ _ hc] at hp
    cases hp
    exact ⟨same, rfl⟩

/-- Settles O44: each read of the block answers and faults as the reference reading does, and the rest is read from the
bits after it. -/
theorem decodeBlockReadsOneCodedBlock : Obligations.DecodeBlockReadsOneCodedBlock := by
  intro s k p c n hk hp b
  have whole : BlockEnd c s b (decodeBlock.run s) := decodeBlock_end ⟨hk, hp⟩
  generalize hrun : decodeBlock.run s = run at whole
  cases whole with
  | done m t read blk pred bits =>
    obtain ⟨same, ht⟩ := read.eq_decoded pred
    have count : n - ((bitsLeft s).drop m).length = m := by rw [List.length_drop, Nat.sub_sub_self read.inside]
    have left := read.bitsLeft
    refine ⟨t.work, same.ci, same.bx, same.row, ?_⟩
    rw [blk] at ht
    simp only [bits, count]
    exact ⟨congrArg (EStateM.Result.ok ()) ht, (congrArg bitsLeft ht).symm.trans left⟩
  | fault m t kind reason read blk pred bits =>
    obtain ⟨same, ht⟩ := read.eq_decoded pred
    have count : n - ((bitsLeft s).length - m) = m := Nat.sub_sub_self read.inside
    refine ⟨t.work, same.ci, same.bx, same.row, ?_⟩
    rw [blk] at ht
    simp only [bits, count]
    exact congrArg (fun u => EStateM.Result.error (α := Unit) Stop.raised
      (errorState kind reason (s.bitOff.toNat + m) u)) ht

end Sys2Proof.Machine
end

section
/-!
START and FETCH (43_segment_scanner.md R140, R141, R151): what a step does that takes the command, and what a step of
the running core makes of the bytes at `CUR`.
-/
namespace Sys2Proof.Machine

variable {s : State}

/-! ### START (R140) -/

/-- A pending START is taken before anything else. -/
theorem step_start (h : s.startReq = true) : step s = .next (takeStart s) := by
  unfold step nextAct
  rw [if_pos h]

theorem startsWithSoi_iff : startsWithSoi s = true ↔ 2 ≤ s.inLen.toNat ∧ inAt s 0 = 0xFF ∧ inAt s 1 = 0xD8 := by
  simp [startsWithSoi, and_assoc]

/-- The state of a fresh decode, before START looks at the stream: what R140 clears is cleared. -/
def freshDecode (s : State) : State := setRun .run (setCur 0 (startClear { s with startReq := false }))

theorem takeStart_soi (hrun : s.run ≠ .run) (h : startsWithSoi s = true) : takeStart s = setCur 2 (freshDecode s) := by
  rw [takeStart_halted hrun, if_pos h, freshDecode]

theorem takeStart_noSoi (hrun : s.run ≠ .run) (h : ¬ startsWithSoi s = true) :
    takeStart s = faultEntry .startNotSoi 0 (freshDecode s) := by
  rw [takeStart_halted hrun, if_neg h, freshDecode]

/-- Settles O4: the stream begins with SOI, which START executes on the fresh decode. -/
theorem startOnSoiBeginsARun : Obligations.StartOnSoiBeginsARun := by
  intro s hreq hrun hlen h0 h1
  rw [step_start hreq, takeStart_soi hrun (startsWithSoi_iff.2 ⟨hlen, h0, h1⟩)]
  rfl

/-- Settles O5: each of the three conditions denies SOI, and fault entry on the fresh decode has nothing to release. -/
theorem startWithoutSoiIsInvalidStart : Obligations.StartWithoutSoiIsInvalidStart := by
  intro s hreq hrun hbad
  have noSoi : ¬ startsWithSoi s = true := by
    rw [startsWithSoi_iff]
    rintro ⟨hlen, h0, h1⟩
    rcases hbad with h | h | h
    · omega
    · exact h h0
    · exact h h1
  rw [step_start hreq, takeStart_noSoi hrun noSoi]
  rfl

/-- Settles O6: a halted core has nothing to execute, and a running core only drops the command. -/
theorem stepsThatExecuteNothing : Obligations.StepsThatExecuteNothing := by
  refine fun s => ⟨step_halted, fun hrun hreq => ?_⟩
  rw [step_start hreq, takeStart_run hrun]

/-- Two fresh decodes of one input differ in the scan buffer's bytes, the block scratch and the working registers. -/
theorem freshDecode_eq {u : State} (hbuf : s.inBuf = u.inBuf) (hlen : s.inLen = u.inLen) :
    freshDecode s = { freshDecode u with scan := s.scan, blk := s.blk, work := s.work } := by
  simp [freshDecode, startClear, setRun, setCur, contextReset, hbuf, hlen]

/-- The test for SOI reads the input alone. -/
theorem startsWithSoi_congr {u : State} (hbuf : s.inBuf = u.inBuf) (hlen : s.inLen = u.inLen) :
    startsWithSoi s = startsWithSoi u := by
  rw [startsWithSoi, inAt_congr hbuf, inAt_congr hbuf, hlen, ← startsWithSoi]

/-- Settles O60: whether SOI is there depends on the input, and either way START goes on from the fresh decode. -/
theorem startForgetsTheEarlierDecode : Obligations.StartForgetsTheEarlierDecode := by
  intro s u hbuf hlen hs hu hsreq hureq
  refine ⟨_, _, step_start hsreq, step_start hureq, ?_⟩
  have same := startsWithSoi_congr hbuf hlen
  by_cases h : startsWithSoi s = true
  · rw [takeStart_soi hs h, takeStart_soi hu (same ▸ h), freshDecode_eq hbuf hlen]
    rfl
  · rw [takeStart_noSoi hs h, takeStart_noSoi hu (same ▸ h), freshDecode_eq hbuf hlen]
    rfl

/-! ### FETCH (R141) -/

/-- A running core decodes the bytes at `CUR`: it executes what they are, or raises at the first that is missing. -/
theorem step_run (hrun : s.run = .run) (hreq : s.startReq = false) :
    step s = match decode (inWindow s 4 s.cur.toNat) with
      | .ok (i, _) => exec i s
      | .error e => .next (faultEntry .inRead (s.cur.toNat + e.offset) s) := by
  unfold step nextAct
  rw [if_neg (by simp [hreq]), hrun]
  simp only [fetch_run]
  cases decode (inWindow s 4 s.cur.toNat) <;> rfl

theorem step_fetched {i : Instr} {rest : List Byte} (hrun : s.run = .run) (hreq : s.startReq = false)
    (h : decode (inWindow s 4 s.cur.toNat) = .ok (i, rest)) : step s = exec i s := by
  rw [step_run hrun hreq, h]

theorem step_truncated {e : DecodeError} (hrun : s.run = .run) (hreq : s.startReq = false)
    (h : decode (inWindow s 4 s.cur.toNat) = .error e) :
    step s = .next (faultEntry .inRead (s.cur.toNat + e.offset) s) := by
  rw [step_run hrun hreq, h]

/-- Settles O3: FETCH answers what the bytes decode to, and leaves the state as it is. -/
theorem stepRunsTheDecodedInstruction : Obligations.StepRunsTheDecodedInstruction :=
  fun _ _ _ hrun hreq => step_fetched hrun hreq

/-- The window of a fetch that `IN` holds `k` bytes of, `k` at most 4. -/
theorem inWindow_of_length {a k : Nat} (hk : k ≤ 4) (h : s.inLen.toNat = a + k) :
    inWindow s 4 a = (List.range' a k).map (inAt s) := by
  rw [inWindow_eq_map_range', h, Nat.add_sub_cancel_left, Nat.min_eq_right hk]

/-- Settles O7: the window holds as many bytes as are left, and the decoder names the first that is missing. -/
theorem truncatedFetchFaults : Obligations.TruncatedFetchFaults := by
  intro s hrun hreq c
  refine ⟨fun h => ?noPrefix, fun h => ?noCode, fun h0 hsoi heoi => ⟨fun h => ?noLengthHigh, fun h => ?noLengthLow⟩⟩
  case noPrefix =>
    exact step_truncated (e := .noPrefix) hrun hreq (by rw [inWindow_eq_nil h]; rfl)
  case noCode =>
    exact step_truncated (e := .noCode) hrun hreq (by rw [inWindow_of_length (by decide) h]; rfl)
  case noLengthHigh =>
    refine step_truncated (e := .noLengthHigh) hrun hreq ?_
    rw [inWindow_of_length (by decide) h, ← decode_no_length hsoi heoi, ← h0]
    rfl
  case noLengthLow =>
    refine step_truncated (e := .noLengthLow) hrun hreq ?_
    rw [inWindow_of_length (by decide) h, ← decode_half_length hsoi heoi (inAt s (c + 2)), ← h0]
    rfl

end Sys2Proof.Machine
end

section
/-!
The markers without a parsed payload (43_segment_scanner.md R142, R147, R148; R141): what SOI, EOI, UNSUP and an illegal
marker position leave.
-/
namespace Sys2Proof.Machine

variable (s : State)

theorem exec_soi : exec .soi s = .next (setCur (s.cur.toNat + 2) s) := rfl

theorem exec_eoi : exec .eoi s = .next (setRun .done (setCur (s.cur.toNat + 2) (releaseTables s))) := rfl

theorem exec_unsup (code : Byte) (len : Half) :
    exec (.unsup code len) s = .next (setCur (s.cur.toNat + 2 + len.toNat) (warnUnsup code len s)) := rfl

theorem exec_badPrefix (b0 b1 : Byte) :
    exec (.badPrefix b0 b1) s = .next (faultEntry .markerPrefix s.cur.toNat s) := rfl

/-- Settles O23: the write of the cursor is all that SOI does. -/
theorem soiOnlyAdvances : Obligations.SoiOnlyAdvances := exec_soi

/-- Settles O24: the released tables are the four absent slots. -/
theorem eoiReleasesAndHalts : Obligations.EoiReleasesAndHalts :=
  fun s => ⟨.released, slotOf_released_valid, exec_eoi s⟩

/-- Settles O25: the warning is written first, and the advance after it. -/
theorem unsupWarnsAndSkips : Obligations.UnsupWarnsAndSkips := exec_unsup

/-- Settles O26: the fault is raised at `c`, with the numbers of R180 and R181. -/
theorem badPrefixTakesMarkerPrefix : Obligations.BadPrefixTakesMarkerPrefix := exec_badPrefix

end Sys2Proof.Machine
end

section
/-!
Progress of a run (43_segment_scanner.md R149, R151): every instruction moves the cursor forward inside `IN` or halts
the core, so a run ends.
-/
namespace Sys2Proof.Machine

variable {s t : State}

/-! ### How far an instruction moves the cursor -/

/-- A number below a register's width is stored as it is. -/
theorem toNat_setCur {a : Nat} (h : a < 2 ^ 33) (s : State) : (setCur a s).cur.toNat = a := by
  rw [setCur_cur, BitVec.toNat_ofNat, Nat.mod_eq_of_lt h]

/-- What a step of the running core leaves: a fault that keeps the cursor, or, where two bytes stood at the cursor, a
core that moved past them and still runs or was halted by EOI. -/
inductive Progressed (s t : State) : Prop where
  | faulted (hrun : t.run = .error) (hcur : t.cur = s.cur)
  | moved (hrun : t.run = .run ∨ t.run = .done) (hin : s.cur.toNat + 1 < s.inLen.toNat)
      (hcur : s.cur.toNat + 2 ≤ t.cur.toNat)

theorem Executed.progressed {i : Instr} (hrun : s.run = .run) (hin : s.cur.toNat + 1 < s.inLen.toNat)
    (h : Executed i s t) : Progressed s t := by
  have hcap := s.inLen.isLt
  cases h with
  | raised r pos u hu => exact .faulted rfl ((faultEntry_cur u r pos).trans (reach_cur hu))
  | advanced a u hu hlo hhi =>
    refine .moved (.inl ((setCur_run u a).trans ((reach_run hu).trans hrun))) hin ?_
    rw [toNat_setCur (by omega)]
    exact hlo
  | done hi => exact .moved (.inr rfl) hin (toNat_setCur (by omega) (releaseTables s)).ge

theorem step_progressed (hrun : s.run = .run) (hreq : s.startReq = false) (h : step s = .next t) :
    Progressed s t := by
  obtain ⟨u, hu, hst⟩ := step_cases s
  cases hu.symm.trans h
  cases hst with
  | start hstart => rw [hreq] at hstart; cases hstart
  | halted hn _ => exact absurd hrun hn
  | truncated pos _ _ => exact .faulted rfl rfl
  | executed i _ _ _ hin he => exact he.progressed hrun hin

/-- Settles O57: an advance stays below the width of `CUR`, and fault entry does not write it. -/
theorem cursorAdvancesOrStaysAtTheFault : Obligations.CursorAdvancesOrStaysAtTheFault := by
  intro s t hrun hreq h
  cases step_progressed hrun hreq h with
  | faulted herr hcur => exact .inl ⟨herr, hcur⟩
  | moved hstill _ hcur => exact .inr ⟨by rcases hstill with h | h <;> rw [h] <;> decide, hcur⟩

/-! ### The end of a run -/

/-- No part of a running step issues a START. -/
theorem noStart_runInvariant : RunInvariant fun s => s.startReq = false where
  dropStart _ _ := rfl
  update _ _ _ hs h := (reach_startReq (.single h)).trans hs
  cursor _ _ _ _ hs := hs
  fault _ _ _ _ hs := hs
  halt _ _ hs := hs

theorem run_core_succ (k : Nat) (h : step s = .next t) : core.run (k + 1) s = core.run k t := by
  have hstep : core.step s = .next t := h
  simp [Host.Core.run, hstep]

theorem run_core_halted (k : Nat) (hrun : s.run ≠ .run) (hreq : s.startReq = false) : core.run k s = .next s := by
  induction k with
  | zero => rfl
  | succ k ih => rw [run_core_succ k (step_halted hrun hreq), ih]

/-- A core that at most `2 * k + 1` bytes stand before halts within `k + 1` steps: where one byte is left there is no
marker pair, and each of the steps before it passed two. -/
theorem run_core_ends (k : Nat) (hrun : s.run = .run) (hreq : s.startReq = false)
    (hleft : s.inLen.toNat ≤ s.cur.toNat + 2 * k + 1) :
    ∃ t : State, core.run (k + 1) s = .next t ∧ (t.run = .done ∨ t.run = .error) := by
  induction k generalizing s with
  | zero =>
    obtain ⟨t, ht, -⟩ := step_cases s
    refine ⟨t, run_core_succ 0 ht, ?_⟩
    cases step_progressed hrun hreq ht with
    | faulted herr _ => exact .inr herr
    | moved _ hin _ => omega
  | succ k ih =>
    obtain ⟨t, ht, -⟩ := step_cases s
    have hnone : t.startReq = false := noStart_runInvariant.of_step hrun hreq ht
    have halts (h : t.run = .done ∨ t.run = .error) :
        ∃ u : State, core.run (k + 1 + 1) s = .next u ∧ (u.run = .done ∨ u.run = .error) := by
      refine ⟨t, ?_, h⟩
      rw [run_core_succ _ ht, run_core_halted _ (by rcases h with h | h <;> rw [h] <;> decide) hnone]
    cases step_progressed hrun hreq ht with
    | faulted herr _ => exact halts (.inr herr)
    | moved hstill _ hcur =>
      rcases hstill with hgoes | hdone
      · obtain ⟨-, hlen⟩ := noStepWritesTheInput s t ht
        rw [run_core_succ _ ht]
        exact ih hgoes hnone (by rw [hlen]; omega)
      · exact halts (.inl hdone)

/-- Settles O58: `IN` holds at most `2 * (IN_LEN / 2) + 1` bytes from any cursor on. -/
theorem everyRunEnds : Obligations.EveryRunEnds :=
  fun s hrun hreq => run_core_ends (s.inLen.toNat / 2) hrun hreq (by omega)

end Sys2Proof.Machine
end

section
/-!
The fields of a segment (43_segment_scanner.md; 20_memory.md R41, R42): a read that is followed by the rest of an
instruction, and a table that a loop fills entry by entry.
-/
namespace Sys2Proof.Machine

/-! ### A field, and what comes after it (R41, R42) -/

section
variable {α : Type} (r : Reason) (a : Nat) (s : State)

/-- A byte that is there goes to the rest of the program; otherwise the first byte missing is the byte itself. -/
theorem inByte_bind_run (p : Byte → Prog α) : (inByte r a >>= p).run s =
    if a < s.inLen.toNat then (p (inAt s a)).run s
    else .error .raised (faultEntry r (max s.inLen.toNat a) s) := by
  split
  · exact inByte_bind_ok ‹_›
  · rw [inByte_bind_stop (by omega), Nat.max_eq_right (by omega)]

/-- A field of two bytes goes on as a number; otherwise the first byte missing is where `IN` ends, if the field begins
before. -/
theorem inU16_bind_run (p : Half → Prog α) : (inU16 r a >>= p).run s =
    if a + 1 < s.inLen.toNat then
      (p (BitVec.ofNat 16 (256 * (inAt s a).toNat + (inAt s (a + 1)).toNat))).run s
    else .error .raised (faultEntry r (max s.inLen.toNat a) s) := by
  split
  · rw [inU16_bind_ok ‹_›, be16_eq]
  · by_cases second : s.inLen.toNat = a + 1
    · rw [bind_error (inU16_stop_second second), second, Nat.max_eq_left (by omega)]
    · rw [bind_error (inU16_stop_first (by omega)), Nat.max_eq_right (by omega)]

end

/-- A write to the context, and what comes after it. It is proved from the rule of a sequence, so that a proof rewrites
with it and does not run the program that comes after. -/
theorem setCtx_bind_run {α : Type} (f : DecodeContext → DecodeContext) (p : PUnit → Prog α) (s : State) :
    ((modify (setCtx f) : Prog PUnit) >>= p).run s = (p ()).run (setCtx f s) := bind_ok (modify_run _ s)

theorem setCtx_setCtx (f g : DecodeContext → DecodeContext) (s : State) :
    setCtx g (setCtx f s) = setCtx (fun x => g (f x)) s := rfl

/-! ### A table filled entry by entry -/

section
variable {α : Type} {n : Nat}

/-- The table after the first `m` values of `v` were stored, value `k` at index `place k`. -/
def storeFirst (t : Tab α n) (place : Nat → Nat) (v : Nat → α) : Nat → Tab α n
  | 0 => t
  | m + 1 => tabSet (storeFirst t place v m) (place m) (v m)

/-- A place that no two values share holds its value once that is stored, and until then what it held before. -/
theorem tabGet_storeFirst {t : Tab α n} {place : Nat → Nat} {v : Nat → α} {k m : Nat}
    (inside : ∀ i, i < m → place i < n) (apart : ∀ i, i < m → place i = place k → i = k) :
    tabGet (storeFirst t place v m) (place k) = if k < m then some (v k) else tabGet t (place k) := by
  induction m with
  | zero => rfl
  | succ m ih =>
    have before := ih (fun i hi => inside i (by omega)) (fun i hi => apart i (by omega))
    rw [storeFirst]
    by_cases last : m = k
    · subst last
      rw [tabGet_set_self _ _ (inside m (by omega)), if_pos (by omega)]
    · rw [tabGet_set_ne _ _ (fun same => last (apart m (by omega) same)), before]
      exact if_congr (by omega) rfl rfl

end

end Sys2Proof.Machine
end

section
/-!
APP0 (43_segment_scanner.md R143): one equation for the whole segment and for each of its cuts.
-/
namespace Sys2Proof.Machine

/-- The state once APP0 has reset the context and stored the fields that lie inside `IN` (R143, R187). -/
def jfifStored (s : State) : State :=
  let c := s.cur.toNat
  let n := s.inLen.toNat
  { s with
    ctx := { DecodeContext.empty with
      jfifVer := if c + 10 < n then BitVec.ofNat 16 (256 * (inAt s (c + 9)).toNat + (inAt s (c + 10)).toNat) else 0
      densUnits := if c + 11 < n then inAt s (c + 11) else 0
      xdens := if c + 13 < n then BitVec.ofNat 16 (256 * (inAt s (c + 12)).toNat + (inAt s (c + 13)).toNat) else 0
      ydens := if c + 15 < n then BitVec.ofNat 16 (256 * (inAt s (c + 14)).toNat + (inAt s (c + 15)).toNat) else 0 } }

/-- APP0 stores the fields that are there, and advances where all of them are. -/
theorem app0Body_run (len : Half) (s : State) : (app0Body len).run s =
    if s.cur.toNat + 15 < s.inLen.toNat then .ok () (setCur (s.cur.toNat + 2 + len.toNat) (jfifStored s))
    else .error .raised (faultEntry .inRead (max s.inLen.toNat (s.cur.toNat + 9)) (jfifStored s)) := by
  rw [app0Body, getCur_bind_run, modify_bind_run]
  simp only [offVersionMajor, offVersionMinor, offDensityUnits, offXDensity, offYDensity, inByte_bind_run,
    inU16_bind_run, setCtx_bind_run, advance_run, be16_eq, setCtx_inLen, contextReset_inLen, inAt_setCtx,
    inAt_contextReset, setCtx_setCtx, jfifStored]
  have cuts : s.inLen.toNat ≤ s.cur.toNat + 9 ∨ s.inLen.toNat = s.cur.toNat + 10 ∨
      s.inLen.toNat = s.cur.toNat + 11 ∨ (s.cur.toNat + 12 ≤ s.inLen.toNat ∧ s.inLen.toNat ≤ s.cur.toNat + 13) ∨
      (s.cur.toNat + 14 ≤ s.inLen.toNat ∧ s.inLen.toNat ≤ s.cur.toNat + 15) ∨ s.cur.toNat + 15 < s.inLen.toNat := by
    omega
  rcases cuts with noMajor | noMinor | noUnits | noX | noY | whole
  all_goals
    simp (disch := omega) only [if_pos, if_neg, Nat.max_eq_left]
    rfl

/-- Settles O27: every field is there. -/
theorem app0ResetsAndStoresJfif : Obligations.App0ResetsAndStoresJfif := by
  intro s len c whole
  refine (outcomeOf_ok ((app0Body_run len s).trans (if_pos whole))).trans ?_
  simp (disch := omega) only [jfifStored, if_pos]
  rfl

/-- Settles O28: the last field at least is not there. -/
theorem truncatedApp0KeepsItsPartialWrites : Obligations.TruncatedApp0KeepsItsPartialWrites := by
  intro s len c n cut
  refine (outcomeOf_raised ((app0Body_run len s).trans (if_neg (Nat.not_lt.2 cut)))).trans ?_
  rw [jfifStored, if_neg (c := s.cur.toNat + 15 < s.inLen.toNat) (Nat.not_lt.2 cut)]
  rfl

end Sys2Proof.Machine
end

section
/-!
DQT (43_segment_scanner.md R144; 42_coefficient_decoder.md R126): one entry, the table its loop fills, and the segment
whole and cut.
-/
namespace Sys2Proof.Machine

variable {s : State} {pq tq : BitVec 4} {c k m : Nat}

/-! ### One entry -/

/-- The bytes of an entry, by the precision nibble (R65). -/
def quantWidth (pq : BitVec 4) : Nat := if pq = 0 then 1 else 2

/-- Entry `k` of the DQT at `c` (R65, R144). -/
def quantValue (s : State) (pq : BitVec 4) (c k : Nat) : Half :=
  if pq = 0 then BitVec.ofNat 16 (inAt s (c + 5 + k)).toNat
  else BitVec.ofNat 16 (256 * (inAt s (c + 5 + 2 * k)).toNat + (inAt s (c + 6 + 2 * k)).toNat)

theorem quantWidth_cases (pq : BitVec 4) : (pq = 0 ∧ quantWidth pq = 1) ∨ (pq ≠ 0 ∧ quantWidth pq = 2) := by
  by_cases h : pq = 0
  · exact .inl ⟨h, if_pos h⟩
  · exact .inr ⟨h, if_neg h⟩

/-- An entry inside `IN` is read; of an entry that is cut, the first byte missing is where `IN` ends. -/
theorem quantEntry_bind_run {α : Type} (p : Half → Prog α)
    (before : c + 5 + quantWidth pq * k ≤ s.inLen.toNat) : (quantEntry pq c k >>= p).run s =
      if c + 5 + quantWidth pq * (k + 1) ≤ s.inLen.toNat then (p (quantValue s pq c k)).run s
      else .error .raised (faultEntry .inRead s.inLen.toNat s) := by
  rcases quantWidth_cases pq with ⟨hpq, hw⟩ | ⟨hpq, hw⟩ <;> rw [hw] at before ⊢
  · have place : c + offQuant8 k = c + 5 + k := by unfold offQuant8; omega
    rw [quantEntry, if_pos hpq, bind_assoc_run, inByte_bind_run, place, Nat.max_eq_left (by omega), pure_bind_run,
      quantValue, if_pos hpq, BitVec.ofNat_toNat]
    exact if_congr (by omega) rfl rfl
  · have place : c + offQuant16 k = c + 5 + 2 * k := by unfold offQuant16; omega
    have second : c + 5 + 2 * k + 1 = c + 6 + 2 * k := by omega
    rw [quantEntry, if_neg hpq, inU16_bind_run, place, second, Nat.max_eq_left (by omega), quantValue, if_neg hpq]
    exact if_congr (by omega) rfl rfl

/-! ### The table -/

/-- The table that a selector nibble names (R144). -/
def quantTable (tq : BitVec 4) (x : DecodeContext) : Tab Half 64 := if tq = 0 then x.lqt else x.cqt

/-- The context with another table in that place. -/
def withQuantTable (tq : BitVec 4) (table : Tab Half 64) (x : DecodeContext) : DecodeContext :=
  if tq = 0 then { x with lqt := table } else { x with cqt := table }

theorem withQuantTable_self (tq : BitVec 4) (x : DecodeContext) : withQuantTable tq (quantTable tq x) x = x := by
  unfold withQuantTable quantTable
  split <;> rfl

theorem quantTable_withQuantTable (tq : BitVec 4) (table : Tab Half 64) (x : DecodeContext) :
    quantTable tq (withQuantTable tq table x) = table := by
  unfold withQuantTable quantTable
  split <;> rfl

theorem withQuantTable_withQuantTable (tq : BitVec 4) (table table' : Tab Half 64) (x : DecodeContext) :
    withQuantTable tq table (withQuantTable tq table' x) = withQuantTable tq table x := by
  unfold withQuantTable
  split <;> rfl

/-- An entry is a write to the table that the selector names. -/
theorem setQuant_eq (tq : BitVec 4) (n : Nat) (q : Half) :
    setQuant tq n q = setCtx fun x => withQuantTable tq (tabSet (quantTable tq x) n q) x := by
  funext s
  by_cases h : tq = 0
  · subst h
    rfl
  · simp only [setQuant, setCtx, quantTable, withQuantTable, if_neg h]

theorem setQuant_withQuantTable (table : Tab Half 64) (n : Nat) (q : Half) (s : State) :
    setQuant tq n q (setCtx (withQuantTable tq table) s) = setCtx (withQuantTable tq (tabSet table n q)) s := by
  simp only [setQuant_eq, setCtx_setCtx, quantTable_withQuantTable, withQuantTable_withQuantTable]

/-- The table that a DQT with these nibbles at `c` makes of its first `m` entries (R126). -/
def quantFilled (s : State) (pq tq : BitVec 4) (c m : Nat) : Tab Half 64 :=
  storeFirst (quantTable tq s.ctx) zz (quantValue s pq c) m

/-- The first `m` entries stand at their natural indices, and nothing else is written. -/
theorem tabGet_quantFilled (hm : m ≤ 64) (hk : k < 64) : tabGet (quantFilled s pq tq c m) (zz k) =
    if k < m then some (quantValue s pq c k) else tabGet (quantTable tq s.ctx) (zz k) := by
  refine tabGet_storeFirst (fun i hi => zz_lt (by omega)) fun i hi same => ?_
  rw [← zzInv_zz (show i < 64 by omega), same, zzInv_zz hk]

/-- The state after the first `m` entries. -/
def quantStored (s : State) (pq tq : BitVec 4) (c m : Nat) : State :=
  setCtx (withQuantTable tq (quantFilled s pq tq c m)) s

theorem quantStored_zero (s : State) (pq tq : BitVec 4) (c : Nat) : quantStored s pq tq c 0 = s := by
  rw [quantStored, setCtx, quantFilled, storeFirst, withQuantTable_self]

/-- One round of DQT's loop (R144). -/
def quantRound (pq tq : BitVec 4) (c k : Nat) : Prog Unit := do
  let q ← quantEntry pq c k
  modify (setQuant tq (zz k) q)

theorem quantRound_run (before : c + 5 + quantWidth pq * m ≤ s.inLen.toNat) :
    (quantRound pq tq c m).run (quantStored s pq tq c m) =
      if c + 5 + quantWidth pq * (m + 1) ≤ s.inLen.toNat then .ok () (quantStored s pq tq c (m + 1))
      else .error .raised (faultEntry .inRead s.inLen.toNat (quantStored s pq tq c m)) := by
  refine (quantEntry_bind_run (s := quantStored s pq tq c m) _ before).trans (if_congr Iff.rfl ?_ rfl)
  rw [modify_run, quantStored, setQuant_withQuantTable]
  rfl

/-- A round whose entry ends no later than an entry inside `IN` stores it. -/
theorem quantRound_ok (h : c + 5 + quantWidth pq * m ≤ s.inLen.toNat) (hk : k < m) :
    (quantRound pq tq c (0 + k)).run (quantStored s pq tq c k) = .ok () (quantStored s pq tq c (k + 1)) := by
  have here := Nat.mul_le_mul_left (quantWidth pq) (Nat.le_of_lt hk)
  have next := Nat.mul_le_mul_left (quantWidth pq) (show k + 1 ≤ m from hk)
  rw [Nat.zero_add, quantRound_run (by omega), if_pos (by omega)]

theorem quantLoop_whole (h : c + 5 + quantWidth pq * 64 ≤ s.inLen.toNat) :
    (forRange 64 0 (quantRound pq tq c)).run s = .ok () (quantStored s pq tq c 64) := by
  have loop := forRange_ok (g := quantStored s pq tq c) 64 0 fun k hk => quantRound_ok h hk
  rwa [quantStored_zero] at loop

/-- The loop stops at the entry that is cut, with the `m` entries before it stored. -/
theorem quantLoop_cut (hm : m < 64) (h : c + 5 + quantWidth pq * m ≤ s.inLen.toNat)
    (cut : s.inLen.toNat < c + 5 + quantWidth pq * (m + 1)) :
    (forRange 64 0 (quantRound pq tq c)).run s =
      .error .raised (faultEntry .inRead s.inLen.toNat (quantStored s pq tq c m)) := by
  have stop := (quantRound_run (tq := tq) h).trans (if_neg (Nat.not_le.2 cut))
  have loop := forRange_error (g := quantStored s pq tq c) 64 0 m hm (fun k hk => quantRound_ok h hk)
    (by rwa [Nat.zero_add])
  rwa [quantStored_zero] at loop

/-! ### The segment -/

theorem dqtBody_no_header (len : Half) (h : s.inLen.toNat ≤ s.cur.toNat + 4) :
    (dqtBody len).run s = .error .raised (faultEntry .inRead (s.cur.toNat + 4) s) := by
  rw [dqtBody, getCur_bind_run, offHeader, inByte_bind_stop h]

/-- With its header byte there, DQT tests the precision and then fills the table. -/
theorem dqtBody_run (len : Half) (header : s.cur.toNat + 4 < s.inLen.toNat) :
    (dqtBody len).run s =
      if 1 < hiNibble (inAt s (s.cur.toNat + 4)) then
        .error .raised (faultEntry .dqtPrecision (s.cur.toNat + 4) s)
      else (forRange 64 0 (quantRound (hiNibble (inAt s (s.cur.toNat + 4))) (loNibble (inAt s (s.cur.toNat + 4)))
        s.cur.toNat) >>= fun _ => advance s.cur.toNat len).run s := by
  rw [dqtBody, getCur_bind_run, offHeader, inByte_bind_ok header]
  split <;> rfl

/-- What is stored is a write to the table that the selector names, and to nothing else. -/
theorem quantStored_eq (s : State) (pq tq : BitVec 4) (c m : Nat) : quantStored s pq tq c m =
    { s with
      ctx := if tq = 0 then { s.ctx with lqt := quantFilled s pq tq c m }
        else { s.ctx with cqt := quantFilled s pq tq c m } } := rfl

/-- Settles O29: both precisions fill the whole table. -/
theorem dqtStoresDeZigZagged : Obligations.DqtStoresDeZigZagged := by
  intro s len c pq tq h
  have whole : c + 5 + quantWidth pq * 64 ≤ s.inLen.toNat := by
    rcases h with ⟨hpq, h⟩ | ⟨hpq, h⟩ <;> rw [hpq] <;> exact h
  have precise : ¬ 1 < pq := by
    rcases h with ⟨hpq, -⟩ | ⟨hpq, -⟩ <;> rw [hpq] <;> decide
  refine ⟨quantFilled s pq tq c 64, fun k hk => ?entries, ?run⟩
  case entries => rw [tabGet_quantFilled (Nat.le_refl 64) hk, if_pos hk, quantValue]
  case run =>
    refine outcomeOf_ok ?_
    rw [dqtBody_run len (by omega), if_neg precise, bind_ok (quantLoop_whole whole), advance_run, quantStored_eq]
    rfl

/-- Settles O30: the precision is tested before the loop. -/
theorem dqtPrecisionAboveOneFaults : Obligations.DqtPrecisionAboveOneFaults :=
  fun _ len header above => outcomeOf_raised ((dqtBody_run len header).trans (if_pos above))

/-- The entries that lie inside `IN` are those before the one that is cut. -/
theorem quantEntry_inside_iff {n : Nat} (h : c + 5 + quantWidth pq * m ≤ n)
    (cut : n < c + 5 + quantWidth pq * (m + 1)) : c + 5 + quantWidth pq * (k + 1) ≤ n ↔ k < m := by
  rcases quantWidth_cases pq with ⟨-, hw⟩ | ⟨-, hw⟩ <;> rw [hw] at h cut ⊢ <;> omega

/-- Settles O31: the header byte is missing, or the entry at which `IN` ends stops the loop. -/
theorem truncatedDqtKeepsItsPartialWrites : Obligations.TruncatedDqtKeepsItsPartialWrites := by
  intro s len c n pq tq width old
  refine ⟨fun h => outcomeOf_raised (dqtBody_no_header len h), fun hpq header cut => ?_⟩
  have precise : ¬ 1 < pq := BitVec.not_lt.2 hpq
  obtain ⟨m, hm, h, hcut⟩ : ∃ m, m < 64 ∧ c + 5 + quantWidth pq * m ≤ n ∧ n < c + 5 + quantWidth pq * (m + 1) := by
    refine ⟨(n - (c + 5)) / quantWidth pq, ?_⟩
    change n < c + 5 + 64 * quantWidth pq at cut
    rcases quantWidth_cases pq with ⟨-, hw⟩ | ⟨-, hw⟩ <;> rw [hw] at cut ⊢ <;> omega
  refine ⟨quantFilled s pq tq c m, fun k hk => ?entries, ?run⟩
  case entries =>
    rw [tabGet_quantFilled (Nat.le_of_lt hm) hk]
    exact if_congr (quantEntry_inside_iff h hcut).symm rfl rfl
  case run =>
    refine outcomeOf_raised ?_
    rw [dqtBody_run len header, if_neg precise, bind_error (quantLoop_cut hm h hcut), quantStored_eq]
    rfl

end Sys2Proof.Machine
end

section
/-!
SOF0 (43_segment_scanner.md R145): the frame fields, the warning, the component triples, and the segment whole and cut.
-/
namespace Sys2Proof.Machine

variable {s : State} {c i m : Nat} {nf : Byte}

/-! ### The frame fields and the count (R66) -/

/-- The state once SOF0 has stored the frame fields that lie inside `IN` (R145, R187). -/
def frameStored (s : State) : State :=
  let c := s.cur.toNat
  let n := s.inLen.toNat
  { s with
    ctx := { s.ctx with
      bps := if c + 4 < n then inAt s (c + 4) else s.ctx.bps
      height := if c + 6 < n then BitVec.ofNat 16 (256 * (inAt s (c + 5)).toNat + (inAt s (c + 6)).toNat)
        else s.ctx.height
      width := if c + 8 < n then BitVec.ofNat 16 (256 * (inAt s (c + 7)).toNat + (inAt s (c + 8)).toNat)
        else s.ctx.width } }

/-- What SOF0 does once it has read the count of components (R145). -/
def componentsBody (c : Nat) (nf : Byte) (len : Half) : Prog Unit := do
  warnOddCount nf
  forRange nf.toNat 0 (storeComponent c)
  clearComponentsFrom nf.toNat
  modify (setCtx fun x => { x with ncomp := nf })
  advance c len

/-- The first dimension field is the height and the second the width (R6, C6). -/
theorem setDim_first (v : Half) : setDim sofDimOrder true v = setCtx fun x => { x with height := v } := rfl

theorem setDim_second (v : Half) : setDim sofDimOrder false v = setCtx fun x => { x with width := v } := rfl

/-- SOF0 stores the frame fields that are there, and goes on to the components where the count is. -/
theorem sof0Body_run (len : Half) (s : State) : (sof0Body len).run s =
    if s.cur.toNat + 9 < s.inLen.toNat then
      (componentsBody s.cur.toNat (inAt s (s.cur.toNat + 9)) len).run (frameStored s)
    else .error .raised (faultEntry .inRead (max s.inLen.toNat (s.cur.toNat + 4)) (frameStored s)) := by
  rw [sof0Body, getCur_bind_run]
  simp only [offHeader, offDim1, offDim2, offCompCount, setDim_first, setDim_second, inByte_bind_run,
    inU16_bind_run, setCtx_bind_run, setCtx_inLen, inAt_setCtx, setCtx_setCtx, frameStored]
  have cuts : s.inLen.toNat ≤ s.cur.toNat + 4 ∨ (s.cur.toNat + 5 ≤ s.inLen.toNat ∧ s.inLen.toNat ≤ s.cur.toNat + 6) ∨
      (s.cur.toNat + 7 ≤ s.inLen.toNat ∧ s.inLen.toNat ≤ s.cur.toNat + 8) ∨ s.inLen.toNat = s.cur.toNat + 9 ∨
      s.cur.toNat + 9 < s.inLen.toNat := by
    omega
  rcases cuts with noPrecision | noHeight | noWidth | noCount | whole <;>
    simp (disch := omega) only [if_pos, if_neg, Nat.max_eq_left]
  all_goals rfl

/-! ### The warning (R186) -/

/-- The state after the warning that a count of components gives, if it gives one. -/
def warnedCount (nf : Byte) (s : State) : State := if oddCompCount nf then warnNcomp nf s else s

theorem warnOddCount_run (nf : Byte) (s : State) : (warnOddCount nf).run s = .ok () (warnedCount nf s) := by
  unfold warnOddCount warnedCount
  split <;> rfl

/-- A warning sets the flag and appends a record; without one both are as they were. -/
theorem warnedCount_eq (nf : Byte) (s : State) : warnedCount nf s =
    { s with
      wNcomp := s.wNcomp || (decide (nf ≠ 1) && decide (nf ≠ 3))
      out := if nf ≠ 1 ∧ nf ≠ 3 then s.out ++ [.warn 6 s.cur nf 0] else s.out } := by
  have odd : oddCompCount nf = true ↔ nf ≠ 1 ∧ nf ≠ 3 := by simp [oddCompCount]
  have flag : (decide (nf ≠ 1) && decide (nf ≠ 3)) = oddCompCount nf := by
    rw [Bool.eq_iff_iff, odd, Bool.and_eq_true, decide_eq_true_iff, decide_eq_true_iff]
  rw [flag, warnedCount]
  by_cases h : oddCompCount nf = true
  · rw [if_pos h, if_pos (odd.1 h), h, Bool.or_true]
    rfl
  · rw [if_neg h, if_neg (h ∘ odd.2), Bool.eq_false_of_not_eq_true h, Bool.or_false]

/-! ### The component triples -/

/-- The component that triple `i` of the SOF0 at `c` describes (R66). -/
def triple (s : State) (c i : Nat) : Component :=
  ⟨inAt s (c + 12 + 3 * i), loNibble (inAt s (c + 11 + 3 * i)), hiNibble (inAt s (c + 11 + 3 * i))⟩

/-- The component table after the first `m` triples. -/
def componentsFilled (s : State) (c m : Nat) : Tab Component Config.maxComp :=
  storeFirst s.ctx.comp (fun i => i) (triple s c) m

theorem tabGet_componentsFilled (hm : m ≤ 255) : tabGet (componentsFilled s c m) i =
    if i < m then some (triple s c i) else tabGet s.ctx.comp i :=
  tabGet_storeFirst (k := i) (fun j hj => by show j < 255; omega) fun _ _ same => same

/-- The state after the first `m` triples. -/
def componentsStored (s : State) (c m : Nat) : State :=
  setCtx (fun x => { x with comp := componentsFilled s c m }) s

/-- A triple inside `IN` is stored; of one that is cut, the first byte missing is where `IN` ends. -/
theorem storeComponent_run (before : c + 10 + 3 * m ≤ s.inLen.toNat) :
    (storeComponent c m).run (componentsStored s c m) =
      if c + 10 + 3 * (m + 1) ≤ s.inLen.toNat then .ok () (componentsStored s c (m + 1))
      else .error .raised (faultEntry .inRead s.inLen.toNat (componentsStored s c m)) := by
  have hlen : (componentsStored s c m).inLen = s.inLen := rfl
  have hid : c + offCompId m = c + 10 + 3 * m := by unfold offCompId; omega
  have hhv : c + offCompHV m = c + 11 + 3 * m := by unfold offCompHV; omega
  have htq : c + offCompTq m = c + 12 + 3 * m := by unfold offCompTq; omega
  simp only [storeComponent, inByte_bind_run, hlen, hid, hhv, htq]
  have cuts : s.inLen.toNat = c + 10 + 3 * m ∨ s.inLen.toNat = c + 11 + 3 * m ∨ s.inLen.toNat = c + 12 + 3 * m ∨
      c + 10 + 3 * (m + 1) ≤ s.inLen.toNat := by
    omega
  rcases cuts with noId | noHv | noTq | whole <;>
    simp (disch := omega) only [if_pos, if_neg, Nat.max_eq_left]
  rfl

theorem storeComponent_ok (h : c + 10 + 3 * m ≤ s.inLen.toNat) (hi : i < m) :
    (storeComponent c (0 + i)).run (componentsStored s c i) = .ok () (componentsStored s c (i + 1)) := by
  rw [Nat.zero_add, storeComponent_run (by omega), if_pos (by omega)]

theorem componentLoop_whole (h : c + 10 + 3 * m ≤ s.inLen.toNat) :
    (forRange m 0 (storeComponent c)).run s = .ok () (componentsStored s c m) :=
  forRange_ok (g := componentsStored s c) m 0 fun _ hi => storeComponent_ok h hi

/-- The loop stops at the triple that is cut, with the `m` triples before it stored. -/
theorem componentLoop_cut {count : Nat} (hm : m < count) (h : c + 10 + 3 * m ≤ s.inLen.toNat)
    (cut : s.inLen.toNat < c + 10 + 3 * (m + 1)) :
    (forRange count 0 (storeComponent c)).run s =
      .error .raised (faultEntry .inRead s.inLen.toNat (componentsStored s c m)) :=
  forRange_error (g := componentsStored s c) count 0 m hm (fun _ hi => storeComponent_ok h hi)
    (by rw [Nat.zero_add, storeComponent_run h, if_neg (Nat.not_le.2 cut)])

/-! ### The segment -/

/-- The components of a frame that is whole: every triple stored, the entries beyond them cleared, the count written. -/
def componentsWhole (c : Nat) (nf : Byte) (s : State) : State :=
  setCtx (fun x => { x with comp := tabFillFrom (componentsFilled s c nf.toNat) nf.toNat ⟨0, 0, 0⟩, ncomp := nf }) s

theorem componentsBody_whole (len : Half) (h : c + 10 + 3 * nf.toNat ≤ s.inLen.toNat) :
    (componentsBody c nf len).run s =
      .ok () (setCur (c + 2 + len.toNat) (componentsWhole c nf (warnedCount nf s))) := by
  have hlen : (warnedCount nf s).inLen = s.inLen := by rw [warnedCount_eq]
  rw [componentsBody, bind_ok (warnOddCount_run nf s), bind_ok (componentLoop_whole (by rwa [hlen])),
    clearComponentsFrom, modify_bind_run, modify_bind_run, advance_run, componentsStored, setCtx_setCtx, setCtx_setCtx]
  rfl

theorem componentsBody_cut (len : Half) (hm : m < nf.toNat) (h : c + 10 + 3 * m ≤ s.inLen.toNat)
    (cut : s.inLen.toNat < c + 10 + 3 * (m + 1)) :
    (componentsBody c nf len).run s =
      .error .raised (faultEntry .inRead s.inLen.toNat (componentsStored (warnedCount nf s) c m)) := by
  have hlen : (warnedCount nf s).inLen = s.inLen := by rw [warnedCount_eq]
  rw [componentsBody, bind_ok (warnOddCount_run nf s),
    bind_error (componentLoop_cut hm (by rwa [hlen]) (by rwa [hlen])), hlen]

/-- The entries of a whole component table: the triples, and zeros beyond them. -/
theorem tabGet_componentsWhole (hi : i < 255) :
    tabGet (tabFillFrom (componentsFilled s c nf.toNat) nf.toNat ⟨0, 0, 0⟩) i =
      some (if i < nf.toNat then triple s c i else ⟨0, 0, 0⟩) := by
  rw [tabGet_fillFrom, if_pos hi, tabGet_componentsFilled (by omega)]
  split <;> rfl

/-- Settles O32: the frame fields, then the warning, then the triples; where `IN` ends decides how far it goes. -/
theorem sof0StoresTheFrame : Obligations.Sof0StoresTheFrame := by
  intro s len c n height width nf triple' warned
  have frame : c + 9 < n → frameStored s =
      { s with ctx := { s.ctx with bps := inAt s (c + 4), height := height, width := width } } := by
    intro h
    simp (disch := omega) only [frameStored, if_pos]
    rfl
  refine ⟨fun whole => ?whole, fun cut => ?noCount, fun count cut => ?cutTriple⟩
  case whole =>
    refine ⟨tabFillFrom (componentsFilled s c nf.toNat) nf.toNat ⟨0, 0, 0⟩, fun i hi => ?_, fun i hi hlt => ?_, ?_⟩
    · rw [tabGet_componentsWhole (by have := nf.isLt; omega), if_pos hi]
      rfl
    · rw [tabGet_componentsWhole hlt, if_neg (by omega)]
    · refine outcomeOf_ok ((sof0Body_run len s).trans ((if_pos (by omega)).trans
        ((componentsBody_whole (s := frameStored s) len whole).trans ?_)))
      rw [frame (by omega), warnedCount_eq]
      rfl
  case noCount => exact outcomeOf_raised ((sof0Body_run len s).trans (if_neg (Nat.not_lt.2 cut)))
  case cutTriple =>
    obtain ⟨m, hm, h, hcut⟩ : ∃ m, m < nf.toNat ∧ c + 10 + 3 * m ≤ n ∧ n < c + 10 + 3 * (m + 1) :=
      ⟨(n - (c + 10)) / 3, by omega, by omega, by omega⟩
    refine ⟨componentsFilled s c m, fun i => ?_, ?_⟩
    · rw [tabGet_componentsFilled (by have := nf.isLt; omega)]
      exact if_congr (by omega) rfl rfl
    · refine (outcomeOf_raised ((sof0Body_run len s).trans ((if_pos count).trans
        (componentsBody_cut (s := frameStored s) len hm h hcut)))).trans ?_
      rw [frame count, warnedCount_eq]
      rfl

end Sys2Proof.Machine
end

section
/-!
DHT (43_segment_scanner.md R146; 41_huffman_table.md R102): the key, the counts, the overrun test, and the build.
-/
namespace Sys2Proof.Machine

variable {s : State}

/-! ### The counts (R67) -/

/-- Counts inside `IN` are read in their order. -/
theorem readCounts_ok {c n len : Nat} (h : c + 4 + len + n ≤ s.inLen.toNat) :
    (readCounts c n len).run s = .ok ((List.range' len n).map fun l => (inAt s (c + 4 + l)).toNat) s := by
  induction n generalizing len with
  | zero => rfl
  | succ n ih =>
    have place : c + offCount len = c + 4 + len := by unfold offCount; omega
    rw [readCounts, place, inByte_bind_ok (by omega), bind_ok (ih (by omega)), pure_run, List.range'_succ,
      List.map_cons]

/-- Of counts that `IN` does not hold, the first byte missing is where it ends. -/
theorem readCounts_stop {c n len : Nat} (h : c + 4 + len ≤ s.inLen.toNat) (cut : s.inLen.toNat < c + 4 + len + n) :
    (readCounts c n len).run s = .error .raised (faultEntry .inRead s.inLen.toNat s) := by
  induction n generalizing len with
  | zero => omega
  | succ n ih =>
    have place : c + offCount len = c + 4 + len := by unfold offCount; omega
    rw [readCounts, place]
    by_cases here : s.inLen.toNat = c + 4 + len
    · rw [inByte_bind_stop (by omega), here]
    · rw [inByte_bind_ok (by omega), bind_error (ih (by omega) (by omega))]

theorem readCounts_sixteen {c : Nat} (h : c + 20 < s.inLen.toNat) :
    (readCounts c 16 1).run s = .ok (dhtCounts s c) s := by
  rw [readCounts_ok (by omega), dhtCounts, List.range'_eq_map_range, List.map_map]
  refine congrArg (fun ks => EStateM.Result.ok ks s) (List.map_congr_left fun i _ => ?_)
  rw [Function.comp_apply, ← Nat.add_assoc]

/-- The pairs of a DHT are those that HT_BUILD goes through (R102). -/
theorem dhtPairs_eq (s : State) (c : Nat) (counts : List Nat) :
    dhtPairs s c counts = pairsFrom s (c + 21) (lengthsFrom 1 counts) := by
  rw [← codeLengths_eq]
  rfl

/-! ### The key (R67) -/

/-- A selector nibble in range is the selector. -/
theorem selOf_eq {th : BitVec 4} (h : th ≤ 1) : selOf th = if th = 0 then 0 else 1 := by
  revert th
  decide

/-! ### The segment -/

section
variable (len : Half)

theorem dhtBody_no_header (h : s.inLen.toNat ≤ s.cur.toNat + 4) :
    (dhtBody len).run s = .error .raised (faultEntry .inRead (s.cur.toNat + 4) s) := by
  rw [dhtBody, getCur_bind_run, offHeader, inByte_bind_stop h]

theorem dhtBody_keyRange (header : s.cur.toNat + 4 < s.inLen.toNat)
    (h : 1 < hiNibble (inAt s (s.cur.toNat + 4)) ∨ 1 < loNibble (inAt s (s.cur.toNat + 4))) :
    (dhtBody len).run s = .error .raised (faultEntry .dhtKeyRange (s.cur.toNat + 4) s) := by
  rw [dhtBody, getCur_bind_run, offHeader, inByte_bind_ok header, if_pos h, raise_run]

variable (hkey : ¬ (1 < hiNibble (inAt s (s.cur.toNat + 4)) ∨ 1 < loNibble (inAt s (s.cur.toNat + 4))))
include hkey

theorem dhtBody_no_counts (header : s.cur.toNat + 4 < s.inLen.toNat) (cut : s.inLen.toNat ≤ s.cur.toNat + 20) :
    (dhtBody len).run s = .error .raised (faultEntry .inRead s.inLen.toNat s) := by
  rw [dhtBody, getCur_bind_run, offHeader, inByte_bind_ok header, if_neg hkey,
    bind_error (readCounts_stop (by omega) (by omega))]

/-- With the counts there, DHT tests them against the segment and then builds the table of the key. -/
theorem dhtBody_run (counts : s.cur.toNat + 20 < s.inLen.toNat) : (dhtBody len).run s =
    if len.toNat < 19 + (dhtCounts s s.cur.toNat).sum then
      .error .raised (faultEntry .dhtCountOverrun (s.cur.toNat + 2) s)
    else (htBuild (classOf (hiNibble (inAt s (s.cur.toNat + 4)))) (selOf (loNibble (inAt s (s.cur.toNat + 4))))
        (dhtCounts s s.cur.toNat) (s.cur.toNat + 21) >>= fun _ => advance s.cur.toNat len).run s := by
  rw [dhtBody, getCur_bind_run, offHeader, inByte_bind_ok (by omega), if_neg hkey, bind_ok (readCounts_sixteen counts)]
  split <;> rfl

end

/-- The nibbles of a key in range pass DHT's test. -/
theorem key_in_range {tc th : BitVec 4} (htc : tc ≤ 1) (hth : th ≤ 1) : ¬ (1 < tc ∨ 1 < th) := by
  rw [not_or, BitVec.not_lt, BitVec.not_lt]
  exact ⟨htc, hth⟩

/-- Settles O33: every check passes, and the build makes the tree that the insertions make. -/
theorem dhtBuildsTheTable : Obligations.DhtBuildsTheTable := by
  intro s len t c h counts htc hth hlen hin built
  rw [dhtPairs_eq] at built
  have build := (htBuild_run (classOf (hiNibble h)) (selOf (loNibble h)) counts (c + 21) s).1 t built hin
  refine (outcomeOf_ok ((dhtBody_run len (key_in_range htc hth) (by omega)).trans ((if_neg (Nat.not_lt.2 hlen)).trans
    (bind_ok build)))).trans ?_
  rw [selOf_eq hth]
  rfl

/-- Settles O34: each check is passed before the next is made; then the build goes on to the symbol that stops it. -/
theorem dhtFaultsInTheOrderOfItsChecks : Obligations.DhtFaultsInTheOrderOfItsChecks := by
  intro s len c h counts pairs
  refine ⟨fun cut => ?noKey, fun htc hth header cut => ?noCounts, fun header above => ?keyRange,
    fun htc hth there => ⟨fun beyond => ?overrun, fun hlen =>
      ⟨fun n failed inside => ?noPlace, fun t cut built => ?noSymbol⟩⟩⟩
  case noKey => exact outcomeOf_raised (dhtBody_no_header len cut)
  case noCounts => exact outcomeOf_raised (dhtBody_no_counts len (key_in_range htc hth) header cut)
  case keyRange => exact outcomeOf_raised (dhtBody_keyRange len header above)
  all_goals have run := dhtBody_run len (key_in_range htc hth) there
  case overrun => exact outcomeOf_raised (run.trans (if_pos beyond))
  all_goals
    rw [if_neg (Nat.not_lt.2 hlen)] at run
    obtain ⟨-, fails, stops⟩ := htBuild_run (classOf (hiNibble h)) (selOf (loNibble h)) counts (c + 21) s
    rw [← dhtPairs_eq] at fails stops
  case noPlace => exact outcomeOf_raised (run.trans (bind_error (fails n failed inside)))
  case noSymbol => exact outcomeOf_raised (run.trans (bind_error (stops t there cut built)))

end Sys2Proof.Machine
end

section
/-!
Isolation from the bytes of `IN` at or beyond `IN_LEN` (43_segment_scanner.md R151; 20_memory.md R41): each operation
runs alike on two states that differ in such bytes only, so every instruction does, and every step.
-/
namespace Sys2Proof.Machine

variable {α β : Type} {m : Memory} {s t : State}

/-! ### Two states that differ beyond `IN_LEN` -/

/-- The state with other bytes loaded. -/
def withIn (m : Memory) (s : State) : State := { s with inBuf := m }

/-- The loaded bytes agree with those of the state below `IN_LEN`. -/
def Agrees (m : Memory) (s : State) : Prop := ∀ a, a < s.inLen.toNat → inAt (withIn m s) a = inAt s a

theorem Agrees.of_sameInput (h : Agrees m s) (same : SameInput s t) : Agrees m t := by
  obtain ⟨hbuf, hlen⟩ := same
  intro a ha
  rw [hlen] at ha
  exact (h a ha).trans (inAt_congr hbuf a).symm

theorem SameInput.trans {u : State} (h : SameInput s t) (g : SameInput t u) : SameInput s u :=
  ⟨g.1.trans h.1, g.2.trans h.2⟩

/-- The window of a fetch shows no byte beyond `IN_LEN`. -/
theorem inWindow_withIn (h : Agrees m s) (n a : Nat) : inWindow (withIn m s) n a = inWindow s n a := by
  induction n generalizing a with
  | zero => rfl
  | succ n ih =>
    have hlen : (withIn m s).inLen = s.inLen := rfl
    rw [inWindow, inWindow, hlen, ih]
    split
    · rw [h a ‹_›]
    · rfl

theorem startsWithSoi_withIn (h : Agrees m s) : startsWithSoi (withIn m s) = startsWithSoi s := by
  rw [Bool.eq_iff_iff, startsWithSoi_iff, startsWithSoi_iff]
  refine and_congr_right fun hlen => ?_
  have hlen' : 2 ≤ s.inLen.toNat := hlen
  rw [h 0 (by omega), h 1 (by omega)]

/-! ### Programs that run alike on both -/

/-- The ends of two runs that differ in the loaded bytes only; one that goes on has kept its input. -/
inductive SameEnd (m : Memory) (s : State) : EStateM.Result Stop State α → EStateM.Result Stop State α → Prop where
  | ok (a : α) (t : State) (same : SameInput s t) : SameEnd m s (.ok a t) (.ok a (withIn m t))
  | error (e : Stop) (t : State) : SameEnd m s (.error e t) (.error e (withIn m t))

/-- The program runs alike whatever `IN` holds at or beyond `IN_LEN`. -/
def Blind (p : Prog α) : Prop := ∀ m s, Agrees m s → SameEnd m s (p.run s) (p.run (withIn m s))

theorem SameEnd.after {x y : EStateM.Result Stop State α} (same : SameInput s t) (h : SameEnd m t x y) :
    SameEnd m s x y := by
  cases h with
  | ok a u same' => exact .ok a u (same.trans same')
  | error e u => exact .error e u

theorem blind_pure (a : α) : Blind (pure a : Prog α) := fun _ s _ => .ok a s (sameInput_refl s)

theorem blind_raise (r : Reason) (pos : Nat) : Blind (raise r pos : Prog α) :=
  fun _ s _ => .error .raised (faultEntry r pos s)

theorem blind_stopWith (f : Fault) : Blind (stopWith f : Prog α) := fun _ s _ => .error (.fault f) s

/-- An update that neither reads nor writes the input: what most updates are shown to be by computation. -/
theorem blind_modify {f : State → State}
    (commutes : ∀ m s, f (withIn m s) = withIn m (f s) := by exact fun _ _ => rfl)
    (same : ∀ s, SameInput s (f s) := by exact sameInput_refl) : Blind (modify f : Prog PUnit) := by
  intro m s _
  rw [modify_run, modify_run, commutes]
  exact .ok () (f s) (same s)

theorem blind_bind {x : Prog α} {f : α → Prog β} (hx : Blind x) (hf : ∀ a, Blind (f a)) : Blind (x >>= f) := by
  intro m s h
  rw [bind_run, bind_run]
  have first := hx m s h
  generalize x.run s = r at first
  generalize x.run (withIn m s) = r' at first
  cases first with
  | ok a t same => exact (hf a m t (h.of_sameInput same)).after same
  | error e t => exact .error e t

/-- A program that goes on from what it sees of the state, if it sees no byte beyond `IN_LEN`; most see none of `IN`. -/
theorem blind_get_bind {f : State → Prog α} (hf : ∀ s, Blind (f s))
    (sees : ∀ m s, Agrees m s → f (withIn m s) = f s := by exact fun _ _ _ => rfl) : Blind (get >>= f) := by
  intro m s h
  rw [get_bind_run, get_bind_run, sees m s h]
  exact hf s m s h

theorem blind_ite {c : Prop} [Decidable c] {p q : Prog α} (hp : Blind p) (hq : Blind q) :
    Blind (if c then p else q) := by
  split
  · exact hp
  · exact hq

theorem blind_forRange {f : Nat → Prog Unit} (hf : ∀ i, Blind (f i)) (n start : Nat) :
    Blind (forRange n start f) := by
  induction n generalizing start with
  | zero => exact blind_pure ()
  | succ n ih => exact blind_bind (hf start) fun _ => ih (start + 1)

/-! ### The reads of `IN` (R41, R42) -/

theorem blind_getCur : Blind getCur := blind_get_bind fun _ => blind_pure _

theorem blind_inByte (r : Reason) (a : Nat) : Blind (inByte r a) := by
  intro m s h
  by_cases inside : a < s.inLen.toNat
  · rw [inByte_ok inside, inByte_ok (s := withIn m s) inside, h a inside]
    exact .ok _ s (sameInput_refl s)
  · rw [inByte_stop (Nat.not_lt.1 inside), inByte_stop (s := withIn m s) (Nat.not_lt.1 inside)]
    exact .error .raised _

theorem blind_inU16 (r : Reason) (a : Nat) : Blind (inU16 r a) :=
  blind_bind (blind_inByte r a) fun _ => blind_bind (blind_inByte r (a + 1)) fun _ => blind_pure _

theorem blind_advance (c : Nat) (len : Half) : Blind (advance c len) := blind_modify

/-! ### START and the markers (R140, R142, R147, R148) -/

theorem blind_startBody : Blind startBody :=
  blind_bind blind_modify fun _ => blind_bind blind_modify fun _ => blind_bind blind_modify fun _ =>
    blind_get_bind (fun _ => blind_ite blind_modify (blind_raise _ _)) fun m s h => by rw [startsWithSoi_withIn h]

theorem blind_soiBody : Blind soiBody := blind_bind blind_getCur fun _ => blind_modify

theorem blind_eoiBody : Blind eoiBody :=
  blind_bind blind_getCur fun _ => blind_bind blind_modify fun _ => blind_bind blind_modify fun _ => blind_modify

theorem blind_unsupBody (code : Byte) (len : Half) : Blind (unsupBody code len) :=
  blind_bind blind_getCur fun _ => blind_bind blind_modify fun _ => blind_advance _ len

theorem blind_badPrefixBody : Blind badPrefixBody := blind_bind blind_getCur fun _ => blind_raise _ _

/-! ### The header segments (R143 to R146) -/

theorem blind_app0Body (len : Half) : Blind (app0Body len) :=
  blind_bind blind_getCur fun _ => blind_bind blind_modify fun _ =>
    blind_bind (blind_inByte _ _) fun _ => blind_bind (blind_inByte _ _) fun _ => blind_bind blind_modify fun _ =>
    blind_bind (blind_inByte _ _) fun _ => blind_bind blind_modify fun _ =>
    blind_bind (blind_inU16 _ _) fun _ => blind_bind blind_modify fun _ =>
    blind_bind (blind_inU16 _ _) fun _ => blind_bind blind_modify fun _ => blind_advance _ len

theorem blind_quantEntry (pq : BitVec 4) (c k : Nat) : Blind (quantEntry pq c k) :=
  blind_ite (blind_bind (blind_inByte _ _) fun _ => blind_pure _) (blind_inU16 _ _)

theorem blind_setQuant (tq : BitVec 4) (n : Nat) (q : Half) : Blind (modify (setQuant tq n q) : Prog PUnit) := by
  rw [setQuant_eq]
  exact blind_modify

theorem blind_dqtBody (len : Half) : Blind (dqtBody len) := by
  refine blind_bind blind_getCur fun _ => blind_bind (blind_inByte _ _) fun _ => blind_ite (blind_raise _ _) ?_
  refine blind_bind (blind_forRange (fun k => ?_) 64 0) fun _ => blind_advance _ len
  exact blind_bind (blind_quantEntry _ _ k) fun q => blind_setQuant _ _ q

theorem blind_storeComponent (c i : Nat) : Blind (storeComponent c i) :=
  blind_bind (blind_inByte _ _) fun _ => blind_bind (blind_inByte _ _) fun _ =>
    blind_bind (blind_inByte _ _) fun _ => blind_modify

theorem blind_warnOddCount (nf : Byte) : Blind (warnOddCount nf) := blind_ite blind_modify (blind_pure ())

theorem blind_setDim (order : Config.DimOrder) (first : Bool) (v : Half) :
    Blind (modify (setDim order first v) : Prog PUnit) := by
  cases order <;> cases first <;> exact blind_modify

theorem blind_sof0Body (len : Half) : Blind (sof0Body len) :=
  blind_bind blind_getCur fun _ =>
    blind_bind (blind_inByte _ _) fun _ => blind_bind blind_modify fun _ =>
    blind_bind (blind_inU16 _ _) fun _ => blind_bind (blind_setDim _ _ _) fun _ =>
    blind_bind (blind_inU16 _ _) fun _ => blind_bind (blind_setDim _ _ _) fun _ =>
    blind_bind (blind_inByte _ _) fun _ => blind_bind (blind_warnOddCount _) fun _ =>
    blind_bind (blind_forRange (blind_storeComponent _) _ _) fun _ =>
    blind_bind blind_modify fun _ => blind_bind blind_modify fun _ => blind_advance _ len

theorem blind_readCounts (c n len : Nat) : Blind (readCounts c n len) := by
  induction n generalizing len with
  | zero => exact blind_pure _
  | succ n ih => exact blind_bind (blind_inByte _ _) fun _ => blind_bind (ih _) fun _ => blind_pure _

section
variable (cls : TabClass) (sel : BitVec 1)

theorem blind_htInsert (len : Nat) (symbol : Byte) : Blind (htInsert cls sel len symbol) := by
  refine blind_get_bind fun s => ?_
  dsimp only
  split
  · exact blind_bind blind_modify fun _ => blind_pure _
  · exact blind_pure _

theorem blind_insertSymbols (len n p : Nat) : Blind (insertSymbols cls sel len n p) := by
  induction n generalizing p with
  | zero => exact blind_pure _
  | succ n ih =>
    exact blind_bind (blind_inByte _ _) fun symbol => blind_bind (blind_htInsert cls sel len symbol) fun _ =>
      blind_ite (ih _) (blind_raise _ _)

theorem blind_insertLengths (len : Nat) (counts : List Nat) (p : Nat) : Blind (insertLengths cls sel len counts p) := by
  induction counts generalizing len p with
  | nil => exact blind_pure _
  | cons n counts ih => exact blind_bind (blind_insertSymbols cls sel len n p) fun _ => ih _ _

theorem blind_htBuild (counts : List Nat) (p : Nat) : Blind (htBuild cls sel counts p) :=
  blind_bind blind_modify fun _ => blind_bind blind_modify fun _ =>
    blind_bind (blind_insertLengths cls sel 1 counts p) fun _ => blind_modify

end

theorem blind_dhtBody (len : Half) : Blind (dhtBody len) :=
  blind_bind blind_getCur fun _ => blind_bind (blind_inByte _ _) fun _ => blind_ite (blind_raise _ _) <|
    blind_bind (blind_readCounts _ _ _) fun counts => blind_ite (blind_raise _ _) <|
    blind_bind (blind_htBuild _ _ counts _) fun _ => blind_advance _ len

/-! ### The bit stream (R90, R93, R103, R121, R122) -/

/-- The bits of `SCAN` do not depend on `IN`. -/
theorem accumulate_withIn (m : Memory) (s : State) (n p : Nat) (acc : BitVec 16) :
    accumulate (withIn m s) n p acc = accumulate s n p acc := by
  induction n generalizing p acc with
  | zero => rfl
  | succ n ih => exact ih _ _

theorem blind_readBits (n : Nat) : Blind (readBits n) := by
  refine blind_get_bind (fun s => blind_ite (blind_raise _ _) (blind_bind blind_modify fun _ => blind_pure _))
    fun m s _ => ?_
  simp only [accumulate_withIn]
  rfl

theorem blind_takeBits (n : Nat) : Blind (takeBits n) :=
  blind_bind (blind_readBits n) fun v => blind_bind blind_modify fun _ => blind_pure v

theorem blind_lookupFrom (tree : Tree) : Blind (lookupFrom tree) := by
  induction tree with
  | null => exact blind_get_bind fun _ => blind_raise _ _
  | leaf symbol => exact blind_pure symbol
  | node l r ihl ihr => exact blind_bind (blind_takeBits 1) fun _ => blind_ite ihl ihr

theorem blind_htLookup (cls : TabClass) (sel : BitVec 1) : Blind (htLookup cls sel) :=
  blind_get_bind fun _ => blind_ite (blind_lookupFrom _) (blind_raise _ _)

theorem blind_component : Blind component :=
  blind_get_bind fun _ => blind_ite (blind_pure _) (blind_stopWith _)

theorem blind_elementValue (size : Byte) : Blind (elementValue size) :=
  blind_ite (blind_pure _) <| blind_ite (blind_get_bind fun _ => blind_raise _ _) <|
    blind_bind (blind_takeBits _) fun _ => blind_pure _

theorem blind_dcBody (size : Byte) : Blind (dcBody size) :=
  blind_bind blind_modify fun _ => blind_bind blind_component fun _ => blind_bind (blind_elementValue size) fun _ =>
    blind_modify

theorem blind_acBody (size : Byte) : Blind (acBody size) :=
  blind_bind blind_modify fun _ => blind_bind (blind_elementValue size) fun _ => blind_modify

theorem blind_eobBody : Blind eobBody := blind_modify

theorem blind_fetchElement (cls : TabClass) : Blind (fetchElement cls) :=
  blind_bind (blind_bind blind_component fun _ => blind_get_bind fun _ => blind_pure _) fun sel => blind_htLookup cls sel

theorem blind_decodeAcFrom (n k : Nat) : Blind (decodeAcFrom n k) := by
  induction n generalizing k with
  | zero => exact blind_pure ()
  | succ n ih =>
    exact blind_bind blind_modify fun _ => blind_bind (blind_fetchElement .ac) fun size =>
      blind_ite blind_eobBody (blind_bind (blind_acBody size) fun _ => ih (k + 1))

theorem blind_decodeBlock : Blind decodeBlock :=
  blind_bind blind_modify fun _ =>
    blind_bind (blind_bind (blind_fetchElement .dc) blind_dcBody) fun _ => blind_decodeAcFrom 63 1

/-! ### The scan (R91, R170 to R175) -/

theorem blind_destuffLoop (fuel : Nat) : Blind (destuffLoop fuel) := by
  induction fuel with
  | zero => exact blind_get_bind fun _ => blind_raise _ _
  | succ fuel ih =>
    refine blind_get_bind (fun s => ?_) fun m s h => ?_
    · split
      · exact blind_raise _ _
      · exact blind_bind blind_modify fun _ => ih
      · exact blind_bind blind_modify fun _ => ih
      · exact blind_pure ()
    · rw [inWindow_withIn h]
      rfl

theorem blind_destuff (e0 : Nat) : Blind (destuff e0) :=
  blind_bind blind_modify fun _ => blind_get_bind fun _ =>
    blind_bind (blind_destuffLoop _) fun _ => blind_bind blind_modify fun _ => blind_get_bind fun _ => blind_pure _

theorem blind_scanEntry (c i : Nat) : Blind (scanEntry c i) :=
  blind_bind (blind_inByte _ _) fun _ => blind_bind (blind_inByte _ _) fun _ =>
    blind_ite (blind_raise _ _) blind_modify

theorem blind_sosHeader (c : Nat) : Blind (sosHeader c) :=
  blind_bind (blind_inByte _ _) fun _ => blind_get_bind fun _ =>
    blind_ite (blind_raise _ _) (blind_forRange (blind_scanEntry c) _ _)

theorem blind_sosRegion (c : Nat) (len : Half) : Blind (sosRegion c len) :=
  blind_bind (blind_destuff _) fun _ => blind_bind blind_modify fun _ => blind_get_bind fun _ =>
    blind_bind (blind_forRange (fun _ => blind_modify) _ _) fun _ => blind_pure _

theorem blind_blockOf (ci : Nat) : Blind (blockOf ci) :=
  blind_bind blind_modify fun _ => blind_bind blind_decodeBlock fun _ => blind_modify

theorem blind_sosBlocks : Blind sosBlocks :=
  blind_get_bind fun _ => blind_forRange (fun _ => blind_bind blind_modify fun _ =>
    blind_forRange (fun _ => blind_bind blind_modify fun _ => blind_forRange blind_blockOf _ _) _ _) _ _

theorem blind_sosBody (len : Half) : Blind (sosBody len) :=
  blind_bind blind_getCur fun c => blind_bind (blind_sosHeader c) fun _ => blind_bind (blind_sosRegion c len) fun _ =>
    blind_bind blind_sosBlocks fun _ => blind_modify

/-! ### Instructions and steps -/

theorem Blind.outcome {p : Prog Unit} (hp : Blind p) (h : Agrees m s) (hnext : outcomeOf p s = .next t) :
    outcomeOf p (withIn m s) = .next (withIn m t) := by
  have ends := hp m s h
  generalize hrun : p.run (withIn m s) = r at ends
  rcases outcomeOf_next hnext with hok | hraised
  · rw [hok] at ends
    cases ends
    exact outcomeOf_ok hrun
  · rw [hraised] at ends
    cases ends
    exact outcomeOf_raised hrun

theorem Blind.stateAfter {p : Prog α} (hp : Blind p) (h : Agrees m s) :
    stateAfter p (withIn m s) = withIn m (stateAfter p s) := by
  have ends := hp m s h
  unfold Machine.stateAfter
  generalize p.run s = r at ends
  generalize p.run (withIn m s) = r' at ends
  cases ends <;> rfl

/-- Every instruction is a program that runs alike whatever `IN` holds beyond `IN_LEN`. -/
theorem exec_blind (i : Instr) : ∃ p : Prog Unit, Blind p ∧ exec i = outcomeOf p := by
  cases i with
  | soi => exact ⟨_, blind_soiBody, rfl⟩
  | app0 len => exact ⟨_, blind_app0Body len, rfl⟩
  | dqt len => exact ⟨_, blind_dqtBody len, rfl⟩
  | sof0 len => exact ⟨_, blind_sof0Body len, rfl⟩
  | dht len => exact ⟨_, blind_dhtBody len, rfl⟩
  | sos len => exact ⟨_, blind_sosBody len, rfl⟩
  | eoi => exact ⟨_, blind_eoiBody, rfl⟩
  | unsup code len => exact ⟨_, blind_unsupBody code len, rfl⟩
  | badPrefix b0 b1 => exact ⟨_, blind_badPrefixBody, rfl⟩
  | stuff => exact ⟨_, blind_modify (f := storeScan 0xFF 2), rfl⟩
  | dcElem size => exact ⟨_, blind_dcBody size, rfl⟩
  | acElem size => exact ⟨_, blind_acBody size, rfl⟩
  | eob => exact ⟨_, blind_eobBody, rfl⟩

theorem takeStart_withIn (h : Agrees m s) : takeStart (withIn m s) = withIn m (takeStart s) := by
  by_cases hrun : s.run = .run
  · rw [takeStart_run hrun, takeStart_run (s := withIn m s) hrun]
    rfl
  · rw [takeStart, takeStart, if_neg hrun, if_neg (show ¬ (withIn m s).run = .run from hrun)]
    exact blind_startBody.stateAfter (s := { s with startReq := false }) h

/-- Settles O59: START, FETCH and every instruction run alike on the two states, and a halted core does nothing. -/
theorem stepIgnoresBytesBeyondTheBuffer : Obligations.StepIgnoresBytesBeyondTheBuffer := by
  intro s t m agrees hstep
  have h : Agrees m s := agrees
  show step (withIn m s) = .next (withIn m t)
  by_cases hreq : s.startReq = true
  · rw [step_start hreq] at hstep
    cases hstep
    rw [step_start (s := withIn m s) hreq, takeStart_withIn h]
  rw [Bool.not_eq_true] at hreq
  by_cases hrun : s.run = .run
  · have window := inWindow_withIn h 4 s.cur.toNat
    cases hd : decode (inWindow s 4 s.cur.toNat) with
    | ok found =>
      rw [step_fetched hrun hreq hd] at hstep
      rw [step_fetched (s := withIn m s) hrun hreq (window ▸ hd)]
      obtain ⟨p, blind, hp⟩ := exec_blind found.1
      rw [hp] at hstep ⊢
      exact blind.outcome h hstep
    | error e =>
      rw [step_truncated hrun hreq hd] at hstep
      cases hstep
      exact step_truncated (s := withIn m s) hrun hreq (window ▸ hd)
  · rw [step_halted hrun hreq] at hstep
    cases hstep
    exact step_halted hrun hreq

end Sys2Proof.Machine
end

section
/-!
The header and the region of SOS (44_scan_sos.md R170, R171): the scan entries one by one, DESTUFF of a region with and
without an end, and the state in which the block iteration begins.
-/
namespace Sys2Proof.Machine

variable {s : State} {c m : Nat}

/-! ### The scan entries (R170) -/

/-- Both table selectors of scan entry `i` of the SOS at `c` are in range (R68). -/
def GoodEntry (s : State) (c i : Nat) : Prop :=
  hiNibble (inAt s (c + 6 + 2 * i)) ≤ 1 ∧ loNibble (inAt s (c + 6 + 2 * i)) ≤ 1

theorem not_goodEntry_iff : ¬ GoodEntry s c m ↔
    1 < hiNibble (inAt s (c + 6 + 2 * m)) ∨ 1 < loNibble (inAt s (c + 6 + 2 * m)) := by
  rw [GoodEntry, not_and_or, BitVec.not_le, BitVec.not_le]

/-- The state after the first `m` scan entries. -/
def selectorsStored (s : State) (c m : Nat) : State := setCtx (fun x => { x with sel := scanSelectors s c m }) s

/-- Of an entry that is cut, the first byte missing is where `IN` ends. -/
theorem scanEntry_cut (before : c + 4 + 2 * m < s.inLen.toNat) (cut : s.inLen.toNat ≤ c + 6 + 2 * m) :
    (scanEntry c m).run (selectorsStored s c m) =
      .error .raised (faultEntry .inRead s.inLen.toNat (selectorsStored s c m)) := by
  have hlen : (selectorsStored s c m).inLen.toNat = s.inLen.toNat := rfl
  have hcomp : c + offScanComp m = c + 5 + 2 * m := by unfold offScanComp; omega
  have hsel : c + offScanSel m = c + 6 + 2 * m := by unfold offScanSel; omega
  by_cases first : s.inLen.toNat = c + 5 + 2 * m
  · rw [scanEntry, inByte_bind_stop (by omega), hcomp, first]
  · rw [scanEntry, inByte_bind_ok (by omega), inByte_bind_stop (by omega), hsel,
      show s.inLen.toNat = c + 6 + 2 * m by omega]

/-- An entry inside `IN` is tested and stored. -/
theorem scanEntry_inside (inside : c + 6 + 2 * m < s.inLen.toNat) :
    (scanEntry c m).run (selectorsStored s c m) =
      if 1 < hiNibble (inAt s (c + 6 + 2 * m)) ∨ 1 < loNibble (inAt s (c + 6 + 2 * m)) then
        .error .raised (faultEntry .scanSelRange (c + 6 + 2 * m) (selectorsStored s c m))
      else .ok () (setCtx (fun x => { x with
          sel := tabSet x.sel m
            ⟨selOf (hiNibble (inAt s (c + 6 + 2 * m))), selOf (loNibble (inAt s (c + 6 + 2 * m)))⟩ })
        (selectorsStored s c m)) := by
  have hlen : (selectorsStored s c m).inLen.toNat = s.inLen.toNat := rfl
  have hcomp : c + offScanComp m = c + 5 + 2 * m := by unfold offScanComp; omega
  have hsel : c + offScanSel m = c + 6 + 2 * m := by unfold offScanSel; omega
  rw [scanEntry, inByte_bind_ok (by omega), inByte_bind_ok (by omega), hsel]
  exact apply_ite (fun p : Prog Unit => p.run (selectorsStored s c m)) _ _ _

theorem scanEntry_good (inside : c + 6 + 2 * m < s.inLen.toNat) (good : GoodEntry s c m) :
    (scanEntry c m).run (selectorsStored s c m) = .ok () (selectorsStored s c (m + 1)) := by
  rw [scanEntry_inside inside, if_neg (not_not.2 good ∘ not_goodEntry_iff.2), selOf_eq good.1, selOf_eq good.2]
  rfl

theorem scanEntry_bad (inside : c + 6 + 2 * m < s.inLen.toNat) (bad : ¬ GoodEntry s c m) :
    (scanEntry c m).run (selectorsStored s c m) =
      .error .raised (faultEntry .scanSelRange (c + 6 + 2 * m) (selectorsStored s c m)) := by
  rw [scanEntry_inside inside, if_pos (not_goodEntry_iff.1 bad)]

/-! ### SOS_HEADER (R170) -/

/-- The count byte of the SOS at `c` is inside `IN` and is the frame's. -/
structure CountMatches (s : State) (c : Nat) : Prop where
  inside : c + 4 < s.inLen.toNat
  count : inAt s (c + 4) = s.ctx.ncomp

theorem sosHeader_no_count (h : s.inLen.toNat ≤ c + 4) :
    (sosHeader c).run s = .error .raised (faultEntry .inRead (c + 4) s) := by
  rw [sosHeader, offHeader, inByte_bind_stop h]

theorem sosHeader_other_count (inside : c + 4 < s.inLen.toNat) (h : inAt s (c + 4) ≠ s.ctx.ncomp) :
    (sosHeader c).run s = .error .raised (faultEntry .scanCompCount (c + 4) s) := by
  rw [sosHeader, offHeader, inByte_bind_ok inside, get_bind_run, if_pos h, raise_run]

theorem sosHeader_run (h : CountMatches s c) :
    (sosHeader c).run s = (forRange s.ctx.ncomp.toNat 0 (scanEntry c)).run s := by
  rw [sosHeader, offHeader, inByte_bind_ok h.inside, get_bind_run, h.count, if_neg (not_not.2 rfl)]

/-- The header whose entries are inside `IN` and good. -/
theorem sosHeader_whole (h : CountMatches s c) (inside : c + 4 + 2 * s.ctx.ncomp.toNat < s.inLen.toNat)
    (good : ∀ i, i < s.ctx.ncomp.toNat → GoodEntry s c i) :
    (sosHeader c).run s = .ok () (selectorsStored s c s.ctx.ncomp.toNat) := by
  rw [sosHeader_run h]
  refine forRange_ok (g := selectorsStored s c) s.ctx.ncomp.toNat 0 fun i hi => ?_
  rw [Nat.zero_add, scanEntry_good (by omega) (good i hi)]

/-- The header that entry `m` stops, with the entries before it stored. -/
theorem sosHeader_stop {r : Reason} {pos : Nat} (h : CountMatches s c) (hm : m < s.ctx.ncomp.toNat)
    (before : c + 4 + 2 * m < s.inLen.toNat) (good : ∀ j, j < m → GoodEntry s c j)
    (stop : (scanEntry c m).run (selectorsStored s c m) =
      .error .raised (faultEntry r pos (selectorsStored s c m))) :
    (sosHeader c).run s = .error .raised (faultEntry r pos (selectorsStored s c m)) := by
  rw [sosHeader_run h]
  refine forRange_error (g := selectorsStored s c) s.ctx.ncomp.toNat 0 m hm (fun i hi => ?_) (by rwa [Nat.zero_add])
  rw [Nat.zero_add, scanEntry_good (by omega) (good i hi)]

/-! ### A region without an end (R91, R187) -/

/-- What stands at the head of a byte list that no `FF` with a byte other than `00` ends: nothing, an `FF` alone, or an
item before such a list. -/
inductive OpenRegion : List Byte → Prop where
  | nil : OpenRegion []
  | half : OpenRegion [0xFF]
  | stuffed {rest : List Byte} (h : refRegion rest = none) : OpenRegion (0xFF :: 0x00 :: rest)
  | data {b : Byte} {rest : List Byte} (hb : b ≠ 0xFF) (h : refRegion rest = none) : OpenRegion (b :: rest)

theorem openRegion_of_none {bytes : List Byte} (h : refRegion bytes = none) : OpenRegion bytes := by
  match bytes with
  | [] => exact .nil
  | [b] =>
    by_cases hb : b = 0xFF
    · subst hb
      exact .half
    · exact .data hb rfl
  | b :: b2 :: rest =>
    rw [refRegion] at h
    by_cases hb : b = 0xFF
    · rw [if_pos hb] at h
      by_cases hb2 : b2 = 0x00
      · rw [if_pos hb2, Option.map_eq_none_iff] at h
        subst hb hb2
        exact .stuffed h
      · rw [if_neg hb2] at h
        cases h
    · rw [if_neg hb, Option.map_eq_none_iff] at h
      exact .data hb h

/-- `t` is `s` with other contents of `SCAN` and other working registers. -/
def RegionWrites (s t : State) : Prop := t = { s with scan := t.scan, work := t.work }

theorem destuffLoop_end (fuel : Nat) (h : inBytesFrom s s.work.regionPos = []) :
    (destuffLoop fuel).run s = .error .raised (faultEntry .scanEnd s.work.regionPos s) := by
  cases fuel with
  | zero => rfl
  | succ fuel => rw [destuffLoop, get_bind_run, inWindow_eq_take, h]; rfl

theorem destuffLoop_half (fuel : Nat) (h : inBytesFrom s s.work.regionPos = [0xFF]) :
    (destuffLoop (fuel + 1)).run s = .error .raised (faultEntry .scanEnd (s.work.regionPos + 1) s) := by
  rw [destuffLoop, get_bind_run, inWindow_eq_take, h]
  rfl

/-- The loop on a region without an end raises at the first byte missing. -/
theorem destuffLoop_open {fuel : Nat} (hfuel : (inBytesFrom s s.work.regionPos).length ≤ fuel)
    (h : refRegion (inBytesFrom s s.work.regionPos) = none) :
    ∃ t, (destuffLoop fuel).run s = .error .raised (faultEntry .scanEnd (max s.inLen.toNat s.work.regionPos) t) ∧
      RegionWrites s t := by
  induction fuel generalizing s with
  | zero =>
    have hnil := List.length_eq_zero_iff.1 (Nat.le_zero.1 hfuel)
    have hlen := inBytesFrom_length s s.work.regionPos
    rw [hnil, List.length_nil] at hlen
    rw [Nat.max_eq_right (by omega)]
    exact ⟨s, destuffLoop_end 0 hnil, rfl⟩
  | succ fuel ih =>
    have after (b : Byte) (step : Nat) : inBytesFrom (storeScan b step s) (storeScan b step s).work.regionPos =
        (inBytesFrom s s.work.regionPos).drop step := (inBytesFrom_drop s _ step).symm
    have hlen := inBytesFrom_length s s.work.regionPos
    have goesOn (b : Byte) (step : Nat) (hstep : 1 ≤ step)
        (hle : s.work.regionPos + step ≤ s.inLen.toNat)
        (hrest : refRegion ((inBytesFrom s s.work.regionPos).drop step) = none) :
        ∃ t, (destuffLoop fuel).run (storeScan b step s) =
            .error .raised (faultEntry .scanEnd (max s.inLen.toNat s.work.regionPos) t) ∧ RegionWrites s t := by
      rw [← after b step] at hrest
      obtain ⟨t, hrun, ht⟩ := ih (by rw [after b step, List.length_drop]; omega) hrest
      have position : max (storeScan b step s).inLen.toNat (storeScan b step s).work.regionPos =
          max s.inLen.toNat s.work.regionPos := by
        show max s.inLen.toNat (s.work.regionPos + step) = _
        omega
      rw [position] at hrun
      exact ⟨t, hrun, ht⟩
    have head := openRegion_of_none h
    generalize hbytes : inBytesFrom s s.work.regionPos = bytes at hlen goesOn head
    cases head with
    | nil =>
      rw [List.length_nil] at hlen
      rw [Nat.max_eq_right (by omega)]
      exact ⟨s, destuffLoop_end _ hbytes, rfl⟩
    | half =>
      rw [List.length_singleton] at hlen
      rw [show max s.inLen.toNat s.work.regionPos = s.work.regionPos + 1 by omega]
      exact ⟨s, destuffLoop_half fuel hbytes, rfl⟩
    | stuffed hrest =>
      simp only [List.length_cons] at hlen
      rw [destuffLoop_stuffed fuel hbytes]
      exact goesOn _ 2 (by omega) (by omega) hrest
    | data hb hrest =>
      simp only [List.length_cons] at hlen
      rw [destuffLoop_data fuel hbytes hb]
      exact goesOn _ 1 (by omega) (by omega) hrest

theorem sosRegion_open {len : Half} (h : refRegion (inBytesFrom s (c + 2 + len.toNat)) = none) :
    ∃ t, (sosRegion c len).run s =
        .error .raised (faultEntry .scanEnd (max s.inLen.toNat (c + 2 + len.toNat)) t) ∧ RegionWrites s t := by
  obtain ⟨t, hrun, ht⟩ := destuffLoop_open (s := atRegion (c + 2 + len.toNat) s) (inBytesFrom_length s _).le h
  exact ⟨t, bind_error (destuff_error hrun), ht⟩

/-! ### The faults before any block -/

/-- A fault of the header is the fault of SOS. -/
theorem exec_sos_header_stop {t : State} (len : Half) (h : (sosHeader s.cur.toNat).run s = .error .raised t) :
    exec (.sos len) s = .next t := by
  refine outcomeOf_raised (p := sosBody len) ?_
  rw [sosBody, getCur_bind_run, bind_error h]

/-- Settles O36: the header stops at its count or at the first entry that is cut or out of range, and DESTUFF at the end
of `IN`. -/
theorem sosFaultsBeforeAnyBlock : Obligations.SosFaultsBeforeAnyBlock := by
  intro s len c ns good
  refine ⟨fun cut => ?noCount, fun there other => ?otherCount, fun count =>
    ⟨fun i hi before cut sound => ?cutEntry, fun i hi inside sound bad => ?badEntry,
      fun inside sound hregion => ?openRegion⟩⟩
  case noCount => exact exec_sos_header_stop len (sosHeader_no_count cut)
  case otherCount => exact exec_sos_header_stop len (sosHeader_other_count there other)
  case cutEntry =>
    exact exec_sos_header_stop len
      (sosHeader_stop ⟨by omega, count⟩ hi before sound (scanEntry_cut before cut))
  case badEntry =>
    exact exec_sos_header_stop len
      (sosHeader_stop ⟨by omega, count⟩ hi (by omega) sound (scanEntry_bad inside bad))
  case openRegion =>
    obtain ⟨t, hrun, ht⟩ := sosRegion_open (s := selectorsStored s c ns) (c := c) (len := len) hregion
    refine ⟨_, outcomeOf_raised (p := sosBody len) ?_, congrArg (errorState 2 0x03 (max s.inLen.toNat _)) ht⟩
    rw [sosBody, getCur_bind_run, bind_ok (sosHeader_whole ⟨by omega, count⟩ inside sound), bind_error hrun]
    rfl

end Sys2Proof.Machine
end

section
/-!
The block iteration of SOS (44_scan_sos.md R172, R174): each loop of it decodes the blocks of its stretch of the grid
order, and the stretches are read one after the other from the one bit stream.
-/
namespace Sys2Proof.Machine

variable {s : State} {m : Nat} {order order₁ order₂ : List (Nat × Nat × Nat)}

/-! ### The reference reading, a stretch at a time -/

section
variable {ht : HuffTables} {sel : Tab Selectors Config.maxComp} {pred : Tab Coef Config.maxComp} {bits rest : List Bool}

/-- A reading put after another. -/
def ScanRead.after (r : ScanRead) (recs : List OutRecord) : ScanRead := ⟨recs ++ r.recs, r.pred, r.bits⟩

/-- A stretch that is read to its end is followed by the next. -/
theorem refScan_append_ok (h : (refScan ht sel order₁ pred bits).bits = .ok rest) :
    refScan ht sel (order₁ ++ order₂) pred bits =
      (refScan ht sel order₂ (refScan ht sel order₁ pred bits).pred rest).after
        (refScan ht sel order₁ pred bits).recs := by
  induction order₁ generalizing pred bits with
  | nil => cases h; rfl
  | cons place order₁ ih =>
    obtain ⟨c, x, y⟩ := place
    simp only [List.cons_append, refScan] at h ⊢
    split at h
    case h_1 => cases h
    case h_2 => simp only [ih h, ScanRead.after, List.cons_append]

/-- A stretch that faults ends the reading. -/
theorem refScan_append_error {f : BitFault} (h : (refScan ht sel order₁ pred bits).bits = .error f) :
    refScan ht sel (order₁ ++ order₂) pred bits = refScan ht sel order₁ pred bits := by
  induction order₁ generalizing pred bits with
  | nil => cases h
  | cons place order₁ ih =>
    obtain ⟨c, x, y⟩ := place
    simp only [List.cons_append, refScan] at h ⊢
    split at h
    case h_1 => rfl
    case h_2 => simp only [ih h]

end

/-- The reading of a stretch of the grid order from the bits left of a state, with its tables, selectors and
predictors. -/
def readFrom (order : List (Nat × Nat × Nat)) (s : State) : ScanRead :=
  refScan s.ctx.ht s.ctx.sel order s.ctx.pred (bitsLeft s)

/-! ### What a stretch of the iteration can change -/

/-- The state after `m` more bits were read: the predictors, the records emitted, `BLK` and the working registers
written. -/
def scanned (pred : Tab Coef Config.maxComp) (m : Nat) (recs : List OutRecord) (blk : Tab Coef Config.blockSize)
    (w : WorkRegs) (s : State) : State :=
  { s with
    bitOff := BitVec.ofNat 36 (s.bitOff.toNat + m)
    ctx := { s.ctx with pred := pred }
    blk := blk
    work := w
    out := s.out ++ recs }

section
variable {pred : Tab Coef Config.maxComp} {recs : List OutRecord} {blk : Tab Coef Config.blockSize} {w : WorkRegs}

theorem bitOff_scanned (h : m ≤ (bitsLeft s).length) :
    (scanned pred m recs blk w s).bitOff.toNat = s.bitOff.toNat + m := afterBits_bitOff h 0

theorem bitsLeft_scanned (h : m ≤ (bitsLeft s).length) :
    bitsLeft (scanned pred m recs blk w s) = (bitsLeft s).drop m := bitsLeft_afterBits h 0

theorem scanned_scanned (h : m ≤ (bitsLeft s).length) (pred' : Tab Coef Config.maxComp) (n : Nat)
    (recs' : List OutRecord) (blk' : Tab Coef Config.blockSize) (w' : WorkRegs) :
    scanned pred' n recs' blk' w' (scanned pred m recs blk w s) = scanned pred' (m + n) (recs ++ recs') blk' w' s := by
  rw [scanned, bitOff_scanned h]
  simp only [scanned, Nat.add_assoc, List.append_assoc]

theorem scanned_self (s : State) : scanned s.ctx.pred 0 [] s.blk s.work s = s := by
  simp [scanned]

end

theorem readFrom_scanned (h : m ≤ (bitsLeft s).length) (pred : Tab Coef Config.maxComp) (recs : List OutRecord)
    (blk : Tab Coef Config.blockSize) (w : WorkRegs) : readFrom order (scanned pred m recs blk w s) =
      refScan s.ctx.ht s.ctx.sel order pred ((bitsLeft s).drop m) := by
  rw [readFrom, bitsLeft_scanned h]
  rfl

/-- How a stretch of the iteration ends from `s` where the reading leaves `r`: with the records and the predictors of
`r`, at the bit, or with the fault, that `r` says. Where it runs to its end, `Q` holds of the working registers. -/
inductive ScanEnd (Q : WorkRegs → Prop) (s : State) (r : ScanRead) : EStateM.Result Stop State Unit → Prop where
  | done (m : Nat) (blk : Tab Coef Config.blockSize) (w : WorkRegs) (inside : m ≤ (bitsLeft s).length) (hw : Q w)
      (bits : r.bits = .ok ((bitsLeft s).drop m)) : ScanEnd Q s r (.ok () (scanned r.pred m r.recs blk w s))
  | fault (m : Nat) (kind : BitVec 3) (reason : BitVec 8) (blk : Tab Coef Config.blockSize) (w : WorkRegs)
      (inside : m ≤ (bitsLeft s).length) (bits : r.bits = .error ⟨kind, reason, (bitsLeft s).length - m⟩) :
      ScanEnd Q s r
        (.error .raised (errorState kind reason (s.bitOff.toNat + m) (scanned r.pred m r.recs blk w s)))

/-- What was read before counts to the whole. -/
theorem ScanEnd.after {Q : WorkRegs → Prop} {r : ScanRead} {run : EStateM.Result Stop State Unit}
    {pred : Tab Coef Config.maxComp} {recs : List OutRecord} {blk : Tab Coef Config.blockSize} {w : WorkRegs}
    (h : m ≤ (bitsLeft s).length) (g : ScanEnd Q (scanned pred m recs blk w s) r run) :
    ScanEnd Q s (r.after recs) run := by
  cases g with
  | done n blk' w' inside hw bits =>
    rw [bitsLeft_scanned h] at inside bits
    rw [List.length_drop] at inside
    rw [List.drop_drop] at bits
    rw [scanned_scanned h]
    exact .done (r := r.after recs) (m + n) blk' w' (by omega) hw bits
  | fault n kind reason blk' w' inside bits =>
    rw [bitsLeft_scanned h, List.length_drop] at inside bits
    rw [Nat.sub_sub] at bits
    rw [scanned_scanned h, bitOff_scanned h, Nat.add_assoc]
    exact .fault (r := r.after recs) (m + n) kind reason blk' w' (by omega) bits

/-- From every state whose working registers satisfy `Q`, the program decodes the blocks of a stretch of the grid order,
and keeps `Q` where it runs to its end. -/
def Decodes (Q : WorkRegs → Prop) (order : List (Nat × Nat × Nat)) (p : Prog Unit) : Prop :=
  ∀ s, Q s.work → ScanEnd Q s (readFrom order s) (p.run s)

section
variable {Q Q' : WorkRegs → Prop}

theorem decodes_nil (Q : WorkRegs → Prop) : Decodes Q [] (pure ()) := by
  intro s hQ
  have h := ScanEnd.done (r := readFrom [] s) 0 s.blk s.work (Nat.zero_le _) hQ rfl
  rwa [show scanned (readFrom [] s).pred 0 (readFrom [] s).recs s.blk s.work s = s from scanned_self s] at h

/-- A stretch, and the stretch after it. -/
theorem decodes_bind {x y : Prog Unit} (hx : Decodes Q order₁ x) (hy : Decodes Q order₂ y) :
    Decodes Q (order₁ ++ order₂) (x >>= fun _ => y) := by
  intro s hQ
  have first := hx s hQ
  generalize hrun : x.run s = run at first
  cases first with
  | done m blk w inside hw bits =>
    have second := hy (scanned (readFrom order₁ s).pred m (readFrom order₁ s).recs blk w s) hw
    rw [readFrom_scanned inside] at second
    rw [bind_ok hrun, readFrom, refScan_append_ok bits]
    exact second.after inside
  | fault m kind reason blk w inside bits =>
    rw [bind_error hrun, readFrom, refScan_append_error bits]
    exact .fault m kind reason blk w inside bits

/-- A loop, each of whose rounds decodes its stretch. -/
theorem decodes_forRange {f : Nat → Prog Unit} {stretch : Nat → List (Nat × Nat × Nat)} (n start : Nat)
    (h : ∀ i, i < start + n → Decodes Q (stretch i) (f i)) :
    Decodes Q ((List.range' start n).flatMap stretch) (forRange n start f) := by
  induction n generalizing start with
  | zero => exact decodes_nil Q
  | succ n ih =>
    rw [List.range'_succ, List.flatMap_cons]
    exact decodes_bind (h start (by omega)) (ih (start + 1) fun i hi => h i (by omega))

theorem decodes_loop {f : Nat → Prog Unit} {stretch : Nat → List (Nat × Nat × Nat)} (n : Nat)
    (h : ∀ i, i < n → Decodes Q (stretch i) (f i)) : Decodes Q ((List.range n).flatMap stretch) (forRange n 0 f) := by
  rw [List.range_eq_range']
  exact decodes_forRange n 0 fun i hi => h i (by omega)

/-- A write to the working registers before a stretch, which then keeps more of them than the whole does. -/
theorem decodes_setWork {f : WorkRegs → WorkRegs} {p : Prog Unit} (enter : ∀ w, Q w → Q' (f w))
    (leave : ∀ w, Q' w → Q w) (hp : Decodes Q' order p) :
    Decodes Q order (modify (setWork f) >>= fun _ => p) := by
  intro s hQ
  have h := hp (setWork f s) (enter _ hQ)
  rw [modify_bind_run]
  generalize p.run (setWork f s) = run at h
  cases h with
  | done m blk w inside hw bits => exact .done (r := readFrom order s) m blk w inside (leave w hw) bits
  | fault m kind reason blk w inside bits => exact .fault (r := readFrom order s) m kind reason blk w inside bits

end

/-! ### The three loops (R172) -/

/-- The iteration is in grid row `y`. -/
def AtRow (y : Nat) (w : WorkRegs) : Prop := w.row = BitVec.ofNat 13 y

/-- The iteration is in grid column `x` of row `y`. -/
def AtColumn (x y : Nat) (w : WorkRegs) : Prop := w.bx = BitVec.ofNat 13 x ∧ w.row = BitVec.ofNat 13 y

/-- A decoded block is a stretch without a record. -/
theorem decoded_eq_scanned (c : Nat) (blk : Tab Coef Config.blockSize) (p : Coef) (m : Nat) (w : WorkRegs)
    (f : WorkRegs → WorkRegs) (s : State) :
    decoded c blk p m w (setWork f s) = scanned (tabSet s.ctx.pred c p) m [] blk w s := by
  rw [scanned, List.append_nil]
  rfl

/-- The emission makes it one with the record of the block (R174). -/
theorem emitBlock_scanned (pred : Tab Coef Config.maxComp) (m : Nat) (blk : Tab Coef Config.blockSize) (w : WorkRegs)
    (s : State) :
    emitBlock (scanned pred m [] blk w s) = scanned pred m [.block w.ci w.bx w.row blk] blk w s := by
  simp [emitBlock, scanned, pushOut]

/-- One block: DECODE_BLOCK of its component, and the emission. -/
theorem blockOf_decodes {c : Nat} (x y : Nat) (hc : c < 255) : Decodes (AtColumn x y) [(c, x, y)] (blockOf c) := by
  intro s ⟨hbx, hrow⟩
  let s1 := setWork (fun w => { w with ci := BitVec.ofNat 8 c }) s
  have hci : s1.work.ci.toNat = c := Nat.mod_eq_of_lt (by omega)
  obtain ⟨k, hk⟩ := tabGet_isSome s.ctx.sel (i := c) hc
  obtain ⟨p, hp⟩ := tabGet_isSome s.ctx.pred (i := c) hc
  have block := decodeBlock_end (s := s1) (k := k) (p := p) ⟨by rwa [hci], by rwa [hci]⟩
  rw [hci] at block
  change BlockEnd c s1 (refBlock (treeOf s.ctx.ht .dc k.dc) (treeOf s.ctx.ht .ac k.ac) p (bitsLeft s)) _ at block
  rw [blockOf, modify_bind_run, readFrom, refScan, hk, hp, Option.getD_some, Option.getD_some]
  generalize refBlock (treeOf s.ctx.ht .dc k.dc) (treeOf s.ctx.ht .ac k.ac) p (bitsLeft s) = b at block ⊢
  generalize hrun : decodeBlock.run s1 = run at block
  cases block with
  | done m t read blk pred bits =>
    obtain ⟨same, ht⟩ := read.eq_decoded pred
    rw [decoded_eq_scanned] at ht
    rw [bind_ok hrun, modify_run, ht, emitBlock_scanned, same.ci, same.bx, same.row, blk]
    simp only [bits, ← hbx, ← hrow]
    exact .done (r := ⟨[_], _, _⟩) m b.blk t.work read.inside ⟨same.bx.trans hbx, same.row.trans hrow⟩ rfl
  | fault m t kind reason read blk pred bits =>
    obtain ⟨-, ht⟩ := read.eq_decoded pred
    rw [decoded_eq_scanned] at ht
    rw [bind_error hrun, ht]
    simp only [bits]
    exact .fault (r := ⟨[], _, _⟩) m kind reason t.blk t.work read.inside rfl

theorem blockColumn_decodes {ncomp : Nat} (x y : Nat) (hn : ncomp ≤ 255) :
    Decodes (AtRow y) ((List.range ncomp).map fun c => (c, x, y)) (blockColumn ncomp x) := by
  rw [List.map_eq_flatMap]
  exact decodes_setWork (fun w hw => ⟨rfl, hw⟩) (fun w hw => hw.2)
    (decodes_loop ncomp fun c hc => blockOf_decodes x y (by omega))

theorem blockRow_decodes {ncomp : Nat} (bw y : Nat) (hn : ncomp ≤ 255) :
    Decodes (fun _ => True) ((List.range bw).flatMap fun x => (List.range ncomp).map fun c => (c, x, y))
      (blockRow ncomp bw y) :=
  decodes_setWork (fun _ _ => rfl) (fun _ _ => trivial)
    (decodes_loop bw fun x _ => blockColumn_decodes x y hn)

/-- SOS_BLOCKS decodes the grid of the frame in its order. -/
theorem sosBlocks_end (s : State) :
    ScanEnd (fun _ => True) s
      (readFrom (gridOrder s.ctx.ncomp.toNat (s.ctx.width.toNat / 8) (s.ctx.height.toNat / 8)) s) (sosBlocks.run s) := by
  have hn : s.ctx.ncomp.toNat ≤ 255 := Nat.le_of_lt_succ s.ctx.ncomp.isLt
  rw [sosBlocks, get_bind_run, gridOrder]
  exact decodes_loop _ (fun y _ => blockRow_decodes _ y hn) s trivial

/-! ### The empty grid (R226) -/

theorem emptyRows_run (ncomp n start : Nat) (s : State) :
    ∃ w, (forRange n start (blockRow ncomp 0)).run s = .ok () { s with work := w } := by
  induction n generalizing start s with
  | zero => exact ⟨s.work, rfl⟩
  | succ n ih => exact ih (start + 1) (setWork (fun w => { w with row := BitVec.ofNat 13 start }) s)

/-- A grid without rows or without columns has no block: only working registers are written. -/
theorem sosBlocks_empty (h : s.ctx.width.toNat < 8 ∨ s.ctx.height.toNat < 8) :
    ∃ w, sosBlocks.run s = .ok () { s with work := w } := by
  rw [sosBlocks, get_bind_run]
  rcases h with narrow | low
  · rw [Nat.div_eq_of_lt narrow]
    exact emptyRows_run _ _ 0 s
  · rw [Nat.div_eq_of_lt low]
    exact ⟨s.work, rfl⟩

end Sys2Proof.Machine
end

section
/-!
SOS as a whole (44_scan_sos.md R175): the state in which the block iteration begins, and what the iteration makes of it.
-/
namespace Sys2Proof.Machine

variable {s : State} {c n : Nat} {len : Half} {data : List Byte}

/-! ### SOS_REGION (R171) -/

/-- The predictors once those of the first `m` components are 0. -/
def seededPreds (pred : Tab Coef Config.maxComp) (m : Nat) : Tab Coef Config.maxComp :=
  storeFirst pred (fun i => i) (fun _ => 0) m

/-- The predictors at the first block are 0 for the components of the frame and the old ones beyond them. -/
theorem seededPreds_eq {pred pred0 : Tab Coef Config.maxComp} {m : Nat} (hm : m ≤ 255)
    (zero : ∀ i, i < m → tabGet pred0 i = some 0) (old : ∀ i, m ≤ i → tabGet pred0 i = tabGet pred i) :
    seededPreds pred m = pred0 := by
  refine tab_ext fun i => ?_
  have entry : tabGet (seededPreds pred m) i = if i < m then some 0 else tabGet pred i :=
    tabGet_storeFirst (k := i) (fun j hj => Nat.lt_of_lt_of_le hj hm) fun _ _ same => same
  rw [entry]
  split
  case isTrue h => exact (zero i h).symm
  case isFalse h => exact (old i (Nat.not_lt.1 h)).symm

theorem seedLoop_run (m : Nat) (s : State) :
    (forRange m 0 seedPred).run s = .ok () (setCtx (fun x => { x with pred := seededPreds x.pred m }) s) := by
  refine forRange_ok (g := fun i => setCtx (fun x => { x with pred := seededPreds x.pred i }) s) m 0 fun i _ => ?_
  rw [Nat.zero_add]
  rfl

/-- DESTUFF writes `SCAN`, its length and the cursors. -/
theorem destuffed_eq (e0 : Nat) (data : List Byte) (n : Nat) (s : State) : destuffed e0 data n s =
    { s with
      scan := memLoad s.scan 0 data
      scanLen := BitVec.ofNat 32 data.length
      work := { s.work with regionPos := e0 + n, regionLen := data.length } } := by
  simp [destuffed, storeRegion, atRegion, setWork]

/-- The state after SOS_REGION of a region of `n` bytes at `e0` that stand for `data`. -/
def regionRead (e0 : Nat) (data : List Byte) (n : Nat) (s : State) : State :=
  { s with
    bitOff := 0
    ctx := { s.ctx with pred := seededPreds s.ctx.pred s.ctx.ncomp.toNat }
    scan := memLoad s.scan 0 data
    scanLen := BitVec.ofNat 32 data.length
    work := { s.work with regionPos := e0 + n, regionLen := data.length } }

theorem sosRegion_run (h : refRegion (inBytesFrom s (c + 2 + len.toNat)) = some (data, n)) :
    (sosRegion c len).run s = .ok (c + 2 + len.toNat + n) (regionRead (c + 2 + len.toNat) data n s) := by
  rw [sosRegion, bind_ok (destuff_run h), destuffed_eq, modify_bind_run, get_bind_run, bind_ok (seedLoop_run _ _),
    pure_run]
  rfl

section
variable {e0 i : Nat}

theorem scanAt_regionRead (hwf : memWf s.scan) : scanAt (regionRead e0 data n s) i = data[i]?.getD (scanAt s i) := by
  have stored := scanAt_destuffed (e0 := e0) (data := data) (n := n) hwf i
  rwa [destuffed_eq] at stored

theorem scanBytes_regionRead (hwf : memWf s.scan) (hlen : data.length < 2 ^ 32) :
    scanBytes (regionRead e0 data n s) = data := by
  have stored := scanBytes_destuffed (e0 := e0) (n := n) hwf hlen
  rwa [destuffed_eq] at stored

end

/-! ### The state at the first block -/

/-- The state in which the iteration of the SOS at `CUR` begins, with a region of `n` bytes that stand for `data`. -/
def atFirstBlock (len : Half) (data : List Byte) (n : Nat) (s : State) : State :=
  regionRead (s.cur.toNat + 2 + len.toNat) data n (selectorsStored s s.cur.toNat s.ctx.ncomp.toNat)

/-- An SOS whose header is good and whose region has an end. -/
structure GoodScan (s : State) (len : Half) (data : List Byte) (n : Nat) : Prop where
  wf : memWf s.scan
  inside : s.cur.toNat + 4 + 2 * s.ctx.ncomp.toNat < s.inLen.toNat
  count : inAt s (s.cur.toNat + 4) = s.ctx.ncomp
  entries : ∀ i, i < s.ctx.ncomp.toNat → GoodEntry s s.cur.toNat i
  region : refRegion (inBytesFrom s (s.cur.toNat + 2 + len.toNat)) = some (data, n)

/-- Header and region of a good scan lead to the blocks. -/
theorem sosBody_run (h : GoodScan s len data n) : (sosBody len).run s =
    (sosBlocks >>= fun _ => modify (setCur (s.cur.toNat + 2 + len.toNat + n))).run (atFirstBlock len data n s) := by
  have inside := h.inside
  have header := sosHeader_whole ⟨by omega, h.count⟩ inside h.entries
  have region := sosRegion_run (s := selectorsStored s s.cur.toNat s.ctx.ncomp.toNat) h.region
  rw [sosBody, getCur_bind_run, bind_ok header, bind_ok region, atFirstBlock]

/-- What `SCAN` holds from the first block on: the data bytes, and beyond them the old ones. -/
theorem GoodScan.scanBytes (h : GoodScan s len data n) : scanBytes (atFirstBlock len data n s) = data :=
  scanBytes_regionRead h.wf ((regionData_length_lt h.region).trans s.inLen.isLt)

theorem GoodScan.scanAt_beyond (h : GoodScan s len data n) {i : Nat} (hi : data.length ≤ i) :
    scanAt (atFirstBlock len data n s) i = scanAt s i := by
  refine (scanAt_regionRead (s := selectorsStored s s.cur.toNat s.ctx.ncomp.toNat) h.wf).trans ?_
  rw [List.getElem?_eq_none hi]
  rfl

theorem GoodScan.bitsLeft (h : GoodScan s len data n) :
    bitsLeft (atFirstBlock len data n s) = data.flatMap byteBits := by
  rw [Machine.bitsLeft, h.scanBytes]
  rfl

/-! ### The scan -/

/-- Settles O35: header and region lead to the first block, and the iteration reads the grid from the bits of the
data. -/
theorem sosDecodesTheScan : Obligations.SosDecodesTheScan := by
  intro s len pred0 data n c ns sel wf inside count entries zero old region r
  have good : GoodScan s len data n := ⟨wf, inside, count, entries, region⟩
  have body := sosBody_run good
  have blocks := sosBlocks_end (atFirstBlock len data n s)
  have preds : seededPreds s.ctx.pred ns = pred0 := seededPreds_eq (Nat.le_of_lt_succ s.ctx.ncomp.isLt) zero old
  have reading : readFrom (gridOrder ns (s.ctx.width.toNat / 8) (s.ctx.height.toNat / 8)) (atFirstBlock len data n s)
      = r := by
    rw [readFrom, good.bitsLeft]
    exact congrArg (refScan s.ctx.ht sel _ · _) preds
  have length : (bitsLeft (atFirstBlock len data n s)).length = 8 * data.length := by
    rw [good.bitsLeft, flatBits_length]
  change ScanEnd _ _ (readFrom (gridOrder ns (s.ctx.width.toNat / 8) (s.ctx.height.toNat / 8)) _) _ at blocks
  rw [reading] at blocks
  generalize hrun : sosBlocks.run (atFirstBlock len data n s) = run at blocks
  cases blocks with
  | done m blk w hm _ bits =>
    rw [bind_ok hrun, modify_run] at body
    refine ⟨_, outcomeOf_ok body, good.scanBytes, fun i hi => good.scanAt_beyond hi, ?_⟩
    have consumed : 8 * data.length - ((bitsLeft (atFirstBlock len data n s)).drop m).length = 0 + m := by
      rw [List.length_drop, length]
      omega
    simp only [bits, consumed]
    rfl
  | fault m kind reason blk w hm bits =>
    rw [bind_error hrun] at body
    refine ⟨_, outcomeOf_raised body, good.scanBytes, fun i hi => good.scanAt_beyond hi, ?_⟩
    have consumed : 8 * data.length - ((bitsLeft (atFirstBlock len data n s)).length - m) = 0 + m := by
      rw [length]
      omega
    simp only [bits, consumed]
    rfl

/-- Settles O37: the iteration of an empty grid writes working registers only, and `CUR` moves to the end of the
region. -/
theorem emptyGridOnlySkipsTheRegion : Obligations.EmptyGridOnlySkipsTheRegion := by
  intro s len data n c ns wf small inside count entries region
  have good : GoodScan s len data n := ⟨wf, inside, count, entries, region⟩
  have body := sosBody_run good
  obtain ⟨w, blocks⟩ := sosBlocks_empty (s := atFirstBlock len data n s) small
  rw [bind_ok blocks, modify_run] at body
  exact ⟨_, outcomeOf_ok body, rfl, rfl, rfl, good.scanBytes, rfl, rfl, rfl, rfl⟩

end Sys2Proof.Machine
end

section
/-! The family '60_exceptions.md': fault entry and the numbers of the reasons. -/

namespace Sys2Proof.Machine

/-- Settles O13: fault entry is the error state with the two codes of its reason, and each row of R181 is what the code
tables answer for that reason. -/
theorem faultEntrySavesReleasesHalts : Obligations.FaultEntrySavesReleasesHalts := by
  intro s pos
  have row (r : Reason) {kind : BitVec 3} {reason : BitVec 8} (hkind : kindCode (reasonKind r) = kind)
      (hreason : reasonCode r = reason) : faultEntry r pos s = errorState kind reason pos s := by
    rw [faultEntry_eq, hkind, hreason]
  exact ⟨row .startNotSoi rfl rfl, row .inRead rfl rfl, row .scanEnd rfl rfl, row .scanBits rfl rfl,
    row .dhtKeyRange rfl rfl, row .dhtCountOverrun rfl rfl, row .insertFail rfl rfl, row .scanSelRange rfl rfl,
    row .lookupNoTable rfl rfl, row .lookupNull rfl rfl, row .markerPrefix rfl rfl, row .dqtPrecision rfl rfl,
    row .scanCompCount rfl rfl, row .sizeRange rfl rfl⟩

end Sys2Proof.Machine
end

section
/-! The family '70_reset_and_hazards.md': no behaviour of the core is left open (R229). -/

namespace Sys2Proof.Machine

/-- Settles O53: each of the five ways of a step has a next state. A fetch without its bytes raises a fatal error, which
is the next state fault entry leaves (R183); what a fetch does decode is an instruction of the marker space, and none of
these stops or is refused (`exec_marker`). -/
theorem everyStepHasANextState : Obligations.EveryStepHasANextState := fun s =>
  let ⟨t, hstep, _⟩ := step_cases s
  ⟨t, hstep⟩

end Sys2Proof.Machine
end

section
/-!
The form of the byte memories (log entry 12), as an invariant of every step: no part of a step writes `IN`, and the one
that writes `SCAN` is the store of DESTUFF.
-/
namespace Sys2Proof.Machine

variable {s t : State}

/-- An update stores a byte in `SCAN`, or leaves both memories as they are. -/
theorem update_memForm (hs : MemForm s) (h : Update s t) : MemForm t := by
  obtain ⟨hin, hscan⟩ := hs
  cases h with
  | store b step => exact ⟨hin, storeScan_memWf b step s hscan⟩
  | _ => exact ⟨hin, hscan⟩

theorem memForm_stepInvariant : StepInvariant MemForm where
  dropStart _ hs := hs
  update _ _ _ hs h := update_memForm hs h
  cursor _ _ _ _ hs := hs
  fault _ _ _ _ hs := hs
  halt _ _ hs := hs
  start _ _ hs := hs

/-- Settles O46: `SCAN` is written by the stores of DESTUFF only, each of which keeps its addresses rising, and `IN` by
nothing that a step does. -/
theorem stepKeepsMemoryForm : Obligations.StepKeepsMemoryForm :=
  fun _ _ => memForm_stepInvariant.of_step

end Sys2Proof.Machine
end
